-- ==== Sys2Proof/Word.lean ====
section
/-! DEFINITION. The word types of the block: 32-bit words on both ports (00_scope.md R6), bytes of system memory
(20_memory.md R48), and the binary32 samples that are the same 32 bits (00_scope.md R9). -/

namespace Sys2Proof

/-- A byte of system memory (R48). -/
abbrev Byte := BitVec 8

/-- A 32-bit word of the register port or the memory port (R6: DATA_WIDTH = 32). -/
abbrev Word := BitVec 32

/-- A binary32 number: "a 32-bit word and the F32 it encodes are the same value" (R9). -/
abbrev F32 := Word

end Sys2Proof
end

