-- ==== Sys2Proof/Machine/Float32.lean ====
section
/-! DEFINITION. IEEE 754 binary32 arithmetic (00_scope.md R9 to R11): each operation is the exact real result rounded once,
to nearest, ties to even; subnormals are kept; every NaN result is the canonical NaN; no flag is recorded.

A finite number is ±m * 2^-149 for a natural number m, its magnitude in units of the smallest subnormal. Every operation
works on these magnitudes exactly and rounds once, in `fRound`. -/

namespace Sys2Proof.Machine

/-- The canonical NaN (R11). -/
def fNaN : F32 := 0x7FC00000#32

/-- 1.0. -/
def fOne : F32 := 0x3F800000#32

/-- 2.0. -/
def fTwo : F32 := 0x40000000#32

/-- 0.5. -/
def fHalf : F32 := 0x3F000000#32

/-- The word of +inf without its sign bit, as a number. -/
def fInfCode : Nat := 0x7F800000

/-- The sign, bit 31 (R9). -/
def fSign (a : F32) : Bool := a.msb

/-- The biased exponent, bits 30:23 (R9). -/
def fExp (a : F32) : Nat := (a.extractLsb' 23 8).toNat

/-- The fraction, bits 22:0 (R9). -/
def fFrac (a : F32) : Nat := (a.extractLsb' 0 23).toNat

/-- A NaN: exponent all ones, fraction not zero (IEEE 754). -/
def fIsNaN (a : F32) : Bool := fExp a == 255 && fFrac a != 0

/-- An infinity: exponent all ones, fraction zero (IEEE 754). -/
def fIsInf (a : F32) : Bool := fExp a == 255 && fFrac a == 0

/-- A zero of either sign. -/
def fIsZero (a : F32) : Bool := fExp a == 0 && fFrac a == 0

/-- A number: neither a NaN nor an infinity. -/
def fIsFinite (a : F32) : Bool := fExp a != 255

/-- The magnitude of a finite number in units of 2^-149: the fraction for a zero or a subnormal, else the significand with
its leading 1, shifted by the exponent (R9: bias 127). -/
def fMag (a : F32) : Nat :=
  if fExp a = 0 then fFrac a else (2 ^ 23 + fFrac a) * 2 ^ (fExp a - 1)

/-- The value of a finite number in units of 2^-149. -/
def fInt (a : F32) : Int := if fSign a then -(fMag a : Int) else (fMag a : Int)

/-- The word of a sign and an exponent-and-fraction code; a code past the largest finite number is infinity. -/
def fPack (neg : Bool) (code : Nat) : F32 :=
  BitVec.ofNat 32 ((if neg then 2 ^ 31 else 0) + min code fInfCode)

/-- The exponent of the rounding quantum of n/d, both in units of 2^-149: 0 where the result is subnormal or in the first
normal binade, else what leaves 24 significant bits. -/
def fQuantum (n d : Nat) : Nat := (n / d).log2 - 23

/-- n divided by q, rounded to the nearest natural number, ties to even. -/
def divNearestEven (n q : Nat) : Nat :=
  if 2 * (n % q) > q ∨ (2 * (n % q) = q ∧ n / q % 2 = 1) then n / q + 1 else n / q

/-- The binary32 number nearest to ±(n/d) * 2^-149, ties to even (R10): n/d is rounded once to a multiple of its quantum.
A carry out of the significand moves into the exponent field by itself. -/
def fRound (neg : Bool) (n d : Nat) : F32 :=
  fPack neg (fQuantum n d * 2 ^ 23 + divNearestEven n (d * 2 ^ fQuantum n d))

/-- ±inf. -/
def fInf (neg : Bool) : F32 := fPack neg fInfCode

/-- ±0. -/
def fZero (neg : Bool) : F32 := fPack neg 0

/-- A NaN that passes through a primitive is delivered as the canonical NaN (R11). -/
def fCanon (a : F32) : F32 := if fIsNaN a then fNaN else a

/-- The sum of two finite numbers. An exact zero sum is +0 unless both operands are negative zeros (IEEE 754). -/
def fAddFinite (a b : F32) : F32 :=
  if fInt a + fInt b = 0 then fZero (fSign a && fSign b)
  else fRound (decide (fInt a + fInt b < 0)) (fInt a + fInt b).natAbs 1

/-- fadd (R10). The sum of infinities of opposite sign is invalid. -/
def fadd (a b : F32) : F32 :=
  if fIsNaN a || fIsNaN b then fNaN
  else if fIsInf a then (if fIsInf b && fSign a != fSign b then fNaN else a)
  else if fIsInf b then b
  else fAddFinite a b

/-- Flip bit 31. -/
def fFlip (a : F32) : F32 := a ^^^ 0x80000000#32

/-- fneg (R10): flips bit 31; a NaN passed through is canonical (R11, log 21). -/
def fneg (a : F32) : F32 := if fIsNaN a then fNaN else fFlip a

/-- fsub (R10): a - b is a + (-b). -/
def fsub (a b : F32) : F32 := fadd a (fneg b)

/-- fmul (R10). 0 * inf is invalid. -/
def fmul (a b : F32) : F32 :=
  if fIsNaN a || fIsNaN b then fNaN
  else if fIsInf a || fIsInf b then
    (if fIsZero a || fIsZero b then fNaN else fInf (fSign a != fSign b))
  else fRound (fSign a != fSign b) (fMag a * fMag b) (2 ^ 149)

/-- fdiv (R10). 0/0 and inf/inf are invalid; a finite non-zero number over a zero is an infinity. -/
def fdiv (a b : F32) : F32 :=
  if fIsNaN a || fIsNaN b then fNaN
  else if fIsInf a then (if fIsInf b then fNaN else fInf (fSign a != fSign b))
  else if fIsInf b then fZero (fSign a != fSign b)
  else if fIsZero b then (if fIsZero a then fNaN else fInf (fSign a != fSign b))
  else fRound (fSign a != fSign b) (fMag a * 2 ^ 149) (fMag b)

/-- The place of a number that is no NaN in the order of the reals with the infinities; ±0 share one place. -/
def fKey (a : F32) : Int :=
  if fSign a then -((a.extractLsb' 0 31).toNat : Int) else ((a.extractLsb' 0 31).toNat : Int)

/-- The IEEE comparison a >= b, false when an operand is a NaN (40_coefficient_solver.md R75). -/
def fge (a b : F32) : Bool :=
  !fIsNaN a && !fIsNaN b && decide (fKey b ≤ fKey a)

/-- `f32(x)` of the host script for a decimal number x = ±n/d: the nearest binary32, ties to even (30_encoding.md R73). -/
def f32OfRatio (neg : Bool) (n d : Nat) : F32 := fRound neg (n * 2 ^ 149) d

end Sys2Proof.Machine
end

