-- ==== Sys2Proof/Machine/RealValue.lean ====
section
/-! DEFINITION. Binary32 numbers as real numbers: the value of a word, what it means to round once (00_scope.md R10), and
the laws of the exponential FEXP (40_coefficient_solver.md R77). -/

namespace Sys2Proof.Machine

/-! ### Rounding (00_scope.md R10) -/

/-- The value of a finite binary32 number. -/
def fRat (a : F32) : ℚ := (fInt a : ℚ) / 2 ^ 149

/-- The least magnitude that rounds to an infinity: half a unit in the last place above the largest finite number. -/
def overflowBound : ℚ := (2 ^ 25 - 1) * 2 ^ 103

/-- `w` is the exact real `q` rounded once to binary32, to nearest, ties to even. -/
def RoundsTo (q : ℚ) (w : F32) : Prop :=
  (|q| < overflowBound →
    fIsFinite w = true ∧ ∀ z : F32, fIsFinite z = true →
      |fRat w - q| ≤ |fRat z - q| ∧ (fRat z ≠ fRat w → |fRat w - q| = |fRat z - q| → fFrac w % 2 = 0)) ∧
  (overflowBound ≤ |q| → w = fInf (decide (q < 0)))

/-! ### The laws of FEXP (40_coefficient_solver.md R77) -/

/-- The arguments to which SOLVE applies FEXP: [-2*2*E0, 0], where -2*2*E0 is the word 0xC0D8D412. -/
def fexpArgument (x : F32) : Prop := fIsFinite x = true ∧ fInt 0xC0D8D412#32 ≤ fInt x ∧ fInt x ≤ 0

/-- Laws L1, L2 and L3 of R77 for an exponential `f`. The unit in the last place is that of the binade of e^x. -/
structure FexpLaws (f : F32 → F32) : Prop where
  atZero : f 0x00000000#32 = fOne ∧ f 0x80000000#32 = fOne
  positive : ∀ x, fexpArgument x → fIsFinite (f x) = true ∧ 0 < fInt (f x)
  near : ∀ x, fexpArgument x →
    |((fRat (f x) : ℚ) : ℝ) - Real.exp ((fRat x : ℚ) : ℝ)| ≤ (2 : ℝ) ^ (Int.log 2 (Real.exp ((fRat x : ℚ) : ℝ)) - 23)
  monotone : ∀ x y, fexpArgument x → fexpArgument y → fInt x ≤ fInt y → fInt (f x) ≤ fInt (f y)

end Sys2Proof.Machine
end

