-- ==== Sys2Proof/Laws/Float32.lean ====
section
/-! SUPPORT. What packing and rounding give (00_scope.md R9, R10): the fields of a packed word, and the one lemma about
`fRound`, that it rounds to the nearest number with ties to even. -/

namespace Sys2Proof.Machine

/-- The fraction, as the word's number. -/
theorem fFrac_eq (a : F32) : fFrac a = a.toNat % 2 ^ 23 := by
  simp [fFrac, BitVec.extractLsb'_toNat]

/-- The biased exponent, as the word's number. -/
theorem fExp_eq (a : F32) : fExp a = a.toNat / 2 ^ 23 % 256 := by
  simp [fExp, BitVec.extractLsb'_toNat, Nat.shiftRight_eq_div_pow]

/-- The sign, as the word's number. -/
theorem fSign_eq (a : F32) : fSign a = decide (2 ^ 31 ≤ a.toNat) := by
  simp [fSign, BitVec.msb_eq_decide]

/-- A finite number is no NaN and no infinity. -/
theorem fIsFinite_excludes {a : F32} (h : fIsFinite a = true) : fIsNaN a = false ∧ fIsInf a = false := by
  simp [fIsFinite, fIsNaN, fIsInf] at *
  exact ⟨fun h' => absurd h' h, fun h' => absurd h' h⟩

/-- A zero is a number of magnitude 0. -/
theorem fIsZero_iff_mag (a : F32) : fIsZero a = true ↔ fMag a = 0 := by
  unfold fIsZero fMag
  by_cases h : fExp a = 0 <;> simp [h]

/-- The value is 0 exactly at magnitude 0. -/
theorem fRat_eq_zero_iff (a : F32) : fRat a = 0 ↔ fMag a = 0 := by
  rw [fRat, fInt]; cases fSign a <;> simp

/-- Flipping bit 31 changes the sign only. -/
theorem fFlip_fields (a : F32) :
    fExp (fFlip a) = fExp a ∧ fFrac (fFlip a) = fFrac a ∧ fSign (fFlip a) = !fSign a := by
  unfold fFlip fExp fFrac fSign
  refine ⟨?_, ?_, ?_⟩
  · congr 1; ext i hi; simp; interval_cases i <;> simp
  · congr 1; ext i hi; simp; interval_cases i <;> simp
  · simp; cases a.msb <;> decide

/-- The fields of a packed word. -/
theorem fPack_toNat (neg : Bool) (code : Nat) :
    (fPack neg code).toNat = (if neg then 2 ^ 31 else 0) + min code fInfCode := by
  have : min code fInfCode ≤ 0x7F800000 := by simp [fInfCode]
  cases neg <;> simp only [fPack, BitVec.toNat_ofNat] <;> norm_num <;> omega

@[simp] theorem fSign_fPack (neg : Bool) (code : Nat) : fSign (fPack neg code) = neg := by
  have : min code fInfCode ≤ 0x7F800000 := by simp [fInfCode]
  rw [fSign_eq, fPack_toNat]
  cases neg
  · simp; omega
  · simp

theorem fFrac_fPack (neg : Bool) (code : Nat) : fFrac (fPack neg code) = min code fInfCode % 2 ^ 23 := by
  rw [fFrac_eq, fPack_toNat]
  cases neg
  · simp
  · simp; omega

theorem fExp_fPack (neg : Bool) (code : Nat) : fExp (fPack neg code) = min code fInfCode / 2 ^ 23 := by
  have : min code fInfCode ≤ 0x7F800000 := by simp [fInfCode]
  rw [fExp_eq, fPack_toNat]
  cases neg <;> simp <;> omega

/-- The magnitude of a packed word below infinity: quantum exponent q and significand m. -/
theorem fMag_fPack (neg : Bool) (q m : Nat) (hm : m ≤ 2 ^ 24) (hq : q = 0 ∨ 2 ^ 23 ≤ m)
    (h : q * 2 ^ 23 + m < fInfCode) : fMag (fPack neg (q * 2 ^ 23 + m)) = m * 2 ^ q := by
  have hmin : min (q * 2 ^ 23 + m) fInfCode = q * 2 ^ 23 + m := by omega
  rw [fMag, fExp_fPack, fFrac_fPack, hmin]
  rcases Nat.lt_or_ge m (2 ^ 23) with hlt | hge
  · obtain rfl : q = 0 := by omega
    have h0 : (0 * 2 ^ 23 + m) / 2 ^ 23 = 0 := by omega
    rw [if_pos h0]; simp; omega
  · rcases Nat.lt_or_ge m (2 ^ 24) with hlt' | hge'
    · have h1 : (q * 2 ^ 23 + m) / 2 ^ 23 = q + 1 := by omega
      rw [if_neg (by omega), h1]
      have : (q * 2 ^ 23 + m) % 2 ^ 23 = m - 2 ^ 23 := by omega
      rw [this, Nat.add_sub_cancel' hge, Nat.add_sub_cancel]
    · obtain rfl : m = 2 ^ 24 := by omega
      have h1 : (q * 2 ^ 23 + 2 ^ 24) / 2 ^ 23 = q + 2 := by omega
      rw [if_neg (by omega), h1]
      have : (q * 2 ^ 23 + 2 ^ 24) % 2 ^ 23 = 0 := by omega
      rw [this, show q + 2 - 1 = q + 1 from rfl, Nat.pow_succ 2 q]
      generalize 2 ^ q = k
      omega

/-- A finite magnitude at or above a binade's first number is a multiple of that binade's quantum. -/
theorem fMag_multiple (z : F32) (q : Nat) (h : q = 0 ∨ 2 ^ (q + 23) ≤ fMag z) : ∃ k, fMag z = k * 2 ^ q := by
  rcases h with rfl | h
  · exact ⟨fMag z, by simp⟩
  · have hf : fFrac z < 2 ^ 23 := by rw [fFrac_eq]; exact Nat.mod_lt _ (by norm_num)
    unfold fMag at h ⊢
    split
    · rename_i he
      rw [if_pos he] at h
      have : 2 ^ 23 ≤ 2 ^ (q + 23) := Nat.pow_le_pow_right (by norm_num) (by omega)
      omega
    · rename_i he
      rw [if_neg he] at h
      have hlt : (2 ^ 23 + fFrac z) * 2 ^ (fExp z - 1) < 2 ^ (fExp z - 1 + 24) := by
        rw [pow_add, mul_comm (2 ^ (fExp z - 1))]
        gcongr; omega
      have : q + 23 < fExp z - 1 + 24 := (Nat.pow_lt_pow_iff_right (by norm_num)).1 (lt_of_le_of_lt h hlt)
      refine ⟨(2 ^ 23 + fFrac z) * 2 ^ (fExp z - 1 - q), ?_⟩
      rw [mul_assoc, ← pow_add]
      congr 2; omega

/-- Rounding to a natural number: within one half, ties to even. -/
theorem divNearestEven_half (n c : Nat) (hc : 0 < c) :
    2 * |(n : ℤ) - divNearestEven n c * c| ≤ c ∧
      (2 * |(n : ℤ) - divNearestEven n c * c| = c → divNearestEven n c % 2 = 0) := by
  have hd := Nat.div_add_mod n c
  have hr := Nat.mod_lt n hc
  unfold divNearestEven
  generalize n / c = f at *
  generalize n % c = r at *
  have hn : (n : ℤ) = f * c + r := by
    rw [← hd]; push_cast; ring
  split
  · rename_i h
    have e : (n : ℤ) - ((f + 1 : ℕ) : ℤ) * c = -((c : ℤ) - r) := by rw [hn]; push_cast; ring
    rw [e, abs_neg, abs_of_nonneg (by omega)]
    constructor
    · omega
    · intro h2; omega
  · rename_i h
    have e : (n : ℤ) - (f : ℤ) * c = r := by rw [hn]; ring
    rw [e, abs_of_nonneg (by omega)]
    constructor
    · omega
    · intro h2; omega

/-- No integer is nearer than the rounded one, and one as near leaves it even. -/
theorem divNearestEven_nearest (n c : Nat) (hc : 0 < c) (k : ℤ) :
    |(n : ℤ) - divNearestEven n c * c| ≤ |(n : ℤ) - k * c| ∧
      (k ≠ divNearestEven n c → |(n : ℤ) - divNearestEven n c * c| = |(n : ℤ) - k * c| →
        divNearestEven n c % 2 = 0) := by
  obtain ⟨h1, h2⟩ := divNearestEven_half n c hc
  generalize divNearestEven n c = m at *
  by_cases hk : k = m
  · subst hk; exact ⟨le_refl _, fun h => absurd rfl h⟩
  · have hw : (c : ℤ) ≤ |((k : ℤ) - m) * c| := by
      rw [abs_mul, abs_of_nonneg (by omega : (0 : ℤ) ≤ c)]
      have : 1 ≤ |k - (m : ℤ)| := Int.one_le_abs (sub_ne_zero.2 hk)
      nlinarith
    have : (c : ℤ) ≤ |(n : ℤ) - m * c| + |(n : ℤ) - k * c| := by
      calc (c : ℤ) ≤ |((k : ℤ) - m) * c| := hw
        _ = |((n : ℤ) - m * c) - ((n : ℤ) - k * c)| := by congr 1; ring
        _ ≤ _ := abs_sub _ _
    exact ⟨by omega, fun _ he => h2 (by omega)⟩

/-- The quantum leaves 24 significant bits, or is the least. -/
theorem fQuantum_spec (n d : Nat) (hd : 0 < d) :
    n < d * 2 ^ (fQuantum n d + 24) ∧ (fQuantum n d = 0 ∨ d * 2 ^ (fQuantum n d + 23) ≤ n) := by
  unfold fQuantum
  constructor
  · have h : n / d < 2 ^ ((n / d).log2 + 1) := Nat.lt_log2_self
    have h2 : n / d < 2 ^ ((n / d).log2 - 23 + 24) :=
      lt_of_lt_of_le h (Nat.pow_le_pow_right (by norm_num) (by omega))
    rw [Nat.div_lt_iff_lt_mul hd] at h2
    rwa [mul_comm]
  · by_cases h : (n / d).log2 ≤ 23
    · exact .inl (by omega)
    · right
      have h0 : n / d ≠ 0 := by
        intro h0; rw [h0] at h; simp at h
      have h1 : 2 ^ ((n / d).log2 - 23 + 23) ≤ n / d := by
        rw [Nat.sub_add_cancel (by omega)]; exact Nat.log2_self_le h0
      rw [Nat.le_div_iff_mul_le hd] at h1
      rwa [mul_comm]

/-- The significand that rounding gives, in its quantum. -/
theorem significand_spec (n d : Nat) (hd : 0 < d) :
    divNearestEven n (d * 2 ^ fQuantum n d) ≤ 2 ^ 24 ∧
      (fQuantum n d = 0 ∨ 2 ^ 23 ≤ divNearestEven n (d * 2 ^ fQuantum n d)) := by
  obtain ⟨h1, h2⟩ := fQuantum_spec n d hd
  generalize fQuantum n d = q at *
  have hc : 0 < d * 2 ^ q := by positivity
  have e1 : d * 2 ^ (q + 24) = (d * 2 ^ q) * 2 ^ 24 := by ring
  have e2 : d * 2 ^ (q + 23) = (d * 2 ^ q) * 2 ^ 23 := by ring
  rw [e1] at h1; rw [e2] at h2
  have f1 : n / (d * 2 ^ q) < 2 ^ 24 := by rw [Nat.div_lt_iff_lt_mul hc]; rwa [mul_comm]
  have f2 : q = 0 ∨ 2 ^ 23 ≤ n / (d * 2 ^ q) := by
    refine h2.imp_right fun h => ?_
    rw [Nat.le_div_iff_mul_le hc]; rwa [mul_comm]
  unfold divNearestEven
  constructor
  · split <;> omega
  · refine f2.imp_right fun h => ?_
    split <;> omega

/-- The rounding overflows exactly from half a unit above the largest finite number on. -/
theorem fRound_overflow (n d D : Nat) (hd : 0 < d) (hD : D = d * 2 ^ 252) :
    fInfCode ≤ fQuantum n d * 2 ^ 23 + divNearestEven n (d * 2 ^ fQuantum n d) ↔
      (2 ^ 25 - 1) * D ≤ n := by
  obtain ⟨h1, h2⟩ := fQuantum_spec n d hd
  obtain ⟨h3, h4⟩ := significand_spec n d hd
  have hc : 0 < d * 2 ^ fQuantum n d := by positivity
  obtain ⟨h5, h6⟩ := divNearestEven_half n (d * 2 ^ fQuantum n d) hc
  generalize divNearestEven n (d * 2 ^ fQuantum n d) = m at *
  generalize fQuantum n d = q at *
  have hD0 : 0 < D := by rw [hD]; positivity
  have hup : ∀ a b, a ≤ 252 + b → d * 2 ^ a ≤ D * 2 ^ b := fun a b h => by
    rw [hD, mul_assoc, ← pow_add]
    exact Nat.mul_le_mul_left d (Nat.pow_le_pow_right (by norm_num) h)
  have hdown : ∀ a b, 252 + b ≤ a → D * 2 ^ b ≤ d * 2 ^ a := fun a b h => by
    rw [hD, mul_assoc, ← pow_add]
    exact Nat.mul_le_mul_left d (Nat.pow_le_pow_right (by norm_num) h)
  clear hD
  simp only [fInfCode]
  rcases Nat.lt_trichotomy q 253 with hq | hq | hq
  · refine ⟨fun h => by omega, fun h => ?_⟩
    exfalso
    have hle := hup (q + 24) 24 (by omega)
    generalize d * 2 ^ (q + 24) = X at *
    omega
  · have e1 := hup q 1 (by omega)
    have e2 := hdown q 1 (by omega)
    have e : d * 2 ^ q = 2 * D := by omega
    rw [e] at h5 h6
    clear h1 h2 hc e e1 e2 hup hdown
    subst hq
    push_cast at h5 h6
    constructor
    · intro h
      obtain rfl : m = 2 ^ 24 := by omega
      have := neg_abs_le ((n : ℤ) - ((2 ^ 24 : ℕ) : ℤ) * (2 * D))
      push_cast at h5 this
      omega
    · intro h
      by_contra hlt
      have hm : (m : ℤ) ≤ 2 ^ 24 - 1 := by omega
      have hmul : (m : ℤ) * (2 * D) ≤ (2 ^ 24 - 1) * (2 * D) := by
        apply mul_le_mul_of_nonneg_right hm; positivity
      have hab := le_abs_self ((n : ℤ) - m * (2 * D))
      have he : (2 : ℤ) * |(n : ℤ) - m * (2 * D)| = 2 * D := by
        generalize |(n : ℤ) - m * (2 * D)| = A at *
        generalize (m : ℤ) * (2 * D) = B at *
        omega
      have hev := h6 he
      have h7 : (m : ℤ) * (2 * D) = (2 ^ 24 - 1) * (2 * D) := by
        generalize |(n : ℤ) - m * (2 * D)| = A at *
        generalize (m : ℤ) * (2 * D) = B at *
        omega
      have hpos : (0 : ℤ) < 2 * D := by omega
      have := mul_right_cancel₀ hpos.ne' h7
      omega
  · refine ⟨fun _ => ?_, fun _ => by omega⟩
    rcases h2 with h2 | h2
    · omega
    · have hle := hdown (q + 23) 25 (by omega)
      generalize d * 2 ^ (q + 23) = X at *
      omega

/-- The nearest multiple of the quantum is the nearest finite number, on the scale of d units of 2^-149. -/
theorem significand_nearest (n d : Nat) (hd : 0 < d) (W : ℤ) (z : F32) (hW : W.natAbs = fMag z) :
    |(n : ℤ) - divNearestEven n (d * 2 ^ fQuantum n d) * (d * 2 ^ fQuantum n d : ℕ)| ≤ |(n : ℤ) - W * d| ∧
      (W ≠ divNearestEven n (d * 2 ^ fQuantum n d) * 2 ^ fQuantum n d →
        |(n : ℤ) - divNearestEven n (d * 2 ^ fQuantum n d) * (d * 2 ^ fQuantum n d : ℕ)| = |(n : ℤ) - W * d| →
        divNearestEven n (d * 2 ^ fQuantum n d) % 2 = 0) := by
  obtain ⟨_, h2⟩ := fQuantum_spec n d hd
  have hnear := divNearestEven_nearest n (d * 2 ^ fQuantum n d) (by positivity)
  generalize divNearestEven n (d * 2 ^ fQuantum n d) = m at *
  generalize fQuantum n d = q at *
  by_cases hz : q = 0 ∨ 2 ^ (q + 23) ≤ fMag z
  · obtain ⟨k, hk⟩ := fMag_multiple z q hz
    obtain ⟨k', hk'⟩ : ∃ k' : ℤ, W = k' * 2 ^ q := by
      rcases Int.natAbs_eq W with h | h
      · exact ⟨k, by rw [h, hW, hk]; push_cast; ring⟩
      · exact ⟨-k, by rw [h, hW, hk]; push_cast; ring⟩
    have e : W * d = k' * ((d * 2 ^ q : ℕ) : ℤ) := by rw [hk']; push_cast; ring
    rw [e]
    refine ⟨(hnear k').1, fun hne => (hnear k').2 fun hkm => hne ?_⟩
    rw [hk', hkm]
  · push Not at hz
    obtain ⟨hq, hz⟩ := hz
    have h23 := (hnear (2 ^ 23)).1
    have hn : d * 2 ^ (q + 23) ≤ n := h2.resolve_left hq
    have hWlt : W < 2 ^ (q + 23) := by
      have : (W.natAbs : ℤ) < 2 ^ (q + 23) := by rw [hW]; exact_mod_cast hz
      omega
    have hWd : W * d < (d * 2 ^ (q + 23) : ℕ) := by
      push_cast
      rw [mul_comm]
      have : (0 : ℤ) < d := by exact_mod_cast hd
      exact mul_lt_mul_of_pos_left hWlt this
    have e : (2 ^ 23 : ℤ) * ((d * 2 ^ q : ℕ) : ℤ) = (d * 2 ^ (q + 23) : ℕ) := by push_cast; ring
    rw [e, abs_of_nonneg (by omega : (0 : ℤ) ≤ n - (d * 2 ^ (q + 23) : ℕ))] at h23
    have hlt : |(n : ℤ) - m * (d * 2 ^ q : ℕ)| < |(n : ℤ) - W * d| :=
      lt_of_le_of_lt h23 (lt_of_lt_of_le (by omega) (le_abs_self _))
    exact ⟨hlt.le, fun _ h => absurd h hlt.ne⟩

/-- fRound rounds a magnitude n/d, in units of 2^-149, to the nearest number, ties to even (00_scope.md R10). -/
theorem fRound_roundsTo (neg : Bool) (n d : Nat) (hd : 0 < d) :
    RoundsTo ((if neg then -1 else 1) * ((n : ℚ) / d / 2 ^ 149)) (fRound neg n d) := by
  have hov := fRound_overflow n d _ hd rfl
  have hdq : (0 : ℚ) < d := by exact_mod_cast hd
  have habs : |(if neg then -1 else 1 : ℚ) * ((n : ℚ) / d / 2 ^ 149)| = (n : ℚ) / d / 2 ^ 149 := by
    rw [abs_mul, abs_of_nonneg (by positivity : (0 : ℚ) ≤ (n : ℚ) / d / 2 ^ 149)]
    cases neg <;> simp
  have hb : overflowBound ≤ (n : ℚ) / d / 2 ^ 149 ↔ (2 ^ 25 - 1) * (d * 2 ^ 252) ≤ n := by
    rw [overflowBound, le_div_iff₀ (by positivity), le_div_iff₀ hdq]
    rw [show ((2 : ℚ) ^ 25 - 1) * 2 ^ 103 * 2 ^ 149 * d = (((2 ^ 25 - 1) * (d * 2 ^ 252) : ℕ) : ℚ) by push_cast; ring]
    exact_mod_cast Iff.rfl
  constructor
  · intro hlt
    rw [habs, ← not_le, hb, ← hov, not_le] at hlt
    obtain ⟨h1, h2⟩ := fQuantum_spec n d hd
    obtain ⟨h3, h4⟩ := significand_spec n d hd
    have hc : 0 < d * 2 ^ fQuantum n d := by positivity
    have hnear := divNearestEven_nearest n (d * 2 ^ fQuantum n d) hc
    have hmag := fMag_fPack neg (fQuantum n d) _ h3 h4 hlt
    have hfrac := fFrac_fPack neg (fQuantum n d * 2 ^ 23 + divNearestEven n (d * 2 ^ fQuantum n d))
    have hexp := fExp_fPack neg (fQuantum n d * 2 ^ 23 + divNearestEven n (d * 2 ^ fQuantum n d))
    rw [Nat.min_eq_left hlt.le] at hfrac hexp
    have hfin : fIsFinite (fRound neg n d) = true := by
      rw [fIsFinite, fRound, hexp]
      simp only [fInfCode] at hlt
      simp only [bne_iff_ne]; omega
    refine ⟨hfin, ?_⟩
    have hval : fRat (fRound neg n d) = (if neg then -1 else 1) *
        ((divNearestEven n (d * 2 ^ fQuantum n d) : ℚ) * 2 ^ fQuantum n d / 2 ^ 149) := by
      rw [fRat, fInt, fRound, fSign_fPack, hmag]
      cases neg <;> simp
      ring
    have hfr : fFrac (fRound neg n d) % 2 = divNearestEven n (d * 2 ^ fQuantum n d) % 2 := by
      rw [fRound, hfrac]; omega
    intro z hz
    rw [hval, hfr]
    have hW : ((if neg then -1 else 1 : ℤ) * fInt z).natAbs = fMag z := by
      rw [fInt]; cases neg <;> cases fSign z <;> simp
    have hsig := significand_nearest n d hd _ z hW
    have hscale : ∀ (a : ℤ) (r : ℚ), r = (if neg then -1 else 1) * ((a : ℚ) / d / 2 ^ 149) →
        |r - (if neg then -1 else 1) * ((n : ℚ) / d / 2 ^ 149)| = ((|(n : ℤ) - a| : ℤ) : ℚ) / (d * 2 ^ 149) := by
      intro a r hr
      have e : r - (if neg then -1 else 1) * ((n : ℚ) / d / 2 ^ 149) =
          (if neg then 1 else -1) * (((n : ℤ) - a : ℤ) / (d * 2 ^ 149)) := by
        rw [hr]; push_cast; cases neg <;> simp <;> field_simp <;> ring
      rw [e, abs_mul, abs_div, abs_of_pos (show (0 : ℚ) < d * 2 ^ 149 by positivity), Int.cast_abs]
      cases neg <;> simp
    have hv := hscale (divNearestEven n (d * 2 ^ fQuantum n d) * (d * 2 ^ fQuantum n d : ℕ))
      ((if neg then -1 else 1) * ((divNearestEven n (d * 2 ^ fQuantum n d) : ℚ) * 2 ^ fQuantum n d / 2 ^ 149))
      (by push_cast; field_simp)
    have hzv := hscale ((if neg then -1 else 1 : ℤ) * fInt z * d) (fRat z)
      (by rw [fRat]; push_cast; cases neg <;> simp <;> field_simp)
    rw [hv, hzv, div_le_div_iff_of_pos_right (by positivity), div_left_inj' (by positivity)]
    refine ⟨by exact_mod_cast hsig.1, fun hne he => hsig.2 (fun hWe => hne ?_) (by exact_mod_cast he)⟩
    have hWq := congrArg (Int.cast : ℤ → ℚ) hWe
    push_cast at hWq
    rw [← hWq, fRat]
    cases neg <;> simp [neg_div]
  · intro hge
    rw [habs, hb] at hge
    have : 0 < n := by
      have : 0 < (2 ^ 25 - 1) * (d * 2 ^ 252) := by positivity
      omega
    have hpos : (0 : ℚ) < (n : ℚ) / d / 2 ^ 149 := by positivity
    have hs : decide ((if neg then -1 else 1 : ℚ) * ((n : ℚ) / d / 2 ^ 149) < 0) = neg := by
      cases neg
      · simp; exact hpos.le
      · simp; positivity
    rw [hs, fRound, fInf, fPack, fPack, Nat.min_eq_right (hov.2 hge), Nat.min_self]

end Sys2Proof.Machine
end

