-- ==== Sys2Proof/Machine/ReferenceExponential.lean ====
section
/-! DEFINITION. FEXP_CR, the reference configuration of the exponential (40_coefficient_solver.md R77), in which the spec
gives its numeric vectors. -/

namespace Sys2Proof.Machine

/-- Working precision of the reference exponential, in bits (log 13). -/
def expPrecision : Nat := 256

/-- How many terms of the series the reference exponential sums (log 13). -/
def expTerms : Nat := 100

/-- The sum of `fuel` terms of the series of e^y from term k on, in units of 2^-expPrecision, for y = m * 2^-149;
`term` is term k. -/
def expSeries (m fuel k term : Nat) : Nat :=
  match fuel with
  | 0 => 0
  | f + 1 => term + expSeries m f (k + 1) (term * m / ((k + 1) * 2 ^ 149))

/-- e^|x| in units of 2^-expPrecision. -/
def expSum (x : F32) : Nat := expSeries (fMag x) expTerms 0 (2 ^ expPrecision)

/-- FEXP_CR, the reference configuration of R77, for x <= 0 no less than -8: e^x = 1 / e^|x|, with e^|x| summed to 256 bits
and the quotient rounded once. It meets the laws of R77 (`fexpCR_laws`); that it is correctly rounded everywhere is
presumed (log 13). Used by this model's tests of the spec's numeric vectors, and as the proof that an exponential exists. -/
def fexpCR (x : F32) : F32 :=
  if fIsZero x then fOne
  else fRound false (2 ^ 149 * 2 ^ expPrecision) (expSum x)

end Sys2Proof.Machine
end

