-- ==== Sys2Proof/Laws/Exponential.lean ====
section
/-! SUPPORT. The reference exponential FEXP_CR meets the laws of FEXP (40_coefficient_solver.md R77), so that there is an
exponential that does: the series is close to e^|x| and grows with |x|, and rounding keeps order and distance. -/

namespace Sys2Proof.Machine

/-! ### The series -/

/-- A quotient of natural numbers is less than one above its whole part. -/
theorem lt_div_add_one (a b : ℕ) : (a : ℝ) / b < ((a / b : ℕ) : ℝ) + 1 := by
  rw [← Nat.floor_div_eq_div (K := ℝ)]; exact Nat.lt_floor_add_one _

/-- The first term and the rest. -/
theorem expSeries_succ (m fuel k t : Nat) :
    expSeries m (fuel + 1) k t = t + expSeries m fuel (k + 1) (t * m / ((k + 1) * 2 ^ 149)) := rfl

/-- The series grows with the argument and with its first term. -/
theorem expSeries_mono {m m' : Nat} (hm : m ≤ m') :
    ∀ (fuel k : Nat) {t t' : Nat}, t ≤ t' → expSeries m fuel k t ≤ expSeries m' fuel k t'
  | 0, _, _, _, _ => le_rfl
  | fuel + 1, k, t, t', ht => by
    have h : t * m / ((k + 1) * 2 ^ 149) ≤ t' * m' / ((k + 1) * 2 ^ 149) := by gcongr
    exact Nat.add_le_add ht (expSeries_mono hm fuel (k + 1) h)

/-- A sum of at least one term is at least its first. -/
theorem le_expSeries (m fuel k t : Nat) : t ≤ expSeries m (fuel + 1) k t := Nat.le_add_right _ _

/-- How much an error in term k can grow in the sum of the terms from k on, for an argument of at most 7. -/
theorem expSeries_growth {y : ℝ} (hy7 : y ≤ 7) (k : Nat) :
    1 + y / (k + 1) * (2 * 8 ^ (13 - (k + 1)) : ℝ) ≤ 2 * 8 ^ (13 - k) := by
  by_cases hk : k < 13
  · have h1 : y / (k + 1) ≤ 7 := by
      rw [div_le_iff₀ (by positivity)]
      nlinarith [(Nat.cast_nonneg k : (0 : ℝ) ≤ k)]
    have h2 : (1 : ℝ) ≤ 8 ^ (13 - (k + 1)) := one_le_pow₀ (by norm_num)
    rw [show 13 - k = 13 - (k + 1) + 1 by omega, pow_succ]
    nlinarith
  · have h1 : y / (k + 1) ≤ 1 / 2 := by
      have hk' : (13 : ℝ) ≤ k := by exact_mod_cast not_lt.1 hk
      rw [div_le_iff₀ (by positivity)]
      linarith
    rw [show 13 - k = 0 by omega, show 13 - (k + 1) = 0 by omega]
    linarith

/-- The series stays below the exact sum of its terms `c*y^j/j!`, by no more than the error of its first term and one unit
a term, each grown by what `expSeries_growth` allows. -/
theorem expSeries_close {m : Nat} {y c : ℝ} (hy : y = m / 2 ^ 149) (hy7 : y ≤ 7) :
    ∀ (fuel k t : Nat), (t : ℝ) ≤ c * y ^ k / k.factorial →
      (expSeries m fuel k t : ℝ) ≤ ∑ j ∈ Finset.range fuel, c * y ^ (k + j) / (k + j).factorial ∧
      (∑ j ∈ Finset.range fuel, c * y ^ (k + j) / (k + j).factorial) - expSeries m fuel k t ≤
        (c * y ^ k / k.factorial - t + fuel) * (2 * 8 ^ (13 - k)) := by
  have hy0 : 0 ≤ y := hy ▸ by positivity
  intro fuel
  induction fuel with
  | zero =>
    intro k t ht
    have : 0 ≤ (c * y ^ k / k.factorial - t) * (2 * 8 ^ (13 - k) : ℝ) := mul_nonneg (sub_nonneg.2 ht) (by positivity)
    simpa [expSeries] using this
  | succ fuel ih =>
    intro k t ht
    set e := c * y ^ k / k.factorial
    set t' := t * m / ((k + 1) * 2 ^ 149)
    have hk : (0 : ℝ) < k + 1 := by positivity
    have hnext : c * y ^ (k + 1) / (k + 1).factorial = e * (y / (k + 1)) := by
      simp only [e, Nat.factorial_succ]; push_cast; field_simp; ring
    have hq : (t : ℝ) * (y / (k + 1)) = ((t * m : ℕ) : ℝ) / (((k + 1) * 2 ^ 149 : ℕ) : ℝ) := by
      rw [hy]; push_cast; field_simp; norm_num
    have hlo : (t' : ℝ) ≤ t * (y / (k + 1)) := hq ▸ Nat.cast_div_le
    have hhi : t * (y / (k + 1)) < t' + 1 := by
      rw [hq]; exact lt_div_add_one _ _
    have hratio : 0 ≤ y / (k + 1) := by positivity
    have hle : (t' : ℝ) ≤ c * y ^ (k + 1) / (k + 1).factorial := by
      rw [hnext]; exact hlo.trans (mul_le_mul_of_nonneg_right ht hratio)
    obtain ⟨h1, h2⟩ := ih (k + 1) t' hle
    rw [hnext] at h2
    have hsum : (∑ j ∈ Finset.range (fuel + 1), c * y ^ (k + j) / (k + j).factorial) =
        e + ∑ j ∈ Finset.range fuel, c * y ^ (k + 1 + j) / (k + 1 + j).factorial := by
      rw [Finset.sum_range_succ', add_comm]
      exact congrArg (e + ·) (Finset.sum_congr rfl fun j _ => by rw [show k + (j + 1) = k + 1 + j by omega])
    have hser : (expSeries m (fuel + 1) k t : ℝ) = t + expSeries m fuel (k + 1) t' := by
      rw [expSeries_succ, Nat.cast_add]
    rw [hsum, hser]
    refine ⟨add_le_add ht h1, ?_⟩
    have hg := expSeries_growth hy7 k
    have hA : (2 * 8 ^ (13 - (k + 1)) : ℝ) ≤ 2 * 8 ^ (13 - k) := by
      gcongr
      · norm_num
      · omega
    have hd : 0 ≤ e - t := sub_nonneg.2 ht
    have hstep : (e * (y / (k + 1)) - t' + fuel) * (2 * 8 ^ (13 - (k + 1)) : ℝ) ≤
        ((e - t) * (y / (k + 1)) + 1 + fuel) * (2 * 8 ^ (13 - (k + 1))) := by
      gcongr
      nlinarith
    have hgrow := mul_le_mul_of_nonneg_left hg hd
    have hone : (1 + fuel : ℝ) * (2 * 8 ^ (13 - (k + 1))) ≤ (1 + fuel) * (2 * 8 ^ (13 - k)) := by gcongr
    push_cast
    nlinarith

/-- The first hundred terms of e^y give it to 100 bits, for y from 0 to 7. -/
theorem exp_partial_sum {y : ℝ} (h0 : 0 ≤ y) (h7 : y ≤ 7) :
    |Real.exp y - ∑ j ∈ Finset.range 100, y ^ j / j.factorial| ≤ 1 / 2 ^ 100 := by
  have hn : ‖(y : ℂ)‖ = y := by rw [Complex.norm_real, Real.norm_of_nonneg h0]
  have h := Complex.exp_bound' (x := (y : ℂ)) (n := 100) (by rw [hn, div_le_iff₀ (by positivity)]; norm_num; linarith)
  rw [hn] at h
  have e : Complex.exp y - ∑ j ∈ Finset.range 100, (y : ℂ) ^ j / j.factorial =
      ((Real.exp y - ∑ j ∈ Finset.range 100, y ^ j / j.factorial : ℝ) : ℂ) := by push_cast; rfl
  rw [e, Complex.norm_real, Real.norm_eq_abs] at h
  refine h.trans ?_
  calc y ^ 100 / (Nat.factorial 100 : ℝ) * 2 ≤ 7 ^ 100 / (Nat.factorial 100 : ℝ) * 2 := by gcongr
    _ ≤ 1 / 2 ^ 100 := by
      rw [div_mul_eq_mul_div, div_le_div_iff₀ (by positivity) (by positivity)]
      exact_mod_cast (by decide +kernel : 7 ^ 100 * 2 * 2 ^ 100 ≤ 1 * Nat.factorial 100)

/-- The whole series of FEXP_CR, in units of 2^-256, gives e^y to 99 bits. -/
theorem expSeries_accurate {m : Nat} {y : ℝ} (hy : y = m / 2 ^ 149) (hy7 : y ≤ 7) :
    |(expSeries m expTerms 0 (2 ^ expPrecision) : ℝ) / 2 ^ 256 - Real.exp y| ≤ 1 / 2 ^ 99 := by
  have hy0 : 0 ≤ y := hy ▸ by positivity
  obtain ⟨h1, h2⟩ := expSeries_close (c := 2 ^ 256) hy hy7 expTerms 0 (2 ^ expPrecision) (by norm_num [expPrecision])
  have h3 := exp_partial_sum hy0 hy7
  have hs : (∑ j ∈ Finset.range expTerms, (2 : ℝ) ^ 256 * y ^ (0 + j) / (0 + j).factorial) =
      2 ^ 256 * ∑ j ∈ Finset.range 100, y ^ j / j.factorial := by
    rw [Finset.mul_sum]; simp only [expTerms, Nat.zero_add, mul_div_assoc]
  rw [hs] at h1 h2
  set S : ℝ := (expSeries m expTerms 0 (2 ^ expPrecision) : ℝ)
  set R : ℝ := ∑ j ∈ Finset.range 100, y ^ j / j.factorial
  have h2' : 2 ^ 256 * R - S ≤ 2 ^ 150 := by
    refine h2.trans ?_
    simp only [expPrecision, expTerms]
    norm_num
  have hS : |S / 2 ^ 256 - R| ≤ 1 / 2 ^ 100 := by
    rw [abs_le]
    constructor
    · rw [neg_le_sub_iff_le_add, ← sub_le_iff_le_add, le_div_iff₀ (by positivity)]
      linarith
    · rw [sub_le_iff_le_add, div_le_iff₀ (by positivity)]
      linarith
  calc |S / 2 ^ 256 - Real.exp y| ≤ |S / 2 ^ 256 - R| + |R - Real.exp y| := abs_sub_le _ _ _
    _ ≤ 1 / 2 ^ 100 + 1 / 2 ^ 100 := add_le_add hS (by rwa [abs_sub_comm])
    _ = 1 / 2 ^ 99 := by norm_num

/-! ### The argument and the grid of binary32 -/

/-- An argument of the laws is minus its magnitude. -/
theorem fInt_of_fexpArgument {x : F32} (hx : fexpArgument x) : fInt x = -(fMag x : ℤ) := by
  have h := hx.2.2
  unfold fInt at *
  split at h <;> rename_i hs <;> simp [hs] at *
  omega

/-- The magnitude of an argument of the laws, as a real number, and its bound. -/
theorem fexpArgument_magnitude {x : F32} (hx : fexpArgument x) :
    ((fRat x : ℚ) : ℝ) = -((fMag x : ℝ) / 2 ^ 149) ∧ (fMag x : ℝ) / 2 ^ 149 ≤ 7 := by
  have hi := fInt_of_fexpArgument hx
  have hk : -(7 * 2 ^ 149) ≤ fInt 0xC0D8D412#32 := by decide +kernel
  have hm : fMag x ≤ 7 * 2 ^ 149 := by have := hx.2.1; omega
  constructor
  · rw [fRat, hi]; push_cast; ring
  · rw [div_le_iff₀ (by positivity)]; exact_mod_cast hm

/-- The binade of e^x for an argument x of the laws. -/
theorem exp_binade {x : ℝ} (h7 : -7 ≤ x) (h0 : x ≤ 0) :
    -20 ≤ Int.log 2 (Real.exp x) ∧ Int.log 2 (Real.exp x) ≤ 0 := by
  constructor
  · rw [← Int.zpow_le_iff_le_log (by norm_num) (Real.exp_pos _)]
    refine le_trans ?_ (Real.exp_le_exp.2 h7)
    have h3 : Real.exp 7 ≤ 2 ^ 20 := by
      rw [show Real.exp 7 = Real.exp 1 ^ 7 by rw [← Real.exp_nat_mul]; norm_num]
      calc Real.exp 1 ^ 7 ≤ 2.7182818286 ^ 7 := by gcongr; exact Real.exp_one_lt_d9.le
        _ ≤ 2 ^ 20 := by norm_num
    rw [Real.exp_neg, zpow_neg]
    gcongr
    simpa using h3
  · have h3 : Real.exp x < (2 : ℝ) ^ (1 : ℤ) := lt_of_le_of_lt (Real.exp_le_one_iff.2 h0) (by norm_num)
    have := (Int.lt_zpow_iff_log_lt (b := 2) (x := 1) (by norm_num) (Real.exp_pos x)).1 (by simpa using h3)
    omega

/-- A real number in a binade from 2^-20 to 1 has a binary32 number within half a unit in the last place. -/
theorem exists_near {v : ℝ} (hv : 0 < v) (hlo : -20 ≤ Int.log 2 v) (hhi : Int.log 2 v ≤ 0) :
    ∃ z : F32, fIsFinite z = true ∧ |((fRat z : ℚ) : ℝ) - v| ≤ (2 : ℝ) ^ (Int.log 2 v - 23) / 2 := by
  set L := Int.log 2 v
  set u := v * (2 : ℝ) ^ (23 - L)
  have hscale : ∀ a : ℤ, (2 : ℝ) ^ a * (2 : ℝ) ^ (23 - L) = (2 : ℝ) ^ (a + (23 - L)) := fun a =>
    (zpow_add₀ (by norm_num) _ _).symm
  have hulo : (2 : ℝ) ^ 23 ≤ u := by
    have := mul_le_mul_of_nonneg_right (Int.zpow_log_le_self (b := 2) (r := v) (by norm_num) hv)
      (by positivity : (0 : ℝ) ≤ 2 ^ (23 - L))
    push_cast at this
    rw [hscale, show L + (23 - L) = (23 : ℕ) by omega, zpow_natCast] at this
    exact this
  have huhi : u < (2 : ℝ) ^ 24 := by
    have := mul_lt_mul_of_pos_right (Int.lt_zpow_succ_log_self (b := 2) (by norm_num) v)
      (by positivity : (0 : ℝ) < 2 ^ (23 - L))
    push_cast at this
    rw [hscale, show L + 1 + (23 - L) = (24 : ℕ) by push_cast; omega, zpow_natCast] at this
    exact this
  set M := ⌊u + 1 / 2⌋₊
  have hMlo : 2 ^ 23 ≤ M := Nat.le_floor (by push_cast; linarith)
  have hMhi : M ≤ 2 ^ 24 := by
    have : M < 2 ^ 24 + 1 := by rw [Nat.floor_lt (by linarith)]; push_cast; linarith
    omega
  have hcode : (L + 126).toNat * 2 ^ 23 + M < fInfCode := by simp only [fInfCode]; omega
  refine ⟨fPack false ((L + 126).toNat * 2 ^ 23 + M), ?_, ?_⟩
  · rw [fIsFinite, fExp_fPack, Nat.min_eq_left hcode.le]
    simp only [bne_iff_ne]
    omega
  · have hmag := fMag_fPack false _ _ hMhi (.inr hMlo) hcode
    have hval : ((fRat (fPack false ((L + 126).toNat * 2 ^ 23 + M)) : ℚ) : ℝ) = M * (2 : ℝ) ^ (L - 23) := by
      rw [fRat, fInt, fSign_fPack, hmag]
      have e : (2 : ℝ) ^ (L - 23) = 2 ^ (L + 126).toNat / 2 ^ 149 := by
        rw [← zpow_natCast, ← zpow_natCast, ← zpow_sub₀ (by norm_num), Int.toNat_of_nonneg (by omega)]
        congr 1; push_cast; ring
      rw [e]; push_cast; ring
    have hv' : v = u * (2 : ℝ) ^ (L - 23) := by
      rw [mul_assoc, ← zpow_add₀ (by norm_num)]; simp
    have h1 : (M : ℝ) ≤ u + 1 / 2 := Nat.floor_le (by linarith)
    have h2 : u + 1 / 2 < M + 1 := Nat.lt_floor_add_one _
    have hp : (0 : ℝ) < (2 : ℝ) ^ (L - 23) := by positivity
    rw [hval, hv', ← sub_mul, abs_mul, abs_of_pos hp, div_eq_inv_mul]
    refine mul_le_mul_of_nonneg_right ?_ hp.le
    rw [abs_le]
    constructor <;> linarith

/-! ### The laws -/

/-- Rounding keeps order, where equal numbers are rounded to equal words. -/
theorem roundsTo_mono {p q : ℚ} {a b : F32} (ha : RoundsTo p a) (hb : RoundsTo q b) (hp : |p| < overflowBound)
    (hq : |q| < overflowBound) (hpq : p ≤ q) (he : p = q → a = b) : fRat a ≤ fRat b := by
  obtain ⟨fa, na⟩ := ha.1 hp
  obtain ⟨fb, nb⟩ := hb.1 hq
  have h1 := (na b fb).1
  have h2 := (nb a fa).1
  by_contra hlt
  rw [not_le] at hlt
  have h3 : (fRat a - p) ^ 2 ≤ (fRat b - p) ^ 2 := sq_le_sq.2 h1
  have h4 : (fRat b - q) ^ 2 ≤ (fRat a - q) ^ 2 := sq_le_sq.2 h2
  have h5 : p = q := by
    by_contra hne
    have : p < q := lt_of_le_of_ne hpq hne
    nlinarith
  rw [he h5] at hlt
  exact lt_irrefl _ hlt

/-- e^|x| is at least 1. -/
theorem le_expSum (x : F32) : 2 ^ 256 ≤ expSum x := le_expSeries _ 99 0 _

/-- The same, of the number as a rational or a real. -/
theorem le_expSum_cast {R : Type} [Field R] [LinearOrder R] [IsStrictOrderedRing R] (x : F32) :
    (2 : R) ^ 256 ≤ expSum x := by
  have h := (Nat.cast_le (α := R)).2 (le_expSum x)
  rwa [Nat.cast_pow, Nat.cast_ofNat] at h

/-- The quotient that FEXP_CR rounds. -/
def expQuotient (x : F32) : ℚ := 2 ^ 256 / expSum x

/-- The sum at ±0 is 1, and rounding its quotient gives 1.0: law L1 is no special case. -/
theorem fexpCR_eq (x : F32) : fexpCR x = fRound false (2 ^ 149 * 2 ^ expPrecision) (expSum x) := by
  unfold fexpCR
  split
  · rename_i hz
    rw [expSum, (fIsZero_iff_mag x).1 hz]
    decide +kernel
  · rfl

/-- FEXP_CR rounds its quotient. -/
theorem fexpCR_roundsTo (x : F32) : RoundsTo (expQuotient x) (fexpCR x) := by
  have hpos : 0 < expSum x := lt_of_lt_of_le (by positivity) (le_expSum x)
  have h := fRound_roundsTo false (2 ^ 149 * 2 ^ expPrecision) (expSum x) hpos
  rw [← fexpCR_eq] at h
  have e : (if false then -1 else 1 : ℚ) * (((2 ^ 149 * 2 ^ expPrecision : ℕ) : ℚ) / (expSum x : ℕ) / 2 ^ 149) =
      expQuotient x := by
    have : (expSum x : ℚ) ≠ 0 := by exact_mod_cast hpos.ne'
    rw [expQuotient, expPrecision, Nat.cast_mul, Nat.cast_pow, Nat.cast_pow, Nat.cast_ofNat]
    rw [if_neg (by decide), one_mul, div_div, mul_comm, mul_div_mul_right _ _ (by positivity)]
  rwa [e] at h

/-- The quotient is between 0 and 1, so it is rounded to a number. -/
theorem expQuotient_bounds (x : F32) : 0 < expQuotient x ∧ |expQuotient x| < overflowBound := by
  have hr := le_expSum_cast (R := ℚ) x
  have hp : (0 : ℚ) < expSum x := lt_of_lt_of_le (pow_pos two_pos 256) hr
  have h0 : 0 < expQuotient x := div_pos (pow_pos two_pos 256) hp
  refine ⟨h0, ?_⟩
  have h1 : expQuotient x ≤ 1 := (div_le_one hp).2 hr
  rw [abs_of_pos h0, overflowBound]
  exact lt_of_le_of_lt h1 (by norm_num)

/-- The quotient is close to e^x. -/
theorem expQuotient_accurate {x : F32} (hx : fexpArgument x) :
    |((expQuotient x : ℚ) : ℝ) - Real.exp ((fRat x : ℚ) : ℝ)| ≤ 1 / 2 ^ 99 := by
  obtain ⟨hr, h7⟩ := fexpArgument_magnitude hx
  have hacc := expSeries_accurate rfl h7
  rw [← expSum] at hacc
  rw [hr, Real.exp_neg, show ((expQuotient x : ℚ) : ℝ) = 2 ^ 256 / (expSum x : ℝ) by rw [expQuotient]; push_cast; rfl]
  set S : ℝ := (expSum x : ℝ)
  set E := Real.exp ((fMag x : ℝ) / 2 ^ 149)
  have hE : 1 ≤ E := Real.one_le_exp (by positivity)
  have hS' : (2 : ℝ) ^ 256 ≤ S := le_expSum_cast x
  have hE0 : 0 < E := by linarith
  have hS0 : 0 < S := lt_of_lt_of_le (pow_pos two_pos 256) hS'
  have hr0 : 0 < 2 ^ 256 / S := div_pos (pow_pos two_pos 256) hS0
  have e : 2 ^ 256 / S - E⁻¹ = (E - S / 2 ^ 256) * (2 ^ 256 / S * E⁻¹) := by field_simp
  rw [e, abs_mul, abs_sub_comm]
  have hq : |2 ^ 256 / S * E⁻¹| ≤ 1 := by
    rw [abs_of_pos (mul_pos hr0 (inv_pos.2 hE0))]
    exact mul_le_one₀ ((div_le_one hS0).2 hS') (inv_pos.2 hE0).le (inv_le_one_of_one_le₀ hE)
  calc _ ≤ |S / 2 ^ 256 - E| * 1 := by gcongr
    _ ≤ _ := by rw [mul_one]; exact hacc

/-- FEXP_CR meets laws L1, L2 and L3 of R77. -/
theorem fexpCR_laws : FexpLaws fexpCR := by
  have near : ∀ x, fexpArgument x → |((fRat (fexpCR x) : ℚ) : ℝ) - Real.exp ((fRat x : ℚ) : ℝ)| ≤
      (2 : ℝ) ^ (Int.log 2 (Real.exp ((fRat x : ℚ) : ℝ)) - 23) := by
    intro x hx
    obtain ⟨hr, h7⟩ := fexpArgument_magnitude hx
    have hm : (0 : ℝ) ≤ (fMag x : ℝ) / 2 ^ 149 := by positivity
    obtain ⟨hlo, hhi⟩ := exp_binade (x := ((fRat x : ℚ) : ℝ)) (by rw [hr]; linarith) (by rw [hr]; linarith)
    obtain ⟨z, hz, hnear⟩ := exists_near (Real.exp_pos _) hlo hhi
    have hround := (((fexpCR_roundsTo x).1 (expQuotient_bounds x).2).2 z hz).1
    have hround' : |((fRat (fexpCR x) : ℚ) : ℝ) - ((expQuotient x : ℚ) : ℝ)| ≤
        |((fRat z : ℚ) : ℝ) - ((expQuotient x : ℚ) : ℝ)| := by exact_mod_cast hround
    have hacc := expQuotient_accurate hx
    set E := Real.exp ((fRat x : ℚ) : ℝ)
    set L := Int.log 2 E
    have hulp : (1 : ℝ) / 2 ^ 43 ≤ (2 : ℝ) ^ (L - 23) := by
      rw [show (1 : ℝ) / 2 ^ 43 = (2 : ℝ) ^ (-43 : ℤ) by norm_num]
      exact zpow_le_zpow_right₀ (by norm_num) (by omega)
    have h1 := abs_sub_le ((fRat (fexpCR x) : ℚ) : ℝ) ((expQuotient x : ℚ) : ℝ) E
    have h2 := abs_sub_le ((fRat z : ℚ) : ℝ) E ((expQuotient x : ℚ) : ℝ)
    rw [abs_sub_comm E] at h2
    have h3 : (1 : ℝ) / 2 ^ 99 ≤ 1 / 2 ^ 43 / 4 := by norm_num
    linarith
  have finite : ∀ x, fIsFinite (fexpCR x) = true := fun x => ((fexpCR_roundsTo x).1 (expQuotient_bounds x).2).1
  refine ⟨by decide +kernel, ?_, near, ?_⟩
  · intro x hx
    refine ⟨finite x, ?_⟩
    have h := near x hx
    have hL := Int.zpow_log_le_self (b := 2) (r := Real.exp ((fRat x : ℚ) : ℝ)) (by norm_num) (Real.exp_pos _)
    set E := Real.exp ((fRat x : ℚ) : ℝ)
    set L := Int.log 2 E
    have hlt : (2 : ℝ) ^ (L - 23) < (2 : ℝ) ^ L := zpow_lt_zpow_right₀ (by norm_num) (by omega)
    push_cast at hL
    have hpos : (0 : ℝ) < ((fRat (fexpCR x) : ℚ) : ℝ) := by
      have := (abs_le.1 h).1
      linarith
    have hpos' : (0 : ℚ) < fRat (fexpCR x) := by exact_mod_cast hpos
    rw [fRat] at hpos'
    exact_mod_cast (div_pos_iff_of_pos_right (by positivity)).1 hpos'
  · intro x y hx hy hxy
    have hm : fMag y ≤ fMag x := by
      have := fInt_of_fexpArgument hx
      have := fInt_of_fexpArgument hy
      omega
    have hS : expSum y ≤ expSum x := expSeries_mono hm _ _ le_rfl
    have hpos : ∀ w, (0 : ℚ) < expSum w := fun w => lt_of_lt_of_le (pow_pos two_pos 256) (le_expSum_cast w)
    have hle : expQuotient x ≤ expQuotient y := by
      rw [expQuotient, expQuotient]
      exact div_le_div_of_nonneg_left (pow_pos two_pos 256).le (hpos y) (Nat.cast_le.2 hS)
    have heq : expQuotient x = expQuotient y → fexpCR x = fexpCR y := by
      intro h
      have h' : (expSum y : ℚ) = expSum x := by
        rw [expQuotient, expQuotient, div_eq_div_iff (hpos x).ne' (hpos y).ne'] at h
        exact mul_left_cancel₀ (pow_ne_zero 256 two_ne_zero) h
      rw [fexpCR_eq, fexpCR_eq, show expSum x = expSum y by exact_mod_cast h'.symm]
    have h := roundsTo_mono (fexpCR_roundsTo x) (fexpCR_roundsTo y) (expQuotient_bounds x).2 (expQuotient_bounds y).2 hle heq
    rw [fRat, fRat, div_le_div_iff_of_pos_right (by positivity)] at h
    exact_mod_cast h

end Sys2Proof.Machine
end

