-- ==== Sys2Proof/Config.lean ====
section
/-! DEFINITION. The implementation parameters of 00_scope.md R6, the fixed constants of the block, and the free values.

A parameter that R6 leaves OPEN is built on an opaque constant with no body, so that nothing can be proved of its value
beyond the range R6 states, and every value in that range is taken by some value of the opaque constant. -/

namespace Sys2Proof.Config

/-- ID reads 0x49495231 at all times (10_state.md R19). -/
def idValue : Word := 0x49495231#32

/-- CAP.VERSION, the command-set version IIRF-1 (10_state.md R20). -/
def capVersion : BitVec 8 := 0x01#8

/-- E0, the binary32 value of exp(0.726²), a constant of the hardware (40_coefficient_solver.md R76). -/
def e0 : F32 := 0x3FD8D412#32

/-- Largest legal WIDTH or HEIGHT (R6: DIM_MAX, the 16-bit fields). -/
def dimMax : Nat := 65535

/-- The number of byte addresses of system memory, and the bound of every address check (R6: ADDR_WIDTH = 32;
20_memory.md R48). -/
def addressLimit : Nat := 2 ^ 32

/-- FREE: how far MAX_CHANNELS lies above its smallest legal value. -/
opaque channelsAboveMin : Nat

/-- MAX_CHANNELS, OPEN in R6: 4 <= MAX_CHANNELS <= 255. -/
def maxChannels : Nat := min 255 (4 + channelsAboveMin)

/-- FREE: how far WORK_WORDS lies above its smallest legal value. -/
opaque wordsAboveMin : Nat

/-- WORK_WORDS, OPEN in R6: 2*MAX_CHANNELS <= WORK_WORDS <= 2^32 - 1. -/
def workWords : Nat := min (2 ^ 32 - 1) (2 * maxChannels + wordsAboveMin)

/-- FREE: which 128-byte window of the host's address map holds the register block. -/
opaque regWindow : BitVec 25

/-- REG_BASE, OPEN in R6: a multiple of 0x80 in the host's 32-bit address map. No rule of the block depends on it; the
host's register accesses are given by their offset from it (10_state.md R17). -/
def regBase : Nat := 0x80 * regWindow.toNat

/-- An exponential that meets laws L1 to L3 of 40_coefficient_solver.md R77. (The values given for the fields show that
there is one, which the opaque constant below needs to exist; they fix nothing of it.) -/
structure Exponential where
  apply : F32 → F32 := Machine.fexpCR
  laws : Machine.FexpLaws apply := by exact Machine.fexpCR_laws
deriving Inhabited

/-- FREE: the exponential of SOLVE (R6: FEXP, OPEN, "with the laws of rule R77"). Nothing can be proved of it but those
laws; `Sys2Proof.Machine.fexp` is the primitive the rules use. -/
opaque exponential : Exponential

/-- FREE: the word that memory holds after the n-th failed write: "unspecified (any 32-bit value)" (20_memory.md R53). -/
opaque failedWriteWord : Nat → Word

end Sys2Proof.Config
end

