-- ==== Sys2Proof/Machine/Exponential.lean ====
section
/-! DEFINITION. The exponential primitive FEXP of the hardware (40_coefficient_solver.md R77). -/

namespace Sys2Proof.Machine

/-- FEXP, the binary32 exponential of the hardware (R77): any function that meets laws L1 to L3, a FREE VALUE within them
(log 12). Law L1, FEXP(±0) = 1.0, is written out, so that it can be computed; a NaN result, possible outside the
interval of the laws only, is canonical (00_scope.md R10, R11, log 22). -/
def fexp (x : F32) : F32 :=
  if fIsZero x then fOne else fCanon (Config.exponential.apply x)

end Sys2Proof.Machine
end

