-- ==== Sys2Proof/Machine/Cells.lean ====
section
/-! DEFINITION. Sparse storage in one canonical form: a list of (index, value) pairs with strictly rising indices and no
entry equal to what an unlisted index reads as. System memory, the work memory and the accumulators are held this way. -/

namespace Sys2Proof.Machine

/-- The value at index `a`: the first entry for it, or `d` where none is listed. -/
def cellsRead {α : Type} (d : α) (l : List (Nat × α)) (a : Nat) : α :=
  match l with
  | [] => d
  | (k, v) :: r => if k = a then v else cellsRead d r a

/-- The list without its entries for index `a`. -/
def cellsErase {α : Type} (l : List (Nat × α)) (a : Nat) : List (Nat × α) :=
  match l with
  | [] => []
  | (k, v) :: r => if k = a then cellsErase r a else (k, v) :: cellsErase r a

/-- The list with an entry for `a` put before the first entry of a higher index. -/
def cellsInsert {α : Type} (l : List (Nat × α)) (a : Nat) (v : α) : List (Nat × α) :=
  match l with
  | [] => [(a, v)]
  | (k, w) :: r => if a < k then (a, v) :: (k, w) :: r else (k, w) :: cellsInsert r a v

/-- Write `v` at index `a`; a value that an unlisted index reads as is not listed. -/
def cellsWrite {α : Type} [DecidableEq α] (d : α) (l : List (Nat × α)) (a : Nat) (v : α) : List (Nat × α) :=
  if v = d then cellsErase l a else cellsInsert (cellsErase l a) a v

/-- Every listed index is above `a`. -/
def cellsAbove {α : Type} (a : Nat) (l : List (Nat × α)) : Bool :=
  match l with
  | [] => true
  | (k, _) :: _ => decide (a < k)

/-- The canonical form, with every index below `bound`. -/
def cellsWf {α : Type} [DecidableEq α] (d : α) (bound : Nat) (l : List (Nat × α)) : Bool :=
  match l with
  | [] => true
  | (k, v) :: r => decide (v ≠ d) && decide (k < bound) && cellsAbove k r && cellsWf d bound r

/-! ### System memory (20_memory.md R48, R49) -/

/-- What a byte that is not listed reads as. DESIGN CHOICE (log 9): the spec gives system memory no contents. -/
def unlistedByte : Byte := 0x00#8

/-- The byte of system memory at address `a`. -/
def readByte (m : List Host.Cell) (a : Nat) : Byte := cellsRead unlistedByte m a

/-- Store one byte. -/
def writeByte (m : List Host.Cell) (a : Nat) (v : Byte) : List Host.Cell := cellsWrite unlistedByte m a v

/-- Byte `k` of a word, in little-endian order: byte 0 is bits 7:0 (20_memory.md R49). -/
def byteOf (v : Word) (k : Nat) : Byte := v.extractLsb' (8 * k) 8

/-- The word of four bytes, the first in bits 7:0 (20_memory.md R49). -/
def wordOfBytes (b0 b1 b2 b3 : Byte) : Word := ((b3 ++ b2) ++ b1) ++ b0

/-- The word at byte address `a` (20_memory.md R49): bits 7:0 at a, 15:8 at a+1, 23:16 at a+2, 31:24 at a+3. -/
def readWord (m : List Host.Cell) (a : Nat) : Word :=
  wordOfBytes (readByte m a) (readByte m (a + 1)) (readByte m (a + 2)) (readByte m (a + 3))

/-- Store the low `n` bytes of a word from address `a` up, the lowest bits first (20_memory.md R49). -/
def writeBytes (m : List Host.Cell) (a : Nat) (v : Word) (n : Nat) : List Host.Cell :=
  match n with
  | 0 => m
  | k + 1 => writeByte (writeBytes m a v k) (a + k) (byteOf v k)

/-- Store the word `v` at byte address `a` (20_memory.md R49, R53). -/
def writeWord (m : List Host.Cell) (a : Nat) (v : Word) : List Host.Cell := writeBytes m a v 4

/-- The canonical form of system memory: addresses strictly rising and below 2^32, no entry that reads as unlisted. -/
def Memory.wf (m : List Host.Cell) : Bool := cellsWf unlistedByte (2 ^ 32) m

/-! ### Work memory and accumulators (10_state.md R43, R44) -/

/-- What a word of the work memory or an accumulator that is not listed reads as. DESIGN CHOICE (logs 7, 8): their contents
at reset are "unspecified, never observable" (70_reset_and_hazards.md R122). -/
def unlistedWord : Word := 0x00000000#32

/-- `Work[k]`, or `acc[k]`. -/
def readCell (w : List (Nat × Word)) (k : Nat) : Word := cellsRead unlistedWord w k

/-- `Work[k] <- v`, or `acc[k] <- v`. -/
def writeCell (w : List (Nat × Word)) (k : Nat) (v : Word) : List (Nat × Word) := cellsWrite unlistedWord w k v

end Sys2Proof.Machine
end

