-- ==== Sys2Proof/Syntax.lean ====
section
/-! DEFINITION. The commands of IIRF-1: one constructor per row of spec/opcode_table.json (30_encoding.md R70). No command
has an operand field (R69, R71): operands are the latched parameter registers. -/

namespace Sys2Proof

/-- The four commands of 30_encoding.md R70. -/
inductive Instr where
  /-- NOP, 43_control.md R100. -/
  | nop
  /-- SOLVE, 40_coefficient_solver.md R80. -/
  | solve
  /-- LINE, 41_line_filter.md R89. -/
  | line
  /-- BLUR2D, 42_separable_blur.md R93. -/
  | blur2d
deriving DecidableEq, Repr

end Sys2Proof
end

