-- ==== Sys2Proof/Decode.lean ====
section
/-! DEFINITION. The decoder of command words and the encoder (30_encoding.md R68 to R72). -/

namespace Sys2Proof

/-- Why a word is no command. -/
inductive DecodeError where
  /-- OP is 0x4 to 0xF, or a bit of 31:4 is 1 (30_encoding.md R72): the command ends with ILLEGAL_CMD. -/
  | illegalCommand
deriving DecidableEq, Repr

/-- The OP field, bits 3:0 of a command word (30_encoding.md R69). -/
def opField (w : Word) : BitVec 4 := w.extractLsb' 0 4

/-- The MBZ field, bits 31:4 of a command word (30_encoding.md R69). -/
def mbzField (w : Word) : BitVec 28 := w.extractLsb' 4 28

/-- The command word with the given fields (30_encoding.md R69). -/
def commandWord (mbz : BitVec 28) (op : BitVec 4) : Word := mbz ++ op

/-- The decoder: "comparing the whole word with the four values of the word column" (30_encoding.md R70); every other
word is illegal (R72). -/
def decode (w : Word) : Except DecodeError Instr :=
  if w = 0x00000000#32 then .ok .nop
  else if w = 0x00000001#32 then .ok .solve
  else if w = 0x00000002#32 then .ok .line
  else if w = 0x00000003#32 then .ok .blur2d
  else .error .illegalCommand

/-- The word of a command, written from its fields: bits 31:4 zero and the OP value of 30_encoding.md R70. -/
def encode : Instr → Word
  | .nop => commandWord 0#28 0x0#4
  | .solve => commandWord 0#28 0x1#4
  | .line => commandWord 0#28 0x2#4
  | .blur2d => commandWord 0#28 0x3#4

/-- The decoder on an instruction given as the number of its bits: its low `nbits` bits are w's, every bit above them is 0,
and a command is one 32-bit word with no byte order of its own (30_encoding.md R68, 20_memory.md R50). -/
def tableWord (nbits w : Nat) : Option Word :=
  if w % 2 ^ nbits < 2 ^ 32 then some (BitVec.ofNat 32 (w % 2 ^ nbits)) else none

/-- The command that the decoder reads from a word numbered as spec/opcode_table.json numbers it. -/
def decodeTableWord (nbits w : Nat) : Option Instr :=
  match tableWord nbits w with
  | none => none
  | some v =>
    match decode v with
    | .ok i => some i
    | .error _ => none

end Sys2Proof
end

