-- ==== Sys2Proof/Machine/State.lean ====
section
/-! DEFINITION. The state of the machine: the registers and the hidden state of the block (10_state.md), system memory and
the platform's memory map (20_memory.md), and the agenda that orders the steps of the agents (20_memory.md R61). -/

namespace Sys2Proof.Machine

/-- Why the machine stops with a fault. The block itself has no trap (60_exceptions.md R113): an error of a command ends
the command and is no fault of this type. -/
inductive Fault where
  /-- A host register access at an offset outside 0x00 to 0x7F (10_state.md R17: the block has no register there). Raised
  by a host access only. Safe: the access is to nothing this machine has. -/
  | noSuchRegister (offset : Nat)
  /-- A host memory access that leaves the 2^32 bytes of system memory (20_memory.md R48). Raised by a host access only.
  Safe: there is no such byte. -/
  | noSuchAddress (address : Nat)
  /-- A memory-port access at an address that is not a 4-byte aligned word of the 2^32 bytes (20_memory.md R51, R52).
  Raised by an engine step in states that no run reaches, since the CHECK step refuses such a command first. Safe. -/
  | portAddress (address : Nat)
  /-- The engine's progress does not belong to the running command (10_state.md R46). Raised in states that no run
  reaches. Safe. -/
  | outOfSequence
deriving DecidableEq, Repr

/-- Why the model has no meaning for a step. -/
inductive Refusal where
  /-- A command that the model gives no meaning. Raised by exec's arms only. Safe. -/
  | notModelled (mnemonic : String)
  /-- A register access narrower or wider than 32 bits, or misaligned: "a model refuses a host program that makes one"
  (20_memory.md R50). Raised by a host access. Safe. -/
  | malformedRegisterAccess (offset size : Nat)
  /-- A command whose planes reach memory with side effects, or a host access to such memory: "a model refuses a command
  whose planes reach memory with side effects" (20_memory.md R55). Raised at the access. Safe. -/
  | sideEffectMemory (address : Nat)
  /-- A host write to a source or destination sample while BUSY = 1: "outside this spec: a model refuses it"
  (20_memory.md R63 item 2). Safe. -/
  | hostWriteWhileBusy (address : Nat)
deriving DecidableEq, Repr

/-- The registers of the block by offset (10_state.md R17), the three reserved words among them. -/
inductive Reg where
  | id | cap | workWords | ctrl | status | cmd | errAddr | lineCount
  | sigma | src | dst | width | height | channels | stride | srcStep
  | dstStep | reserved44 | reserved48 | reserved4C
  | sigmaEff | a0 | a1 | a2 | a3 | b1 | b2 | cprev | cnext | a0a1 | a2a3 | b1b2
deriving DecidableEq, Repr

/-- The error codes of 60_exceptions.md R106, by name. -/
inductive ErrCode where
  | noError | illegalCmd | noCoef | badDim | badStride | badAlign | badRange | overlap | capacity | busError | aborted
deriving DecidableEq, Repr

/-- The fields of STATUS (10_state.md R23). Bits 7:5 and 31:12 are reserved and hold nothing. -/
structure Status where
  busy : Bool
  done : Bool
  err : Bool
  ovr : Bool
  coefValid : Bool
  errcode : BitVec 4
deriving DecidableEq, Repr

/-- The nine parameter registers (10_state.md R28 to R37), each of its field's width. -/
structure Params where
  sigma : F32
  src : Word
  dst : Word
  width : BitVec 16
  height : BitVec 16
  channels : BitVec 8
  stride : Word
  srcStep : Word
  dstStep : Word
deriving DecidableEq, Repr

/-- The latched set L: the fields of the accepted command word and the copy of the parameter registers
(10_state.md R42, 43_control.md R97). -/
structure Latched where
  op : BitVec 4
  mbz : BitVec 28
  params : Params
deriving DecidableEq, Repr

/-- The twelve coefficient registers (10_state.md R38). -/
structure Coefs where
  sigmaEff : F32
  a0 : F32
  a1 : F32
  a2 : F32
  a3 : F32
  b1 : F32
  b2 : F32
  cprev : F32
  cnext : F32
  a0a1 : F32
  a2a3 : F32
  b1b2 : F32
deriving DecidableEq, Repr

/-- The three loops of the line pass procedure (41_line_filter.md R88). -/
inductive Phase where
  /-- The forward pass over the line. -/
  | forward
  /-- One position of the backward pass: obtain the sample again and combine. -/
  | backward
  /-- One position of the backward pass: deliver the results. -/
  | deliver
deriving DecidableEq, Repr

/-- The place inside a line pass: the loop and its indices i and c (41_line_filter.md R88). -/
structure LinePos where
  phase : Phase
  i : Nat
  c : Nat
deriving DecidableEq, Repr

/-- The engine's progress through the running command (10_state.md R46): the step CHECK, SOLVE, LPASS, HPASS or VPASS, with
the line and sample indices that its position implies. `finish` and `busError` stand for the moment at which every step
but the completion has been performed (60_exceptions.md R108, R109). -/
inductive Progress where
  | idle
  | check
  | solve
  | lpass (p : LinePos)
  | hpass (y : Nat) (p : LinePos)
  | vpass (x : Nat) (p : LinePos)
  /-- Every step of the passes is done: the next step completes the command with ERRCODE 0. -/
  | finish
  /-- The access at this byte address returned a bus error: the next step completes the command with BUS_ERROR. -/
  | busError (address : Word)
deriving DecidableEq, Repr

/-- A range of system memory that the platform does not answer as ordinary memory (20_memory.md R56, R57, R55). -/
structure Region where
  base : Nat
  size : Nat
  /-- A memory-port read that touches the range returns a bus error. -/
  readErrors : Bool
  /-- A memory-port write that touches the range returns a bus error. -/
  writeErrors : Bool
  /-- The range has side effects on read or write. -/
  sideEffects : Bool
deriving DecidableEq, Repr

/-- The width of a host memory access (20_memory.md R49 names narrower host stores). -/
inductive Width where
  | byte | half | word
deriving DecidableEq, Repr

/-- One step of the host (20_memory.md R61; 30_encoding.md R73, R74). -/
inductive HostStep where
  /-- A write of `value` to the register at this byte offset from REG_BASE, `size` bytes wide. -/
  | wr (offset size : Nat) (value : Word)
  /-- A read of the register at this byte offset from REG_BASE, `size` bytes wide. -/
  | rd (offset size : Nat)
  /-- A host store to system memory, of the low bytes of `value`. -/
  | mem (address : Nat) (width : Width) (value : Word)
  /-- A host load from system memory. -/
  | ld (address : Nat) (width : Width)
  /-- Repeat `rd STATUS` until BUSY is 0 (R74). -/
  | wait
deriving DecidableEq, Repr

/-- Whose atomic step is next in the total order of 20_memory.md R61. -/
inductive Event where
  | engine
  | host (h : HostStep)
  | reset
deriving DecidableEq, Repr

/-- The state of the machine. -/
structure State where
  /-- CTRL.IE (10_state.md R22). -/
  ie : Bool
  /-- STATUS (10_state.md R23). -/
  status : Status
  /-- CMD, the last accepted command word (10_state.md R25). -/
  cmd : Word
  /-- ERR_ADDR (10_state.md R26). -/
  errAddr : Word
  /-- LINE_COUNT (10_state.md R27). -/
  lineCount : Word
  /-- The parameter registers (10_state.md R28). -/
  params : Params
  /-- The coefficient registers (10_state.md R38). -/
  coefs : Coefs
  /-- The latched set L (10_state.md R42). -/
  latched : Latched
  /-- The work memory (10_state.md R43), in canonical form (Machine/Cells.lean). -/
  work : List (Nat × Word)
  /-- The running accumulators (10_state.md R44), in canonical form. -/
  acc : List (Nat × Word)
  /-- The abort-request bit (10_state.md R45). -/
  abortReq : Bool
  /-- The engine's progress (10_state.md R46). -/
  progress : Progress
  /-- System memory (10_state.md R47), in canonical form. -/
  mem : List Host.Cell
  /-- The platform's memory map: an address in no region is ordinary memory (20_memory.md R56). -/
  platform : List Region
  /-- The next steps of the total order; the engine moves when none is listed (20_memory.md R61). -/
  agenda : List Event
  /-- The words delivered to the host, newest first (43_control.md R102). -/
  hostReads : List Word
  /-- How many free values have been taken (20_memory.md R53). -/
  freeCount : Nat
deriving DecidableEq, Repr

/-- The parameter registers after reset (70_reset_and_hazards.md R122). -/
def zeroParams : Params :=
  { sigma := 0#32, src := 0#32, dst := 0#32, width := 0#16, height := 0#16, channels := 0#8, stride := 0#32,
    srcStep := 0#32, dstStep := 0#32 }

/-- The coefficient registers after reset (70_reset_and_hazards.md R122). -/
def zeroCoefs : Coefs :=
  { sigmaEff := 0#32, a0 := 0#32, a1 := 0#32, a2 := 0#32, a3 := 0#32, b1 := 0#32, b2 := 0#32, cprev := 0#32,
    cnext := 0#32, a0a1 := 0#32, a2a3 := 0#32, b1b2 := 0#32 }

/-- STATUS after reset: 0x00000000 (70_reset_and_hazards.md R122). -/
def zeroStatus : Status :=
  { busy := false, done := false, err := false, ovr := false, coefValid := false, errcode := 0#4 }

/-- The machine right after reset (70_reset_and_hazards.md R122). DESIGN CHOICE (unsafe): the latched set, the work memory
and the accumulators, which R122 leaves unspecified, hold zeros (logs 6, 7, 8); no byte of memory is listed (log 9), the
platform map and the agenda are empty (logs 10, 1), nothing has been read (log 24) and no free value taken (log 11). -/
def State.reset : State :=
  { ie := false, status := zeroStatus, cmd := 0#32, errAddr := 0#32, lineCount := 0#32, params := zeroParams,
    coefs := zeroCoefs, latched := { op := 0#4, mbz := 0#28, params := zeroParams }, work := [], acc := [],
    abortReq := false, progress := .idle, mem := [], platform := [], agenda := [], hostReads := [], freeCount := 0 }

end Sys2Proof.Machine
end

