-- ==== Sys2Proof/Machine/Operands.lean ====
section
/-! DEFINITION. Operands: what a command reads from the latched set (30_encoding.md R71), the byte addresses of its samples
(00_scope.md R13), its footprint (20_memory.md R58) and its places in the work memory (42_separable_blur.md R92).
Everything is computed on unbounded natural numbers (00_scope.md R8). -/

namespace Sys2Proof.Machine

/-- The latched command word (10_state.md R42, 43_control.md R97). -/
def latchedWord (l : Latched) : Word := commandWord l.mbz l.op

/-- W of BLUR2D and N of LINE, "WIDTH[15:0], unsigned" (R71). -/
def opWidth (l : Latched) : Nat := l.params.width.toNat

/-- H of BLUR2D, "HEIGHT[15:0], unsigned" (R71). -/
def opHeight (l : Latched) : Nat := l.params.height.toNat

/-- C, "CHANNELS[7:0], unsigned" (R71). -/
def opChannels (l : Latched) : Nat := l.params.channels.toNat

/-- The stride of BLUR2D, "unsigned, samples" (R71). -/
def opStride (l : Latched) : Nat := l.params.stride.toNat

/-- The source step of LINE, "unsigned, samples" (R71). -/
def opSrcStep (l : Latched) : Nat := l.params.srcStep.toNat

/-- The destination step of LINE, "unsigned, samples" (R71). -/
def opDstStep (l : Latched) : Nat := l.params.dstStep.toNat

/-- The byte address in SRC (R71). -/
def opSrc (l : Latched) : Nat := l.params.src.toNat

/-- The byte address in DST (R71). -/
def opDst (l : Latched) : Nat := l.params.dst.toNat

/-- The byte address of the sample at sample offset `k` of a plane or line at `base` (R13, R71: offsets times 4). -/
def sampleAddress (base k : Nat) : Nat := base + 4 * k

/-- The address of source sample (i, c) of LINE: `L.SRC + 4*(i*L.SRC_STEP + c)` (41_line_filter.md R89). -/
def lineSrcAddress (l : Latched) (i c : Nat) : Nat := sampleAddress (opSrc l) (i * opSrcStep l + c)

/-- The address of destination sample (i, c) of LINE: `L.DST + 4*(i*L.DST_STEP + c)` (41_line_filter.md R89). -/
def lineDstAddress (l : Latched) (i c : Nat) : Nat := sampleAddress (opDst l) (i * opDstStep l + c)

/-- The address of source sample (y, x, c) of BLUR2D: `L.SRC + 4*(y*L.STRIDE + x*C + c)` (R13, 42_separable_blur.md R93). -/
def blurSrcAddress (l : Latched) (y x c : Nat) : Nat :=
  sampleAddress (opSrc l) (y * opStride l + x * opChannels l + c)

/-- The address of destination sample (y, x, c) of BLUR2D: `L.DST + 4*(y*L.STRIDE + x*C + c)` (42_separable_blur.md R93). -/
def blurDstAddress (l : Latched) (y x c : Nat) : Nat :=
  sampleAddress (opDst l) (y * opStride l + x * opChannels l + c)

/-- The exclusive byte bound of a line of `n` positions at `base`: `base + 4*((n-1)*step + C)` (41_line_filter.md R89). -/
def lineEnd (base n step channels : Nat) : Nat := base + 4 * ((n - 1) * step + channels)

/-- The exclusive byte bound of a plane at `base`: `base + 4*((H-1)*STRIDE + W*C)` (42_separable_blur.md R93). -/
def planeEnd (base height stride rowSamples : Nat) : Nat := base + 4 * ((height - 1) * stride + rowSamples)

/-- The word of the scratch line buffer for line position i and channel c (42_separable_blur.md R92). -/
def scratchIndex (channels i c : Nat) : Nat := i * channels + c

/-- S, the size of the scratch line buffer of a BLUR2D: `max(W,H)*C` words (42_separable_blur.md R92). -/
def scratchWords (l : Latched) : Nat := max (opWidth l) (opHeight l) * opChannels l

/-- T, the size of the transpose cache of a BLUR2D: `W*H*C` words (42_separable_blur.md R92). -/
def cacheWords (l : Latched) : Nat := opWidth l * opHeight l * opChannels l

/-- The word of the transpose cache for pixel (x, y) and channel c: `S + x*H*C + y*C + c` (42_separable_blur.md R92). -/
def cacheIndex (l : Latched) (x y c : Nat) : Nat :=
  scratchWords l + x * opHeight l * opChannels l + y * opChannels l + c

/-- The last of `rows` runs, `stride` samples apart, that starts at or before sample offset `k`. -/
def runAt (stride rows k : Nat) : Nat := min (k / stride) (rows - 1)

/-- Whether byte `a` belongs to a sample of `rows` runs of `rowSamples` samples, `stride` samples apart, from `base` on
(20_memory.md R58). Runs may overlap, as they do in a command whose stride its pre-check will refuse. -/
def inSamples (base stride rows rowSamples a : Nat) : Bool :=
  decide (base ≤ a) && decide (0 < rows) &&
    decide ((a - base) / 4 - runAt stride rows ((a - base) / 4) * stride < rowSamples)

/-- Whether byte `a` belongs to a source sample of the latched command (20_memory.md R58). -/
def isSourceByte (l : Latched) (a : Nat) : Bool :=
  match decode (latchedWord l) with
  | .ok .line => inSamples (opSrc l) (opSrcStep l) (opWidth l) (opChannels l) a
  | .ok .blur2d => inSamples (opSrc l) (opStride l) (opHeight l) (opWidth l * opChannels l) a
  | .ok .nop => false
  | .ok .solve => false
  | .error _ => false

/-- Whether byte `a` belongs to a destination sample of the latched command (20_memory.md R58). -/
def isDestByte (l : Latched) (a : Nat) : Bool :=
  match decode (latchedWord l) with
  | .ok .line => inSamples (opDst l) (opDstStep l) (opWidth l) (opChannels l) a
  | .ok .blur2d => inSamples (opDst l) (opStride l) (opHeight l) (opWidth l * opChannels l) a
  | .ok .nop => false
  | .ok .solve => false
  | .error _ => false

/-- Whether one of the `n` bytes from `a` on belongs to a sample of the latched command. -/
def touchesSample (l : Latched) (a n : Nat) : Bool :=
  match n with
  | 0 => false
  | k + 1 => touchesSample l a k || isSourceByte l (a + k) || isDestByte l (a + k)

end Sys2Proof.Machine
end

