-- ==== Sys2Proof/Machine/Check.lean ====
section
/-! DEFINITION. The pre-checks of the CHECK step: for each command the first condition that holds, in the order of
60_exceptions.md R107. Each uses only L, STATUS.COEF_VALID and the constants MAX_CHANNELS and WORK_WORDS. -/

namespace Sys2Proof.Machine

/-- Bits 1:0 of a byte address are not zero (20_memory.md R51). -/
def misaligned (a : Nat) : Bool := a % 4 != 0

/-- Two byte ranges [a, b) and [c, d) intersect (60_exceptions.md R107). -/
def rangesIntersect (a b c d : Nat) : Bool := decide (a < d) && decide (c < b)

/-- The exclusive byte bound of the source line of LINE (41_line_filter.md R89). -/
def lineSrcEnd (l : Latched) : Nat := lineEnd (opSrc l) (opWidth l) (opSrcStep l) (opChannels l)

/-- The exclusive byte bound of the destination line of LINE (41_line_filter.md R89). -/
def lineDstEnd (l : Latched) : Nat := lineEnd (opDst l) (opWidth l) (opDstStep l) (opChannels l)

/-- The exclusive byte bound of the source plane of BLUR2D (42_separable_blur.md R93). -/
def blurSrcEnd (l : Latched) : Nat :=
  planeEnd (opSrc l) (opHeight l) (opStride l) (opWidth l * opChannels l)

/-- The exclusive byte bound of the destination plane of BLUR2D (42_separable_blur.md R93). -/
def blurDstEnd (l : Latched) : Nat :=
  planeEnd (opDst l) (opHeight l) (opStride l) (opWidth l * opChannels l)

/-- The source and destination lines of LINE are the same line (20_memory.md R59). -/
def sameLine (l : Latched) : Bool := opSrc l == opDst l && opSrcStep l == opDstStep l

/-- The LINE column of 60_exceptions.md R107. -/
def checkLine (maxChannels workWords : Nat) (coefValid : Bool) (l : Latched) : ErrCode :=
  if coefValid = false then .noCoef
  else if opWidth l = 0 ∨ opChannels l = 0 ∨ opChannels l > maxChannels then .badDim
  else if opSrcStep l < opChannels l ∨ opDstStep l < opChannels l then .badStride
  else if misaligned (opSrc l) || misaligned (opDst l) then .badAlign
  else if lineSrcEnd l > Config.addressLimit ∨ lineDstEnd l > Config.addressLimit then .badRange
  else if rangesIntersect (opSrc l) (lineSrcEnd l) (opDst l) (lineDstEnd l) && !sameLine l then .overlap
  else if opWidth l * opChannels l > workWords then .capacity
  else .noError

/-- The BLUR2D column of 60_exceptions.md R107. -/
def checkBlur (maxChannels workWords : Nat) (l : Latched) : ErrCode :=
  if opWidth l = 0 ∨ opHeight l = 0 ∨ opChannels l = 0 ∨ opChannels l > maxChannels then .badDim
  else if opStride l < opWidth l * opChannels l then .badStride
  else if misaligned (opSrc l) || misaligned (opDst l) then .badAlign
  else if blurSrcEnd l > Config.addressLimit ∨ blurDstEnd l > Config.addressLimit then .badRange
  else if scratchWords l + cacheWords l > workWords then .capacity
  else .noError

end Sys2Proof.Machine
end

