-- ==== Sys2Proof/Machine/Flags.lean ====
section
/-! DEFINITION. The flags: every rule that sets, clears or reads the fields of STATUS and CTRL (10_state.md R22 to R24,
43_control.md R97, R98, R103, 60_exceptions.md R106, R108, R112). -/

namespace Sys2Proof.Machine

/-- The code of an error in STATUS.ERRCODE (60_exceptions.md R106). -/
def errBits : ErrCode → BitVec 4
  | .noError => 0#4
  | .illegalCmd => 1#4
  | .noCoef => 2#4
  | .badDim => 3#4
  | .badStride => 4#4
  | .badAlign => 5#4
  | .badRange => 6#4
  | .overlap => 7#4
  | .capacity => 8#4
  | .busError => 9#4
  | .aborted => 10#4

/-- The word that a read of STATUS returns: ERRCODE in bits 11:8, COEF_VALID, OVR, ERR, DONE and BUSY in bits 4 to 0, and 0
in every reserved bit (10_state.md R23, R18). -/
def statusWord (st : Status) : Word :=
  0#20 ++ st.errcode ++ 0#3 ++ BitVec.ofBool st.coefValid ++ BitVec.ofBool st.ovr ++ BitVec.ofBool st.err ++
    BitVec.ofBool st.done ++ BitVec.ofBool st.busy

/-- The word that a read of CTRL returns: IE in bit 0, and 0 in ABORT and every reserved bit (10_state.md R22). -/
def ctrlWord (ie : Bool) : Word := 0#31 ++ BitVec.ofBool ie

/-- STATUS at acceptance: DONE, ERR and ERRCODE cleared, BUSY set; OVR and COEF_VALID unchanged (43_control.md R97). -/
def statusAccepted (st : Status) : Status :=
  { st with busy := true, done := false, err := false, errcode := 0#4 }

/-- STATUS at completion: BUSY cleared, DONE set, and with an error ERR and ERRCODE set (60_exceptions.md R108). -/
def statusCompleted (code : ErrCode) (st : Status) : Status :=
  { st with
    busy := false
    done := true
    err := if code = .noError then st.err else true
    errcode := if code = .noError then st.errcode else errBits code }

/-- STATUS after a host write of `w`: bit 1 clears DONE, bit 2 clears ERR and ERRCODE, bit 3 clears OVR, all in one step;
BUSY and COEF_VALID are unchanged (43_control.md R103). -/
def statusWritten (w : Word) (st : Status) : Status :=
  { st with
    done := if w.getLsbD 1 then false else st.done
    err := if w.getLsbD 2 then false else st.err
    errcode := if w.getLsbD 2 then 0#4 else st.errcode
    ovr := if w.getLsbD 3 then false else st.ovr }

/-- STATUS after a CMD write while busy: OVR set (43_control.md R98). -/
def statusOverrun (st : Status) : Status := { st with ovr := true }

/-- The interrupt output: `IRQ = CTRL.IE AND STATUS.DONE` (60_exceptions.md R112). -/
def irq (s : State) : Bool := s.ie && s.status.done

end Sys2Proof.Machine
end

