-- ==== Sys2Proof/Machine/Ops.lean ====
section
/-! DEFINITION. The named operations that the commands and the host's accesses are built from: acceptance, completion (the
block's analog of taking an exception, 60_exceptions.md R113), abort points, the memory port, reset. -/

namespace Sys2Proof.Machine

/-- What one step answers. -/
abbrev Result := Host.Outcome State Fault Refusal

/-! ### Starting and ending a command -/

/-- The latched set at the acceptance of word `w` (43_control.md R97, 10_state.md R42). -/
def latch (w : Word) (ps : Params) : Latched := { op := opField w, mbz := mbzField w, params := ps }

/-- Acceptance of the command word `w` (43_control.md R97): one atomic step. -/
def accept (w : Word) (s : State) : State :=
  { s with
    cmd := w
    latched := latch w s.params
    status := statusAccepted s.status
    errAddr := 0#32
    lineCount := 0#32
    abortReq := false
    progress := .check }

/-- `complete(code, info)` (60_exceptions.md R108): the one way a command ends, with an error or without. It stands where
another machine takes an exception (R113); the block has no return from it (R114). -/
def complete (code : ErrCode) (info : Word) (s : State) : State :=
  { s with
    status := statusCompleted code s.status
    errAddr := if code = .busError then info else s.errAddr
    abortReq := false
    progress := .idle }

/-- The command that the latched word selects (43_control.md R97: "the command that OP selects"). -/
def fetchCommand (s : State) : Except DecodeError Instr := decode (latchedWord s.latched)

/-- The engine goes on to `p`. -/
def goTo (p : Progress) (s : State) : State := { s with progress := p }

/-- The CHECK step (60_exceptions.md R107, R110): raise the error that the pre-checks found, else take a pending abort
request, else go on. Raising is completing in this same step (log 4). -/
def checkStep (code : ErrCode) (s : State) (goOn : Result) : Result :=
  if code = .noError then
    (if s.abortReq then .next (complete .aborted 0#32 s) else goOn)
  else .next (complete code 0#32 s)

/-- An abort point before a later step (60_exceptions.md R110): a pending request completes the command instead. -/
def abortPoint (s : State) (goOn : Result) : Result :=
  if s.abortReq then .next (complete .aborted 0#32 s) else goOn

/-- The CHECK step of an illegal word (30_encoding.md R72, 60_exceptions.md R107 order 1). -/
def illegalStep (s : State) : Result :=
  match s.progress with
  | .check => .next (complete .illegalCmd 0#32 s)
  | _ => .fault .outOfSequence

/-! ### Coefficients (10_state.md R40) -/

/-- A coefficient-set update: all twelve registers in one step, and COEF_VALID becomes 1. -/
def updateCoefs (k : Coefs) (s : State) : State :=
  { s with coefs := k, status := { s.status with coefValid := true } }

/-! ### The memory port (20_memory.md R51 to R57) -/

/-- The region and the `n` bytes from `a` on have a byte in common. -/
def regionHits (r : Region) (a n : Nat) : Bool := decide (a < r.base + r.size) && decide (r.base < a + n)

/-- A memory-port read of the word at `a` returns a bus error (R52, R56). -/
def readFails (pf : List Region) (a : Nat) : Bool := pf.any fun r => r.readErrors && regionHits r a 4

/-- A memory-port write of the word at `a` returns a bus error (R53, R56). -/
def writeFails (pf : List Region) (a : Nat) : Bool := pf.any fun r => r.writeErrors && regionHits r a 4

/-- One of the `n` bytes from `a` on has side effects (R55). -/
def hasSideEffects (pf : List Region) (a n : Nat) : Bool := pf.any fun r => r.sideEffects && regionHits r a n

/-- An address that a memory-port access can have: an aligned word of the 2^32 bytes (R51, R52). -/
def portAddressOk (a : Nat) : Bool := decide (a % 4 = 0) && decide (a + 4 ≤ Config.addressLimit)

/-- `MemRead(a, 4)` (R52) and what follows it in its step. After a bus error the next step completes the command
(60_exceptions.md R109). -/
def portRead (a : Nat) (s : State) (andThen : Word → State) : Result :=
  if portAddressOk a = false then .fault (.portAddress a)
  else if readFails s.platform a then .next (goTo (.busError (BitVec.ofNat 32 a)) s)
  else if hasSideEffects s.platform a 4 then .refused (.sideEffectMemory a)
  else .next (andThen (readWord s.mem a))

/-- Memory after a write of `v` to `a` that failed: the word holds any value, a FREE VALUE (R53). -/
def failedWrite (a : Nat) (s : State) : State :=
  { s with mem := writeWord s.mem a (Config.failedWriteWord s.freeCount), freeCount := s.freeCount + 1 }

/-- Memory after a write of `v` to `a` that completed (R53). -/
def storeWord (a : Nat) (v : Word) (s : State) : State := { s with mem := writeWord s.mem a v }

/-- `MemWrite(a, 4, v)` (R53) and what follows it in its step. -/
def portWrite (a : Nat) (v : Word) (s : State) (andThen : State → State) : Result :=
  if portAddressOk a = false then .fault (.portAddress a)
  else if writeFails s.platform a then .next (goTo (.busError (BitVec.ofNat 32 a)) (failedWrite a s))
  else if hasSideEffects s.platform a 4 then .refused (.sideEffectMemory a)
  else .next (andThen (storeWord a v s))

/-! ### Reset (70_reset_and_hazards.md R122, R123) -/

/-- The reset step: the block takes its reset values, a running command ends without completion, system memory is
unchanged; what lies outside the block stays (log 25). -/
def resetBlock (s : State) : State :=
  { State.reset with
    mem := s.mem, platform := s.platform, agenda := s.agenda, hostReads := s.hostReads, freeCount := s.freeCount }

end Sys2Proof.Machine
end

