-- ==== Sys2Proof/Machine/CoefficientSolver.lean ====
section
/-! DEFINITION. The coefficient solver (40_coefficient_solver.md): the evaluation Coef(sigma) of R78 and the command SOLVE
of R80. -/

namespace Sys2Proof.Machine

/-- The floor on sigma (R75): sigma where sigma >= 0.5, else exactly 0.5; every NaN becomes 0.5. -/
def clampSigma (sigma : F32) : F32 := if fge sigma fHalf then sigma else fHalf

/-- `Coef(sigma)` for a given exponential: R78, one rounding per operation, in the rule's order. -/
def coefWith (expF : F32 → F32) (sigma : F32) : Coefs :=
  let s := clampSigma sigma
  let alpha := fdiv Config.e0 s
  let lambda := expF (fneg alpha)
  let b2 := expF (fneg (fmul fTwo alpha))
  let t := fsub fOne lambda
  let num := fmul t t
  let den := fsub (fadd fOne (fmul (fmul fTwo alpha) lambda)) b2
  let k := fdiv num den
  let a0 := k
  let a1 := fmul (fmul k (fsub alpha fOne)) lambda
  let a2 := fmul (fmul k (fadd alpha fOne)) lambda
  let a3 := fneg (fmul k b2)
  let b1 := fneg (fmul fTwo lambda)
  let d := fadd (fadd fOne b1) b2
  { sigmaEff := s, a0 := a0, a1 := a1, a2 := a2, a3 := a3, b1 := b1, b2 := b2,
    cprev := fdiv (fadd a0 a1) d, cnext := fdiv (fadd a2 a3) d,
    a0a1 := fadd a0 a1, a2a3 := fadd a2 a3, b1b2 := fadd b1 b2 }

/-- `Coef(sigma)` of the hardware (R78), with its FEXP (R77). It has no error condition (R79). -/
def coef (sigma : F32) : Coefs := coefWith fexp sigma

/-- Step SOLVE of SOLVE and of BLUR2D: the coefficient-set update from L.SIGMA (10_state.md R40). -/
def solveUpdate (s : State) : State := updateCoefs (coef s.latched.params.sigma) s

/-- SOLVE, one engine step (R80): CHECK, or step SOLVE, "one atomic engine step" that updates the coefficient registers and
completes with ERRCODE 0 (log 4). -/
def execSolve (s : State) : Result :=
  match s.progress with
  | .check => checkStep .noError s (.next (goTo .solve s))
  | .solve => abortPoint s (.next (complete .noError 0#32 (solveUpdate s)))
  | _ => .fault .outOfSequence

end Sys2Proof.Machine
end

