-- ==== Sys2Proof/Machine/Control.lean ====
section
/-! DEFINITION. NOP (43_control.md R100). -/

namespace Sys2Proof.Machine

/-- NOP, one engine step: the CHECK step, which takes a pending abort request or completes with ERRCODE 0 (R100, log 4). -/
def execNop (s : State) : Result :=
  match s.progress with
  | .check => checkStep .noError s (.next (complete .noError 0#32 s))
  | _ => .fault .outOfSequence

end Sys2Proof.Machine
end

