-- ==== Sys2Proof/Machine/LinePass.lean ====
section
/-! DEFINITION. The line pass procedure `LinePass(rd, wr, N, C)` of 41_line_filter.md R88, cut into its steps: each step
obtains one sample and updates the accumulator and the scratch word, or delivers one result. LINE and both passes of BLUR2D
run it; each says what obtaining and delivering are. -/

namespace Sys2Proof.Machine

/-- The first step of a line pass: forward, i = 0, c = 0 (R88). -/
def passStart : LinePos := { phase := .forward, i := 0, c := 0 }

/-- The step after `p` in a line pass over n positions of `channels` channels, none after the last (the loops of R88). -/
def nextPos (n channels : Nat) (p : LinePos) : Option LinePos :=
  match p.phase with
  | .forward =>
    if p.c + 1 < channels then some { p with c := p.c + 1 }
    else if p.i + 1 < n then some { p with i := p.i + 1, c := 0 }
    else some { phase := .backward, i := n - 1, c := 0 }
  | .backward =>
    if p.c + 1 < channels then some { p with c := p.c + 1 }
    else some { phase := .deliver, i := p.i, c := 0 }
  | .deliver =>
    if p.c + 1 < channels then some { p with c := p.c + 1 }
    else if p.i = 0 then none
    else some { phase := .backward, i := p.i - 1, c := 0 }

/-- The recursion of both passes: `acc <- sample*gain - acc*b1b2`, the two products rounded separately (R85). -/
def recurse (gain feedback sample prev : F32) : F32 := fsub (fmul sample gain) (fmul prev feedback)

/-- What the forward recursion takes as its previous value: the seed `v*CPREV` at the line's first position, else the
accumulator (R86, R88). -/
def forwardPrev (p : LinePos) (v : F32) (s : State) : F32 :=
  if p.i = 0 then fmul v s.coefs.cprev else readCell s.acc p.c

/-- The forward accumulator after sample `v` (R88). -/
def forwardAcc (p : LinePos) (v : F32) (s : State) : F32 :=
  recurse s.coefs.a0a1 s.coefs.b1b2 v (forwardPrev p v s)

/-- The forward step on sample `v` (R88): the accumulator and the scratch word take the new value. -/
def forwardSample (channels : Nat) (p : LinePos) (v : F32) (s : State) : State :=
  { s with
    acc := writeCell s.acc p.c (forwardAcc p v s)
    work := writeCell s.work (scratchIndex channels p.i p.c) (forwardAcc p v s) }

/-- What the backward recursion takes as its previous value: the seed `v*CNEXT` at the line's last position, else the
accumulator (R86, R88). -/
def backwardPrev (n : Nat) (p : LinePos) (v : F32) (s : State) : F32 :=
  if p.i = n - 1 then fmul v s.coefs.cnext else readCell s.acc p.c

/-- The backward accumulator after sample `v` (R88). -/
def backwardAcc (n : Nat) (p : LinePos) (v : F32) (s : State) : F32 :=
  recurse s.coefs.a2a3 s.coefs.b1b2 v (backwardPrev n p v s)

/-- The backward step on sample `v` (R88): the accumulator takes the new value, which is added to the scratch word. -/
def backwardSample (n channels : Nat) (p : LinePos) (v : F32) (s : State) : State :=
  { s with
    acc := writeCell s.acc p.c (backwardAcc n p v s)
    work := writeCell s.work (scratchIndex channels p.i p.c)
      (fadd (readCell s.work (scratchIndex channels p.i p.c)) (backwardAcc n p v s)) }

/-- The result that a deliver step hands on: `Work[i*C + c]` (R88). -/
def passResult (channels : Nat) (p : LinePos) (s : State) : F32 := readCell s.work (scratchIndex channels p.i p.c)

/-- The end of a line pass: `x[LINE_COUNT] <- x[LINE_COUNT] + 1` (R88, 10_state.md R27). -/
def countLine (s : State) : State := { s with lineCount := s.lineCount + 1#32 }

/-- Go on to the next step of the line pass, or count the line and go on to `after` (R88). -/
def passOn (n channels : Nat) (p : LinePos) (inPass : LinePos → Progress) (after : Progress) (s : State) : State :=
  match nextPos n channels p with
  | some q => goTo (inPass q) s
  | none => goTo after (countLine s)

end Sys2Proof.Machine
end

