-- ==== Sys2Proof/Machine/LineFilter.lean ====
section
/-! DEFINITION. LINE (41_line_filter.md R89): filter one line from memory to memory. -/

namespace Sys2Proof.Machine

/-- The pre-check of LINE in a state (60_exceptions.md R107). -/
def lineCheck (s : State) : ErrCode :=
  checkLine Config.maxChannels Config.workWords s.status.coefValid s.latched

/-- Go on in the line pass of LINE; after its last step only the completion is left (R89). -/
def lineNext (p : LinePos) (s : State) : State :=
  passOn (opWidth s.latched) (opChannels s.latched) p .lpass .finish s

/-- One step of LPASS: a read of source sample (i, c) with the recursion on it, or a write of destination sample (i, c)
(R88, R89). -/
def linePassStep (p : LinePos) (s : State) : Result :=
  match p.phase with
  | .forward =>
    portRead (lineSrcAddress s.latched p.i p.c) s fun v =>
      lineNext p (forwardSample (opChannels s.latched) p v s)
  | .backward =>
    portRead (lineSrcAddress s.latched p.i p.c) s fun v =>
      lineNext p (backwardSample (opWidth s.latched) (opChannels s.latched) p v s)
  | .deliver =>
    portWrite (lineDstAddress s.latched p.i p.c) (passResult (opChannels s.latched) p s) s (lineNext p)

/-- LINE, one engine step (R89): CHECK, one step of LPASS with its abort point, or the completion. -/
def execLine (s : State) : Result :=
  match s.progress with
  | .check => checkStep (lineCheck s) s (.next (goTo (.lpass passStart) s))
  | .lpass p => abortPoint s (linePassStep p s)
  | .finish => .next (complete .noError 0#32 s)
  | .busError a => .next (complete .busError a s)
  | _ => .fault .outOfSequence

end Sys2Proof.Machine
end

