-- ==== Sys2Proof/Machine/SeparableBlur.lean ====
section
/-! DEFINITION. BLUR2D (42_separable_blur.md R93): blur a plane from memory to memory, rows into the transpose cache, then
columns into the output. -/

namespace Sys2Proof.Machine

/-- The pre-check of BLUR2D in a state (60_exceptions.md R107). -/
def blurCheck (s : State) : ErrCode := checkBlur Config.maxChannels Config.workWords s.latched

/-- What follows row y of the horizontal pass: the next row, or the vertical pass (R93). -/
def afterRow (l : Latched) (y : Nat) : Progress :=
  if y + 1 < opHeight l then .hpass (y + 1) passStart else .vpass 0 passStart

/-- What follows column x of the vertical pass: the next column, or the completion (R93). -/
def afterColumn (l : Latched) (x : Nat) : Progress :=
  if x + 1 < opWidth l then .vpass (x + 1) passStart else .finish

/-- Go on in the horizontal pass: row y is a line of W positions (R93). -/
def rowNext (y : Nat) (p : LinePos) (s : State) : State :=
  passOn (opWidth s.latched) (opChannels s.latched) p (.hpass y) (afterRow s.latched y) s

/-- Go on in the vertical pass: column x is a line of H positions (R93). -/
def columnNext (x : Nat) (p : LinePos) (s : State) : State :=
  passOn (opHeight s.latched) (opChannels s.latched) p (.vpass x) (afterColumn s.latched x) s

/-- Deliver a result of row y to the transpose cache: `Work[S + i*H*C + y*C + c] <- v` (R93). -/
def cacheStore (y : Nat) (p : LinePos) (s : State) : State :=
  { s with work := writeCell s.work (cacheIndex s.latched p.i y p.c) (passResult (opChannels s.latched) p s) }

/-- Obtain sample (i, c) of column x from the transpose cache: `Work[S + x*H*C + i*C + c]` (R93). -/
def cacheLoad (x : Nat) (p : LinePos) (s : State) : F32 := readCell s.work (cacheIndex s.latched x p.i p.c)

/-- One step of HPASS in row y: a read of a source sample with the recursion on it, or a result into the cache. -/
def rowPassStep (y : Nat) (p : LinePos) (s : State) : Result :=
  match p.phase with
  | .forward =>
    portRead (blurSrcAddress s.latched y p.i p.c) s fun v =>
      rowNext y p (forwardSample (opChannels s.latched) p v s)
  | .backward =>
    portRead (blurSrcAddress s.latched y p.i p.c) s fun v =>
      rowNext y p (backwardSample (opWidth s.latched) (opChannels s.latched) p v s)
  | .deliver => .next (rowNext y p (cacheStore y p s))

/-- One step of VPASS in column x: the recursion on a sample of the cache, or a write of a destination sample. -/
def columnPassStep (x : Nat) (p : LinePos) (s : State) : Result :=
  match p.phase with
  | .forward => .next (columnNext x p (forwardSample (opChannels s.latched) p (cacheLoad x p s) s))
  | .backward =>
    .next (columnNext x p (backwardSample (opHeight s.latched) (opChannels s.latched) p (cacheLoad x p s) s))
  | .deliver =>
    portWrite (blurDstAddress s.latched p.i x p.c) (passResult (opChannels s.latched) p s) s (columnNext x p)

/-- BLUR2D, one engine step (R93): CHECK, step SOLVE, one step of HPASS or VPASS with its abort point, or the
completion. -/
def execBlur2d (s : State) : Result :=
  match s.progress with
  | .check => checkStep (blurCheck s) s (.next (goTo .solve s))
  | .solve => abortPoint s (.next (goTo (.hpass 0 passStart) (solveUpdate s)))
  | .hpass y p => abortPoint s (rowPassStep y p s)
  | .vpass x p => abortPoint s (columnPassStep x p s)
  | .finish => .next (complete .noError 0#32 s)
  | .busError a => .next (complete .busError a s)
  | _ => .fault .outOfSequence

end Sys2Proof.Machine
end

