-- ==== Sys2Proof/Machine/Dispatch.lean ====
section
/-! DEFINITION. One engine step of a running command, by command: exec i s is the next atomic engine step of command i
(20_memory.md R61) from the progress that s holds (10_state.md R46). -/

namespace Sys2Proof.Machine

def exec (i : Instr) (s : State) : Host.Outcome State Fault Refusal :=
  match i with
  | .nop => Sys2Proof.Machine.execNop s
  | .solve => Sys2Proof.Machine.execSolve s
  | .line => Sys2Proof.Machine.execLine s
  | .blur2d => Sys2Proof.Machine.execBlur2d s

end Sys2Proof.Machine
end

