-- ==== Sys2Proof/Machine/Registers.lean ====
section
/-! DEFINITION. The register block: the map of 10_state.md R17 and the effect of every host read and write
(43_control.md R97, R98, R101 to R104). -/

namespace Sys2Proof.Machine

/-- The byte offset of a register from REG_BASE (10_state.md R17). -/
def regOffset : Reg → Nat
  | .id => 0x00
  | .cap => 0x04
  | .workWords => 0x08
  | .ctrl => 0x0C
  | .status => 0x10
  | .cmd => 0x14
  | .errAddr => 0x18
  | .lineCount => 0x1C
  | .sigma => 0x20
  | .src => 0x24
  | .dst => 0x28
  | .width => 0x2C
  | .height => 0x30
  | .channels => 0x34
  | .stride => 0x38
  | .srcStep => 0x3C
  | .dstStep => 0x40
  | .reserved44 => 0x44
  | .reserved48 => 0x48
  | .reserved4C => 0x4C
  | .sigmaEff => 0x50
  | .a0 => 0x54
  | .a1 => 0x58
  | .a2 => 0x5C
  | .a3 => 0x60
  | .b1 => 0x64
  | .b2 => 0x68
  | .cprev => 0x6C
  | .cnext => 0x70
  | .a0a1 => 0x74
  | .a2a3 => 0x78
  | .b1b2 => 0x7C

/-- Every register of the block, by offset (10_state.md R17). -/
def allRegs : List Reg :=
  [.id, .cap, .workWords, .ctrl, .status, .cmd, .errAddr, .lineCount, .sigma, .src, .dst, .width, .height, .channels,
    .stride, .srcStep, .dstStep, .reserved44, .reserved48, .reserved4C, .sigmaEff, .a0, .a1, .a2, .a3, .b1, .b2,
    .cprev, .cnext, .a0a1, .a2a3, .b1b2]

/-- The register at a byte offset, none where no register starts (10_state.md R17). -/
def regAt (offset : Nat) : Option Reg := allRegs.find? fun r => regOffset r == offset

/-- The address of a register in the host's address map (00_scope.md R5, R6). -/
def regAddress (r : Reg) : Nat := Config.regBase + regOffset r

/-- CAP: MAX_CHANNELS in bits 7:0, VERSION in bits 15:8, 0 above (10_state.md R20). -/
def capWord : Word := 0#16 ++ Config.capVersion ++ BitVec.ofNat 8 Config.maxChannels

/-- What a host read of a register returns (43_control.md R102; 10_state.md R17, R18: reserved bits, the bits above a field
and the reserved words read 0). -/
def readReg (r : Reg) (s : State) : Word :=
  match r with
  | .id => Config.idValue
  | .cap => capWord
  | .workWords => BitVec.ofNat 32 Config.workWords
  | .ctrl => ctrlWord s.ie
  | .status => statusWord s.status
  | .cmd => s.cmd
  | .errAddr => s.errAddr
  | .lineCount => s.lineCount
  | .sigma => s.params.sigma
  | .src => s.params.src
  | .dst => s.params.dst
  | .width => s.params.width.setWidth 32
  | .height => s.params.height.setWidth 32
  | .channels => s.params.channels.setWidth 32
  | .stride => s.params.stride
  | .srcStep => s.params.srcStep
  | .dstStep => s.params.dstStep
  | .reserved44 => 0#32
  | .reserved48 => 0#32
  | .reserved4C => 0#32
  | .sigmaEff => s.coefs.sigmaEff
  | .a0 => s.coefs.a0
  | .a1 => s.coefs.a1
  | .a2 => s.coefs.a2
  | .a3 => s.coefs.a3
  | .b1 => s.coefs.b1
  | .b2 => s.coefs.b2
  | .cprev => s.coefs.cprev
  | .cnext => s.coefs.cnext
  | .a0a1 => s.coefs.a0a1
  | .a2a3 => s.coefs.a2a3
  | .b1b2 => s.coefs.b1b2

/-- A host write of `w` to CTRL: IE takes bit 0; bit 1 requests an abort while busy (10_state.md R22, 43_control.md R101,
R103). -/
def writeCtrl (w : Word) (s : State) : State :=
  { s with
    ie := w.getLsbD 0
    abortReq := if w.getLsbD 1 && s.status.busy then true else s.abortReq }

/-- A host write of `w` to STATUS (43_control.md R103). -/
def writeStatus (w : Word) (s : State) : State := { s with status := statusWritten w s.status }

/-- A host write of `w` to CMD: acceptance while idle (43_control.md R97), dropped with OVR set while busy (R98). -/
def writeCmd (w : Word) (s : State) : State :=
  if s.status.busy then { s with status := statusOverrun s.status } else accept w s

/-- A host write of `w` to a parameter register, cut to the field's width; other registers have no such write
(43_control.md R103). -/
def writeParam (r : Reg) (w : Word) (ps : Params) : Params :=
  match r with
  | .sigma => { ps with sigma := w }
  | .src => { ps with src := w }
  | .dst => { ps with dst := w }
  | .width => { ps with width := w.extractLsb' 0 16 }
  | .height => { ps with height := w.extractLsb' 0 16 }
  | .channels => { ps with channels := w.extractLsb' 0 8 }
  | .stride => { ps with stride := w }
  | .srcStep => { ps with srcStep := w }
  | .dstStep => { ps with dstStep := w }
  | _ => ps

/-- The state after a host write of `w` to a register (43_control.md R103): read-only and reserved words ignore it
(10_state.md R18, R39). -/
def writeReg (r : Reg) (w : Word) (s : State) : State :=
  match r with
  | .ctrl => writeCtrl w s
  | .status => writeStatus w s
  | .cmd => writeCmd w s
  | .sigma | .src | .dst | .width | .height | .channels | .stride | .srcStep | .dstStep =>
    { s with params := writeParam r w s.params }
  | .id | .cap | .workWords | .errAddr | .lineCount => s
  | .reserved44 | .reserved48 | .reserved4C => s
  | .sigmaEff | .a0 | .a1 | .a2 | .a3 | .b1 | .b2 | .cprev | .cnext | .a0a1 | .a2a3 | .b1b2 => s

end Sys2Proof.Machine
end

