-- ==== Sys2Proof/WellFormed.lean ====
section
/-! DEFINITION. What is well-formed: commands, command words, host register accesses, and the parameters of R6. -/

namespace Sys2Proof

/-- Every command is well-formed: it has no field that could be ill-formed (30_encoding.md R69). -/
def Instr.wellFormed : Instr → Bool
  | .nop => true
  | .solve => true
  | .line => true
  | .blur2d => true

/-- A legal command word: OP is 0x0 to 0x3 and bits 31:4 are zero (30_encoding.md R70, R72). -/
def commandWordOk (w : Word) : Bool :=
  w.extractLsb' 4 28 == 0#28 && decide ((w.extractLsb' 0 4).toNat ≤ 3)

/-- A register access with a meaning: 32 bits wide at a 4-byte aligned offset (20_memory.md R50). -/
def registerAccessOk (offset size : Nat) : Bool :=
  size == 4 && offset % 4 == 0

/-- The register block occupies the byte offsets 0x00 to 0x7F (10_state.md R17). -/
def inRegisterBlock (offset : Nat) : Bool :=
  decide (offset < 0x80)

/-- The ranges of MAX_CHANNELS and WORK_WORDS (00_scope.md R6). -/
def parametersOk (maxChannels workWords : Nat) : Bool :=
  decide (4 ≤ maxChannels) && decide (maxChannels ≤ 255) &&
    decide (2 * maxChannels ≤ workWords) && decide (workWords ≤ 2 ^ 32 - 1)

/-- REG_BASE is a multiple of 0x80 (00_scope.md R6). -/
def regBaseOk (base : Nat) : Bool :=
  base % 0x80 == 0

end Sys2Proof
end

