-- ==== Sys2Proof/Machine/HostPort.lean ====
section
/-! DEFINITION. The host's atomic steps (20_memory.md R61): register accesses (R50), stores to and loads from system memory
(R49, R63), and the polling of the pseudo-statement `wait` (30_encoding.md R74). -/

namespace Sys2Proof.Machine

/-- The bytes of a host memory access (20_memory.md R49). -/
def widthBytes : Width → Nat
  | .byte => 1
  | .half => 2
  | .word => 4

/-- The register of a host access, or why there is none: no register at the offset (10_state.md R17), or an access that is
not 32 bits wide and aligned (20_memory.md R50). -/
def registerAccess (offset size : Nat) (access : Reg → State) : Result :=
  if inRegisterBlock offset = false then .fault (.noSuchRegister offset)
  else if registerAccessOk offset size = false then .refused (.malformedRegisterAccess offset size)
  else
    match regAt offset with
    | none => .fault (.noSuchRegister offset)
    | some r => .next (access r)

/-- Deliver a word to the host. -/
def deliverRead (v : Word) (s : State) : State := { s with hostReads := v :: s.hostReads }

/-- A host register write (43_control.md R103). -/
def hostWrite (offset size : Nat) (w : Word) (s : State) : Result :=
  registerAccess offset size fun r => writeReg r w s

/-- A host register read (43_control.md R102). -/
def hostRead (offset size : Nat) (s : State) : Result :=
  registerAccess offset size fun r => deliverRead (readReg r s) s

/-- The `n` bytes from `a` on as a little-endian number, zero-extended to a word (20_memory.md R49). -/
def loadBytes (m : List Host.Cell) (a n : Nat) : Word :=
  match n with
  | 0 => 0#32
  | k + 1 => loadBytes m a k ||| ((readByte m (a + k)).setWidth 32 <<< (8 * k))

/-- A host store to system memory (30_encoding.md R73; 20_memory.md R49). A store to a sample of the running command is
refused (R63 item 2), and so is one to memory with side effects, whose behaviour the spec does not give (R55). -/
def hostStore (a : Nat) (width : Width) (v : Word) (s : State) : Result :=
  if a + widthBytes width > Config.addressLimit then .fault (.noSuchAddress a)
  else if hasSideEffects s.platform a (widthBytes width) then .refused (.sideEffectMemory a)
  else if s.status.busy && touchesSample s.latched a (widthBytes width) then .refused (.hostWriteWhileBusy a)
  else .next { s with mem := writeBytes s.mem a v (widthBytes width) }

/-- A host load from system memory (30_encoding.md R73). While a command runs it returns what the word holds at this point
of the total order (20_memory.md R63 item 2). -/
def hostLoad (a : Nat) (width : Width) (s : State) : Result :=
  if a + widthBytes width > Config.addressLimit then .fault (.noSuchAddress a)
  else if hasSideEffects s.platform a (widthBytes width) then .refused (.sideEffectMemory a)
  else .next (deliverRead (loadBytes s.mem a (widthBytes width)) s)

/-- `wait`: one `rd STATUS`; while it reads BUSY = 1 the engine takes a step and the host polls again (30_encoding.md R74,
70_reset_and_hazards.md R126: fair; log 20). -/
def hostWait (s : State) : Result :=
  if s.status.busy then
    .next { deliverRead (readReg .status s) s with agenda := .engine :: .host .wait :: s.agenda }
  else .next (deliverRead (readReg .status s) s)

/-- One step of the host. -/
def hostStep (h : HostStep) (s : State) : Result :=
  match h with
  | .wr offset size w => hostWrite offset size w s
  | .rd offset size => hostRead offset size s
  | .mem a width v => hostStore a width v s
  | .ld a width => hostLoad a width s
  | .wait => hostWait s

end Sys2Proof.Machine
end

