-- ==== Sys2Proof/Machine/Agents.lean ====
section
/-! DEFINITION. The atomic step of each agent of 20_memory.md R61: the engine, the host and the reset input. -/

namespace Sys2Proof.Machine

/-- The engine's step: while busy, the next step of the command that the latched word selects, or the CHECK step of an
illegal word (43_control.md R97); while idle, nothing (60_exceptions.md R121). -/
def engineStep (s : State) : Result :=
  if s.status.busy then
    match fetchCommand s with
    | .ok i => exec i s
    | .error _ => illegalStep s
  else .next s

/-- The step of the agent that an event names (20_memory.md R61; reset: 70_reset_and_hazards.md R122). -/
def eventStep (e : Event) (s : State) : Result :=
  match e with
  | .engine => engineStep s
  | .host h => hostStep h s
  | .reset => .next (resetBlock s)

/-- The state right after the host's write of the word to CMD (43_control.md R97: "Acceptance is the only way a command
starts"), with no other agent's step before the engine's. A word of more than 32 bits is no command word and is not
issued. -/
def issueWord (nbits w : Nat) (s : State) : State :=
  match tableWord nbits w with
  | some v => { accept v s with agenda := [] }
  | none => s

end Sys2Proof.Machine
end

