-- ==== Sys2Proof/Machine/Step.lean ====
section
/-! DEFINITION. One step of the machine: the next atomic step of the total order of 20_memory.md R61, by the agent whose
turn the agenda says it is. -/

namespace Sys2Proof.Machine

/-- One step: the first event of the agenda, taken off it; the engine's step where none is listed. -/
def step (s : State) : Host.Outcome State Fault Refusal :=
  match s.agenda with
  | [] => engineStep s
  | e :: rest => eventStep e { s with agenda := rest }

/-- The state whose very next step is the first engine step of the command word `w` (log 2). -/
def State.withFetchWord (s : State) (nbits w : Nat) : State := issueWord nbits w s

end Sys2Proof.Machine
end

