-- ==== Sys2Proof/Machine/Script.lean ====
section
/-! DEFINITION. Host scripts: the statements of 30_encoding.md R73 and the pseudo-statements of R74 with their expansions
into host steps. A value `f32(x)` is given as its word; `f32OfRatio` computes it. -/

namespace Sys2Proof.Machine

/-- A statement of a host script (30_encoding.md R73, R74). -/
inductive Stmt where
  | wr (r : Reg) (v : Word)
  | rd (r : Reg)
  | cmd (i : Instr)
  | mem (address : Nat) (v : Word)
  | ld (address : Nat)
  | wrf (r : Reg) (x : F32)
  | wait
  | ack
  | abort
  | abortIe
  | solve (x : F32)
  | line (src dst n channels srcStep dstStep : Word)
  | blur (src dst width height channels stride : Word) (x : F32)
deriving DecidableEq, Repr

/-- One 32-bit write of `v` to a register (R73). -/
def wrStep (r : Reg) (v : Word) : HostStep := .wr (regOffset r) 4 v

/-- One 32-bit read of a register (R73). -/
def rdStep (r : Reg) : HostStep := .rd (regOffset r) 4

/-- The host steps of a statement (R73, R74). -/
def expandStmt (st : Stmt) : List HostStep :=
  match st with
  | .wr r v => [wrStep r v]
  | .rd r => [rdStep r]
  | .cmd i => [wrStep .cmd (encode i)]
  | .mem a v => [.mem a .word v]
  | .ld a => [.ld a .word]
  | .wrf r x => [wrStep r x]
  | .wait => [.wait]
  | .ack => [wrStep .status 0x0000000E#32]
  | .abort => [wrStep .ctrl 0x00000002#32]
  | .abortIe => [wrStep .ctrl 0x00000003#32]
  | .solve x => [wrStep .sigma x, wrStep .cmd (encode .solve), .wait]
  | .line s d n c ss ds =>
    [wrStep .src s, wrStep .dst d, wrStep .width n, wrStep .channels c, wrStep .srcStep ss, wrStep .dstStep ds,
      wrStep .cmd (encode .line), .wait]
  | .blur s d w h c st x =>
    [wrStep .src s, wrStep .dst d, wrStep .width w, wrStep .height h, wrStep .channels c, wrStep .stride st,
      wrStep .sigma x, wrStep .cmd (encode .blur2d), .wait]

/-- The host steps of a script, in order (R73). -/
def expandScript (script : List Stmt) : List Event :=
  (script.flatMap expandStmt).map Event.host

/-- The machine with a script as the host's next steps. -/
def withScript (script : List Stmt) (s : State) : State := { s with agenda := expandScript script }

end Sys2Proof.Machine
end

