-- ==== Sys2Proof/Safety.lean ====
section
/-! DEFINITION. The terms that claims about the machine use: repeated steps, what the rules say a line pass and a blur
compute, the reference access order, the invariant of reachable states, and what is observable. (What rounding and a
lawful exponential are is said in Machine/RealValue.lean.) -/

namespace Sys2Proof.Machine

/-! ### Repeated steps -/

/-- `n` engine steps of command `i`, stopping at the first fault or refusal. -/
def execN (i : Instr) (n : Nat) (s : State) : Result :=
  match n with
  | 0 => .next s
  | k + 1 =>
    match exec i s with
    | .next t => execN i k t
    | .fault r => .fault r
    | .refused r => .refused r

/-- `n` steps of the machine. -/
def runN (n : Nat) (s : State) : Result := Host.Core.run Sys2Proof.core n s

/-- A step's outcome with `f` applied to its next state. -/
def mapNext (f : State → State) (r : Result) : Result :=
  match r with
  | .next s => .next (f s)
  | .fault q => .fault q
  | .refused q => .refused q

/-! ### How a command ends (60_exceptions.md R108) -/

/-- The state after a command ended without an error: BUSY 0, DONE 1, no abort request, idle. -/
def endedClean (s : State) : State :=
  { s with status := { s.status with busy := false, done := true }, abortReq := false, progress := .idle }

/-- The state after a command ended with the error code `code`, other than BUS_ERROR: as without, with ERR 1 and ERRCODE
the code. -/
def endedWith (code : BitVec 4) (s : State) : State :=
  { s with
    status := { s.status with busy := false, done := true, err := true, errcode := code }
    abortReq := false
    progress := .idle }

/-! ### Bytes of memory -/

/-- Every byte outside the `n` bytes from `a` on reads the same in both memories. -/
def sameBytesOutside (a n : Nat) (m m' : List Host.Cell) : Prop :=
  ∀ b, b < a ∨ a + n ≤ b → readByte m' b = readByte m b

/-- Every byte reads the same in both memories. -/
def sameBytes (m m' : List Host.Cell) : Prop := ∀ b, readByte m' b = readByte m b

/-! ### The line filter and the blur as functions (41_line_filter.md R85, 42_separable_blur.md R94) -/

/-- f[i] of R85 for the input line `x`: the forward accumulator after position i. -/
def forwardAt (k : Coefs) (x : Nat → F32) (i : Nat) : F32 :=
  match i with
  | 0 => recurse k.a0a1 k.b1b2 (x 0) (fmul (x 0) k.cprev)
  | j + 1 => recurse k.a0a1 k.b1b2 (x (j + 1)) (forwardAt k x j)

/-- g of R85 at position n - 1 - j: the backward accumulator after j + 1 positions from the end of a line of n. -/
def backwardAt (k : Coefs) (n : Nat) (x : Nat → F32) (j : Nat) : F32 :=
  match j with
  | 0 => recurse k.a2a3 k.b1b2 (x (n - 1)) (fmul (x (n - 1)) k.cnext)
  | m + 1 => recurse k.a2a3 k.b1b2 (x (n - 1 - (m + 1))) (backwardAt k n x m)

/-- y[i] of R85, for one channel: `fadd(f[i], g)`. -/
def lineOut (k : Coefs) (n : Nat) (x : Nat → F32) (i : Nat) : F32 :=
  fadd (forwardAt k x i) (backwardAt k n x (n - 1 - i))

/-- out[y][x] of R94, for one channel of the input plane `inp y x`: rows first, columns second. -/
def blurOut (k : Coefs) (w h : Nat) (inp : Nat → Nat → F32) (y x : Nat) : F32 :=
  lineOut k h (fun y' => lineOut k w (fun x' => inp y' x') x) y

/-- The input line of a LINE in memory `m`, channel c. -/
def lineInput (l : Latched) (m : List Host.Cell) (c i : Nat) : F32 := readWord m (lineSrcAddress l i c)

/-- The input plane of a BLUR2D in memory `m`, channel c. -/
def blurInput (l : Latched) (m : List Host.Cell) (c y x : Nat) : F32 := readWord m (blurSrcAddress l y x c)

/-! ### The platform -/

/-- A memory-port read of the word at `a` returns its value. -/
def readAnswers (pf : List Region) (a : Nat) : Prop := readFails pf a = false ∧ hasSideEffects pf a 4 = false

/-- A memory-port write of the word at `a` completes. -/
def writeAnswers (pf : List Region) (a : Nat) : Prop := writeFails pf a = false ∧ hasSideEffects pf a 4 = false

/-- Every sample of a LINE answers as ordinary memory (20_memory.md R55, R56). -/
def lineAnswers (pf : List Region) (l : Latched) : Prop :=
  ∀ i c, i < opWidth l → c < opChannels l →
    readAnswers pf (lineSrcAddress l i c) ∧ writeAnswers pf (lineDstAddress l i c)

/-- Every sample of a BLUR2D answers as ordinary memory (20_memory.md R55, R56). -/
def blurAnswers (pf : List Region) (l : Latched) : Prop :=
  ∀ y x c, y < opHeight l → x < opWidth l → c < opChannels l →
    readAnswers pf (blurSrcAddress l y x c) ∧ writeAnswers pf (blurDstAddress l y x c)

/-! ### The reference access order (20_memory.md R62) -/

/-- One access on the memory port. -/
inductive Access where
  | read (address : Nat)
  | write (address : Nat)
deriving DecidableEq, Repr

/-- Whether an access is a read. -/
def isRead : Access → Bool
  | .read _ => true
  | .write _ => false

/-- The reference access order of LINE (R62). -/
def lineOrder (l : Latched) : List Access :=
  (List.range (opWidth l)).flatMap (fun i =>
    (List.range (opChannels l)).map fun c => .read (lineSrcAddress l i c)) ++
  (List.range (opWidth l)).reverse.flatMap (fun i =>
    (List.range (opChannels l)).map (fun c => .read (lineSrcAddress l i c)) ++
    (List.range (opChannels l)).map (fun c => .write (lineDstAddress l i c)))

/-- The reference access order of BLUR2D (R62). -/
def blurOrder (l : Latched) : List Access :=
  (List.range (opHeight l)).flatMap (fun y =>
    (List.range (opWidth l)).flatMap (fun x =>
      (List.range (opChannels l)).map fun c => .read (blurSrcAddress l y x c)) ++
    (List.range (opWidth l)).reverse.flatMap (fun x =>
      (List.range (opChannels l)).map fun c => .read (blurSrcAddress l y x c))) ++
  (List.range (opWidth l)).flatMap (fun x =>
    (List.range (opHeight l)).reverse.flatMap fun y =>
      (List.range (opChannels l)).map fun c => .write (blurDstAddress l y x c))

/-- The memory-port access that the engine's next step makes, if it makes one. -/
def nextAccess (s : State) : Option Access :=
  if s.abortReq then none
  else
    match s.progress with
    | .lpass p =>
      match p.phase with
      | .forward => some (.read (lineSrcAddress s.latched p.i p.c))
      | .backward => some (.read (lineSrcAddress s.latched p.i p.c))
      | .deliver => some (.write (lineDstAddress s.latched p.i p.c))
    | .hpass y p =>
      match p.phase with
      | .forward => some (.read (blurSrcAddress s.latched y p.i p.c))
      | .backward => some (.read (blurSrcAddress s.latched y p.i p.c))
      | .deliver => none
    | .vpass x p =>
      match p.phase with
      | .forward => none
      | .backward => none
      | .deliver => some (.write (blurDstAddress s.latched p.i x p.c))
    | .idle | .check | .solve | .finish | .busError _ => none

/-- `r` is what a step that reads the sample at `a` answers where the read does not deliver a value: after a bus error the
command's completion is next and nothing else has changed (60_exceptions.md R109); memory with side effects is refused
(20_memory.md R55). -/
def readStops (s : State) (a : Nat) (r : Result) : Prop :=
  nextAccess s = some (.read a) ∧
    (portAddressOk a = true → readFails s.platform a = true →
      r = .next { s with progress := .busError (BitVec.ofNat 32 a) }) ∧
    (portAddressOk a = true → readFails s.platform a = false → hasSideEffects s.platform a 4 = true →
      r = .refused (.sideEffectMemory a))

/-- The same for a step that writes the sample at `a`: after a bus error the word holds a free value and every other byte
is as it was (20_memory.md R53). -/
def writeStops (s : State) (a : Nat) (r : Result) : Prop :=
  nextAccess s = some (.write a) ∧
    (portAddressOk a = true → writeFails s.platform a = true →
      ∃ m, r = .next
          { s with
            mem := m
            freeCount := s.freeCount + 1
            progress := .busError (BitVec.ofNat 32 a) } ∧
        readWord m a = Config.failedWriteWord s.freeCount ∧ sameBytesOutside a 4 s.mem m) ∧
    (portAddressOk a = true → writeFails s.platform a = false → hasSideEffects s.platform a 4 = true →
      r = .refused (.sideEffectMemory a))

/-- The memory-port accesses that `n` engine steps of command `i` make, in order. -/
def accessTrace (i : Instr) (n : Nat) (s : State) : List Access :=
  match n with
  | 0 => []
  | k + 1 =>
    match exec i s with
    | .next t => (nextAccess s).toList ++ accessTrace i k t
    | .fault _ => []
    | .refused _ => []

/-- The engine steps of a LINE that nothing stops: CHECK, three for every sample, completion. -/
def lineSteps (l : Latched) : Nat := 3 * (opWidth l * opChannels l) + 2

/-- The engine steps of a BLUR2D that nothing stops: CHECK, SOLVE, three for every sample in each of the two passes,
completion. -/
def blurSteps (l : Latched) : Nat := 6 * (opWidth l * opHeight l * opChannels l) + 3

/-! ### The invariant of reachable states -/

/-- The flags of STATUS (10_state.md R24): BUSY = 1 implies DONE = 0 and ERR = 0; ERR = 0 exactly when ERRCODE = 0;
ERRCODE is never 11 to 15. -/
def statusOk (st : Status) : Prop :=
  (st.busy = true → st.done = false ∧ st.err = false) ∧ (st.err = false ↔ st.errcode = 0#4) ∧ st.errcode.toNat ≤ 10

/-- A place inside a line pass over n positions of `channels` channels. -/
def linePosOk (n channels : Nat) (p : LinePos) : Prop := p.i < n ∧ p.c < channels

/-- The latched word is the command `i` (30_encoding.md R70). -/
def latchedIs (i : Instr) (s : State) : Prop := fetchCommand s = .ok i

/-- The engine's progress belongs to the running command, which has passed its pre-check, and LINE_COUNT counts its
finished line passes (10_state.md R46, R27, 60_exceptions.md R107). -/
def progressOk (s : State) : Prop :=
  match s.progress with
  | .idle => s.status.busy = false
  | .check => s.status.busy = true ∧ s.lineCount = 0#32
  | .solve =>
    s.status.busy = true ∧ s.lineCount = 0#32 ∧
      (latchedIs .solve s ∨ (latchedIs .blur2d s ∧ blurCheck s = .noError))
  | .lpass p =>
    s.status.busy = true ∧ s.lineCount = 0#32 ∧ latchedIs .line s ∧ lineCheck s = .noError ∧
      linePosOk (opWidth s.latched) (opChannels s.latched) p
  | .hpass y p =>
    s.status.busy = true ∧ s.lineCount = BitVec.ofNat 32 y ∧ latchedIs .blur2d s ∧ blurCheck s = .noError ∧
      s.status.coefValid = true ∧ y < opHeight s.latched ∧ linePosOk (opWidth s.latched) (opChannels s.latched) p
  | .vpass x p =>
    s.status.busy = true ∧ s.lineCount = BitVec.ofNat 32 (opHeight s.latched + x) ∧ latchedIs .blur2d s ∧
      blurCheck s = .noError ∧ s.status.coefValid = true ∧ x < opWidth s.latched ∧
      linePosOk (opHeight s.latched) (opChannels s.latched) p
  | .finish =>
    s.status.busy = true ∧ s.status.coefValid = true ∧
      ((latchedIs .line s ∧ s.lineCount = 1#32) ∨
        (latchedIs .blur2d s ∧ s.lineCount = BitVec.ofNat 32 (opHeight s.latched + opWidth s.latched)))
  | .busError _ => s.status.busy = true ∧ s.status.coefValid = true ∧ (latchedIs .line s ∨ latchedIs .blur2d s)

/-- The three stores are in canonical form and within their sizes (10_state.md R43, R44, 20_memory.md R48). -/
def storageOk (s : State) : Prop :=
  Memory.wf s.mem = true ∧ cellsWf unlistedWord Config.workWords s.work = true ∧
    cellsWf unlistedWord Config.maxChannels s.acc = true

/-- What holds in every reachable state. -/
def MachineInv (s : State) : Prop :=
  statusOk s.status ∧ progressOk s ∧ storageOk s ∧
    (s.abortReq = true → s.status.busy = true) ∧
    (s.status.busy = true → s.cmd = latchedWord s.latched ∧ s.errAddr = 0#32) ∧
    (s.status.coefValid = false → s.coefs = zeroCoefs)

/-- The event whose step is next (20_memory.md R61): the engine's where the agenda lists none. -/
def nextEvent (s : State) : Event :=
  match s.agenda with
  | [] => .engine
  | e :: _ => e

/-- The bound on the engine steps of any command from acceptance to completion. -/
def commandBound (l : Latched) : Nat :=
  6 * (opWidth l * opHeight l * opChannels l) + 3 * (opWidth l * opChannels l) + 4

/-! ### What is observable -/

/-- A state with the state that no agent can observe blanked: the work memory, the accumulators and the latched set
(10_state.md R42, R43, R44). -/
def hideInternal (s : State) : State := { s with work := [], acc := [], latched := State.reset.latched }

/-- An outcome with the unobservable state blanked. -/
def observe (r : Result) : Result :=
  match r with
  | .next s => .next (hideInternal s)
  | .fault f => .fault f
  | .refused f => .refused f

end Sys2Proof.Machine
end

