-- ==== Sys2Proof/Certificates/Slice0/Obligations.lean ====
section
/-! DEFINITION. The statements about the machine, for the provers. Each is listed in OBLIGATIONS.json with the rule of spec/
it formalises or the sections it rests on. -/

open Sys2Proof Sys2Proof.Machine

/-! ### Command words -/

/-- R70: the four words of the opcode map, written out from the encoding column of spec/opcode_table.json, decode to
their commands; the decoder selects a command by comparing the whole word with them, and every other word, those of OP
0x4 to 0xF among them, selects none. -/
def Obligations.DecoderComparesTheWholeWord : Prop :=
  decode 0b00000000000000000000000000000000#32 = .ok .nop ∧
    decode 0b00000000000000000000000000000001#32 = .ok .solve ∧
    decode 0b00000000000000000000000000000010#32 = .ok .line ∧
    decode 0b00000000000000000000000000000011#32 = .ok .blur2d ∧
    encode .nop = 0x00000000#32 ∧ encode .solve = 0x00000001#32 ∧ encode .line = 0x00000002#32 ∧
    encode .blur2d = 0x00000003#32 ∧
    (∀ (w : Word) (i : Instr), decode w = .ok i ↔ w = encode i) ∧
    (∀ w : Word, 4 ≤ (opField w).toNat → decode w = .error .illegalCommand)

/-- R72: exactly the words with OP 0x4 to 0xF or a bit of 31:4 set are illegal; such a word is accepted like any other
(CMD holds it, BUSY is 1) and its CHECK step completes it with ILLEGAL_CMD, changing nothing else, whatever host steps
came between and whether or not an abort request is pending (R110, R111: a pre-check error wins). -/
def Obligations.IllegalWordEndsWithIllegalCmd : Prop :=
  (∀ w : Word, decode w = .error .illegalCommand ↔ 4 ≤ (opField w).toNat ∨ mbzField w ≠ 0#28) ∧
    (∀ (w : Word) (s : State), decode w = .error .illegalCommand → s.status.busy = false →
      hostStep (.wr 0x14 4 w) s = .next (accept w s) ∧ (accept w s).cmd = w ∧ (accept w s).status.busy = true ∧
        engineStep (accept w s) = .next (endedWith 1#4 (accept w s))) ∧
    (∀ s : State, s.status.busy = true → s.progress = .check →
      decode (latchedWord s.latched) = .error .illegalCommand → engineStep s = .next (endedWith 1#4 s))

/-! ### The step -/

/-- A step performs the next event of the agenda: a host step and a reset are taken off it and performed whole, and the
engine moves where none is listed (R61). An engine step of a busy block is exec of the command that the latched word
decodes to, or the CHECK step of an illegal word, which ends with ILLEGAL_CMD (R72), whether the agenda is empty or
names the engine (its event is then taken off), and an idle engine changes nothing (R121); the state with a command word
placed where the engine fetches runs that command next. (The agenda and the placing are the model's, logs 1 and 2.) -/
def Obligations.StepRunsTheFetchedCommand : Prop :=
  (∀ (s : State) (i : Instr), s.status.busy = true → decode (latchedWord s.latched) = .ok i →
    (s.agenda = [] → step s = exec i s) ∧
      ∀ rest, s.agenda = .engine :: rest → step s = exec i { s with agenda := rest }) ∧
    (∀ s : State, (s.agenda = [] → step s = engineStep s) ∧
      ∀ rest, s.agenda = .engine :: rest → step s = engineStep { s with agenda := rest }) ∧
    (∀ s : State, s.status.busy = true → s.progress = .check →
      decode (latchedWord s.latched) = .error .illegalCommand →
      (s.agenda = [] → step s = .next (endedWith 1#4 s)) ∧
        ∀ rest, s.agenda = .engine :: rest → step s = .next (endedWith 1#4 { s with agenda := rest })) ∧
    (∀ s : State, s.status.busy = false → (s.agenda = [] → step s = .next s) ∧
      ∀ rest, s.agenda = .engine :: rest → step s = .next { s with agenda := rest }) ∧
    (∀ (s : State) (rest : List Event),
      (∀ h, s.agenda = .host h :: rest → step s = hostStep h { s with agenda := rest }) ∧
        (s.agenda = .reset :: rest → step s = .next (resetBlock { s with agenda := rest }))) ∧
    (∀ (s : State) (w : Nat) (i : Instr), decodeTableWord 32 w = some i →
      step (s.withFetchWord 32 w) = exec i (s.withFetchWord 32 w))

/-! ### Host register accesses -/

/-- The registers by offset (R17): which register stands at which offset below 0x80, that a register starts at no other
offset, and what the registers read right after reset. -/
def Obligations.RegisterMapAfterReset : Prop :=
  (regAt 0x00 = some .id ∧ regAt 0x04 = some .cap ∧ regAt 0x08 = some .workWords ∧ regAt 0x0C = some .ctrl ∧
    regAt 0x10 = some .status ∧ regAt 0x14 = some .cmd ∧ regAt 0x18 = some .errAddr ∧ regAt 0x1C = some .lineCount ∧
    regAt 0x20 = some .sigma ∧ regAt 0x24 = some .src ∧ regAt 0x28 = some .dst ∧ regAt 0x2C = some .width ∧
    regAt 0x30 = some .height ∧ regAt 0x34 = some .channels ∧ regAt 0x38 = some .stride ∧ regAt 0x3C = some .srcStep ∧
    regAt 0x40 = some .dstStep ∧ regAt 0x44 = some .reserved44 ∧ regAt 0x48 = some .reserved48 ∧
    regAt 0x4C = some .reserved4C ∧ regAt 0x50 = some .sigmaEff ∧ regAt 0x54 = some .a0 ∧ regAt 0x58 = some .a1 ∧
    regAt 0x5C = some .a2 ∧ regAt 0x60 = some .a3 ∧ regAt 0x64 = some .b1 ∧ regAt 0x68 = some .b2 ∧
    regAt 0x6C = some .cprev ∧ regAt 0x70 = some .cnext ∧ regAt 0x74 = some .a0a1 ∧ regAt 0x78 = some .a2a3 ∧
    regAt 0x7C = some .b1b2) ∧
    (∀ r, regAt (regOffset r) = some r ∧ regOffset r % 4 = 0 ∧ regOffset r < 0x80) ∧
    (∀ offset r, regAt offset = some r → regOffset r = offset) ∧
    (∀ offset, offset < 0x80 → offset % 4 = 0 → ∃ r, regAt offset = some r ∧ regOffset r = offset) ∧
    readReg .id State.reset = 0x49495231#32 ∧
    (∀ r, r ≠ .id → r ≠ .cap → r ≠ .workWords → readReg r State.reset = 0#32)

/-- R19, R20, R21: the identification registers read their constants in every state. -/
def Obligations.IdentificationRegistersAreConstant : Prop :=
  ∀ s : State,
    readReg .id s = 0x49495231#32 ∧
      ((readReg .cap s).extractLsb' 0 8).toNat = Config.maxChannels ∧
      (4 ≤ Config.maxChannels ∧ Config.maxChannels ≤ 255) ∧
      (readReg .cap s).extractLsb' 8 8 = 0x01#8 ∧ (readReg .cap s).extractLsb' 16 16 = 0#16 ∧
      (readReg .workWords s).toNat = Config.workWords

/-- R18: reserved bits and words and the bits above a field read 0; a write to a reserved bit or to a bit above a field
is ignored; read-only and reserved words ignore a write; no field converts a value on write. -/
def Obligations.ReservedBitsReadZeroAndIgnoreWrites : Prop :=
  ∀ (s : State) (w : Word),
    (readReg .ctrl s &&& 0xFFFFFFFE#32 = 0#32 ∧ readReg .status s &&& 0xFFFFF0E0#32 = 0#32 ∧
      readReg .cap s &&& 0xFFFF0000#32 = 0#32 ∧ readReg .width s &&& 0xFFFF0000#32 = 0#32 ∧
      readReg .height s &&& 0xFFFF0000#32 = 0#32 ∧ readReg .channels s &&& 0xFFFFFF00#32 = 0#32 ∧
      readReg .reserved44 s = 0#32 ∧ readReg .reserved48 s = 0#32 ∧ readReg .reserved4C s = 0#32) ∧
    (writeReg .ctrl w s = writeReg .ctrl (w &&& 0x00000003#32) s ∧
      writeReg .status w s = writeReg .status (w &&& 0x0000000E#32) s ∧
      writeReg .width w s = writeReg .width (w &&& 0x0000FFFF#32) s ∧
      writeReg .height w s = writeReg .height (w &&& 0x0000FFFF#32) s ∧
      writeReg .channels w s = writeReg .channels (w &&& 0x000000FF#32) s) ∧
    (∀ r ∈ [Reg.id, .cap, .workWords, .errAddr, .lineCount, .reserved44, .reserved48, .reserved4C, .sigmaEff, .a0, .a1,
      .a2, .a3, .b1, .b2, .cprev, .cnext, .a0a1, .a2a3, .b1b2], writeReg r w s = s) ∧
    (∀ r ∈ [Reg.sigma, .src, .dst, .stride, .srcStep, .dstStep], readReg r (writeReg r w s) = w) ∧
    readReg .width (writeReg .width w s) = w &&& 0x0000FFFF#32 ∧
    readReg .height (writeReg .height w s) = w &&& 0x0000FFFF#32 ∧
    readReg .channels (writeReg .channels w s) = w &&& 0x000000FF#32

/-- R103: the effect of a host write of w on every register, the write of CMD being R97 or R98. -/
def Obligations.HostWriteEffects : Prop :=
  ∀ (s : State) (w : Word),
    (∀ r ∈ [Reg.id, .cap, .workWords, .errAddr, .lineCount, .reserved44, .reserved48, .reserved4C, .sigmaEff, .a0, .a1,
      .a2, .a3, .b1, .b2, .cprev, .cnext, .a0a1, .a2a3, .b1b2], hostStep (.wr (regOffset r) 4 w) s = .next s) ∧
    hostStep (.wr 0x0C 4 w) s =
      .next { s with ie := w.getLsbD 0, abortReq := s.abortReq || (w.getLsbD 1 && s.status.busy) } ∧
    hostStep (.wr 0x10 4 w) s =
      .next { s with status :=
        { s.status with
          done := s.status.done && !w.getLsbD 1
          err := s.status.err && !w.getLsbD 2
          errcode := if w.getLsbD 2 then 0#4 else s.status.errcode
          ovr := s.status.ovr && !w.getLsbD 3 } } ∧
    (s.status.busy = false → hostStep (.wr 0x14 4 w) s = .next (accept w s)) ∧
    (s.status.busy = true →
      hostStep (.wr 0x14 4 w) s = .next { s with status := { s.status with ovr := true } }) ∧
    hostStep (.wr 0x20 4 w) s = .next { s with params := { s.params with sigma := w } } ∧
    hostStep (.wr 0x24 4 w) s = .next { s with params := { s.params with src := w } } ∧
    hostStep (.wr 0x28 4 w) s = .next { s with params := { s.params with dst := w } } ∧
    hostStep (.wr 0x2C 4 w) s = .next { s with params := { s.params with width := w.extractLsb' 0 16 } } ∧
    hostStep (.wr 0x30 4 w) s = .next { s with params := { s.params with height := w.extractLsb' 0 16 } } ∧
    hostStep (.wr 0x34 4 w) s = .next { s with params := { s.params with channels := w.extractLsb' 0 8 } } ∧
    hostStep (.wr 0x38 4 w) s = .next { s with params := { s.params with stride := w } } ∧
    hostStep (.wr 0x3C 4 w) s = .next { s with params := { s.params with srcStep := w } } ∧
    hostStep (.wr 0x40 4 w) s = .next { s with params := { s.params with dstStep := w } }

/-- R102: a host read delivers the register's current value, reserved bits and the bits above a field as 0, and changes
no register, no hidden state and no memory. (`hostReads` is the record of what was delivered to the host, log 24.) -/
def Obligations.HostReadsHaveNoSideEffect : Prop :=
  ∀ (s : State) (r : Reg),
    hostStep (.rd (regOffset r) 4) s = .next { s with hostReads := readReg r s :: s.hostReads } ∧
    readReg r s =
      match r with
      | .id => 0x49495231#32
      | .cap => 0x0000#16 ++ 0x01#8 ++ BitVec.ofNat 8 Config.maxChannels
      | .workWords => BitVec.ofNat 32 Config.workWords
      | .ctrl => if s.ie then 1#32 else 0#32
      | .status =>
        BitVec.ofNat 32 (s.status.busy.toNat + 2 * s.status.done.toNat + 4 * s.status.err.toNat +
          8 * s.status.ovr.toNat + 16 * s.status.coefValid.toNat + 256 * s.status.errcode.toNat)
      | .cmd => s.cmd
      | .errAddr => s.errAddr
      | .lineCount => s.lineCount
      | .sigma => s.params.sigma
      | .src => s.params.src
      | .dst => s.params.dst
      | .width => BitVec.ofNat 32 s.params.width.toNat
      | .height => BitVec.ofNat 32 s.params.height.toNat
      | .channels => BitVec.ofNat 32 s.params.channels.toNat
      | .stride => s.params.stride
      | .srcStep => s.params.srcStep
      | .dstStep => s.params.dstStep
      | .reserved44 | .reserved48 | .reserved4C => 0#32
      | .sigmaEff => s.coefs.sigmaEff
      | .a0 => s.coefs.a0
      | .a1 => s.coefs.a1
      | .a2 => s.coefs.a2
      | .a3 => s.coefs.a3
      | .b1 => s.coefs.b1
      | .b2 => s.coefs.b2
      | .cprev => s.coefs.cprev
      | .cnext => s.coefs.cnext
      | .a0a1 => s.coefs.a0a1
      | .a2a3 => s.coefs.a2a3
      | .b1b2 => s.coefs.b1b2

/-- Inside the register block a host access is performed when it is 32 bits wide and aligned, and refused otherwise (R50;
that the refusal comes at the access is the model's choice, log 16). -/
def Obligations.MalformedRegisterAccessIsRefused : Prop :=
  ∀ (offset size : Nat) (w : Word) (s : State), offset < 0x80 →
    (size ≠ 4 ∨ offset % 4 ≠ 0 →
      hostStep (.wr offset size w) s = .refused (.malformedRegisterAccess offset size) ∧
        hostStep (.rd offset size) s = .refused (.malformedRegisterAccess offset size)) ∧
    (size = 4 → offset % 4 = 0 →
      ∃ r, regOffset r = offset ∧ hostStep (.wr offset size w) s = .next (writeReg r w s) ∧
        hostStep (.rd offset size) s = .next { s with hostReads := readReg r s :: s.hostReads })

/-- R97: acceptance, whole: what the step sets and what it leaves; the interrupt falls; the next engine step is the CHECK
step of the command that the word selects; and no other step starts a command. -/
def Obligations.AcceptanceStartsTheCommand : Prop :=
  (∀ (w : Word) (s : State), s.status.busy = false →
    hostStep (.wr 0x14 4 w) s = .next
      { s with
        cmd := w
        latched := { op := w.extractLsb' 0 4, mbz := w.extractLsb' 4 28, params := s.params }
        status := ⟨true, false, false, s.status.ovr, s.status.coefValid, 0#4⟩
        errAddr := 0#32
        lineCount := 0#32
        abortReq := false
        progress := .check } ∧
    irq (accept w s) = false ∧
    (∀ i, decode w = .ok i → engineStep (accept w s) = exec i (accept w s)) ∧
    (decode w = .error .illegalCommand → engineStep (accept w s) = .next (endedWith 1#4 (accept w s)))) ∧
  (∀ s t : State, step s = .next t → s.status.busy = false → t.status.busy = true →
    ∃ w rest, s.agenda = .host (.wr 0x14 4 w) :: rest ∧ t = accept w { s with agenda := rest })

/-- R98: a CMD write while busy is dropped and sets OVR; OVR stays 1 until a STATUS write with bit 3 (or reset). -/
def Obligations.CmdWriteWhileBusyIsDropped : Prop :=
  (∀ (w : Word) (s : State), s.status.busy = true →
    hostStep (.wr 0x14 4 w) s = .next { s with status := { s.status with ovr := true } }) ∧
  (∀ s t : State, step s = .next t → s.status.ovr = true → t.status.ovr = false →
    ∃ rest, (∃ w, w.getLsbD 3 = true ∧ s.agenda = .host (.wr 0x10 4 w) :: rest) ∨ s.agenda = .reset :: rest)

/-- R99: while a command runs no other is accepted: after any step that is not a reset the same word and operands are
latched and BUSY is 1, or the command has completed. -/
def Obligations.OneCommandRunsToCompletion : Prop :=
  ∀ s t : State, step s = .next t → s.status.busy = true → nextEvent s ≠ .reset →
    t.latched = s.latched ∧ t.cmd = s.cmd ∧
      (t.status.busy = true ∨ (t.status.done = true ∧ t.progress = .idle ∧ nextEvent s = .engine))

/-- R28: the host may write and read a parameter register at any time, and a read returns the last value written, cut to
its field; acceptance copies the nine registers; only a host write (or reset) changes one, so no command does; and no
engine step depends on them. -/
def Obligations.RunningCommandIgnoresParameterRegisters : Prop :=
  (∀ (s : State) (w : Word), ∀ r ∈ [Reg.sigma, .src, .dst, .width, .height, .channels, .stride, .srcStep, .dstStep],
    ∃ t, hostStep (.wr (regOffset r) 4 w) s = .next t ∧
      readReg r t = w &&& (if r = .width ∨ r = .height then 0x0000FFFF#32 else if r = .channels then 0x000000FF#32
        else 0xFFFFFFFF#32) ∧
      (∀ r', r' ≠ r → readReg r' t = readReg r' s) ∧
      hostStep (.rd (regOffset r) 4) t = .next { t with hostReads := readReg r t :: t.hostReads }) ∧
  (∀ (s : State) (w : Word), (accept w s).latched.params = s.params ∧ (accept w s).params = s.params) ∧
  (∀ s t : State, step s = .next t → t.params ≠ s.params →
    ∃ rest, s.agenda = .reset :: rest ∨
      ∃ r w, s.agenda = .host (.wr (regOffset r) 4 w) :: rest ∧ t.params = writeParam r w s.params) ∧
  (∀ (s : State) (ps : Params),
    engineStep { s with params := ps } = mapNext (fun t => { t with params := ps }) (engineStep s))

/-- R112: the interrupt is IE and DONE; it rises with IE = 1 at completion, falls at acceptance and when DONE is cleared,
IE = 0 masks it and keeps DONE; and only an engine step that ends the running command sets DONE. -/
def Obligations.InterruptIsLevelOfDone : Prop :=
  (∀ s : State, irq s = (s.ie && s.status.done)) ∧
  (∀ (s : State) (code : ErrCode) (info : Word), irq (complete code info s) = s.ie) ∧
  (∀ (s : State) (w : Word), irq (accept w s) = false ∧ (w.getLsbD 1 = true → irq (writeReg .status w s) = false)) ∧
  (∀ (s : State) (w : Word), w.getLsbD 0 = false →
    irq (writeReg .ctrl w s) = false ∧ (writeReg .ctrl w s).status.done = s.status.done) ∧
  (∀ s t : State, step s = .next t → s.status.done = false → t.status.done = true →
    nextEvent s = .engine ∧ s.status.busy = true ∧ t.status.busy = false)

/-! ### Reset -/

/-- R122: what reset leaves, in State.reset and after a reset step in any state: every register of the table, idle, no
abort request, no interrupt; system memory unchanged; and the first CMD write is accepted. (The latched set, the work
memory and the accumulators are unspecified there; nothing is said of them.) -/
def Obligations.ResetLeavesTheResetValues : Prop :=
  ∀ s t : State, (t = State.reset ∨ t = resetBlock s) →
    readReg .id t = 0x49495231#32 ∧ readReg .cap t = capWord ∧
      (readReg .workWords t).toNat = Config.workWords ∧
      (∀ r, r ≠ .id → r ≠ .cap → r ≠ .workWords → readReg r t = 0#32) ∧
      t.ie = false ∧ t.status = ⟨false, false, false, false, false, 0#4⟩ ∧ t.abortReq = false ∧ t.progress = .idle ∧ irq t = false ∧
      (resetBlock s).mem = s.mem ∧ (∀ w, hostStep (.wr 0x14 4 w) t = .next (accept w t))

/-! ### Memory -/

/-- R49, R52, R53: a word lies little-endian in its four bytes, a store is read back, and every other byte stays; the
same for the host's narrower stores. -/
def Obligations.WordsAreLittleEndian : Prop :=
  ∀ (m : List Host.Cell) (a : Nat) (v : Word),
    readByte (writeWord m a v) a = v.extractLsb' 0 8 ∧ readByte (writeWord m a v) (a + 1) = v.extractLsb' 8 8 ∧
      readByte (writeWord m a v) (a + 2) = v.extractLsb' 16 8 ∧
      readByte (writeWord m a v) (a + 3) = v.extractLsb' 24 8 ∧
      readWord m a = readByte m (a + 3) ++ readByte m (a + 2) ++ readByte m (a + 1) ++ readByte m a ∧
      readWord (writeWord m a v) a = v ∧ sameBytesOutside a 4 m (writeWord m a v) ∧
      (∀ n, n ≤ 4 → sameBytesOutside a n m (writeBytes m a v n) ∧
        ∀ k, k < n → readByte (writeBytes m a v n) (a + k) = v.extractLsb' (8 * k) 8)

/-- A host store or load of 1, 2 or 4 bytes: outside the address space it faults; where it touches memory with side
effects it is refused (R55); anywhere else it is performed, unless it is a store that touches a sample of the running
command, which is refused (R63 item 2). The fault, the refusals at the access and the accesses allowed at any byte
address are the model's choices, logs 17, 18 and 19. -/
def Obligations.HostMemoryAccesses : Prop :=
  ∀ (s : State) (a : Nat) (width : Width) (v : Word),
    (2 ^ 32 < a + widthBytes width →
      hostStep (.ld a width) s = .fault (.noSuchAddress a) ∧ hostStep (.mem a width v) s = .fault (.noSuchAddress a)) ∧
    (a + widthBytes width ≤ 2 ^ 32 → hasSideEffects s.platform a (widthBytes width) = true →
      hostStep (.ld a width) s = .refused (.sideEffectMemory a) ∧
        hostStep (.mem a width v) s = .refused (.sideEffectMemory a)) ∧
    (a + widthBytes width ≤ 2 ^ 32 → hasSideEffects s.platform a (widthBytes width) = false →
      hostStep (.ld a width) s =
          .next { s with hostReads := loadBytes s.mem a (widthBytes width) :: s.hostReads } ∧
        loadBytes s.mem a 4 = readWord s.mem a ∧
        ((s.status.busy = true ∧ ∃ k, k < widthBytes width ∧
            (isSourceByte s.latched (a + k) = true ∨ isDestByte s.latched (a + k) = true)) →
          hostStep (.mem a width v) s = .refused (.hostWriteWhileBusy a)) ∧
        (¬ (s.status.busy = true ∧ ∃ k, k < widthBytes width ∧
            (isSourceByte s.latched (a + k) = true ∨ isDestByte s.latched (a + k) = true)) →
          hostStep (.mem a width v) s = .next { s with mem := writeBytes s.mem a v (widthBytes width) }))

/-- The footprint of LINE and BLUR2D (R58): the bytes of the samples, by address, for all operands, those that the
pre-check will refuse included; NOP, SOLVE and an illegal word have none. -/
def Obligations.FootprintIsTheSamples : Prop :=
  ∀ (s : State) (a : Nat),
    (latchedIs .line s →
      (isDestByte s.latched a = true ↔ ∃ i c k, i < opWidth s.latched ∧ c < opChannels s.latched ∧ k < 4 ∧
        a = lineDstAddress s.latched i c + k) ∧
      (isSourceByte s.latched a = true ↔ ∃ i c k, i < opWidth s.latched ∧ c < opChannels s.latched ∧ k < 4 ∧
        a = lineSrcAddress s.latched i c + k)) ∧
    (latchedIs .blur2d s →
      (isDestByte s.latched a = true ↔ ∃ y x c k, y < opHeight s.latched ∧ x < opWidth s.latched ∧
        c < opChannels s.latched ∧ k < 4 ∧ a = blurDstAddress s.latched y x c + k) ∧
      (isSourceByte s.latched a = true ↔ ∃ y x c k, y < opHeight s.latched ∧ x < opWidth s.latched ∧
        c < opChannels s.latched ∧ k < 4 ∧ a = blurSrcAddress s.latched y x c + k)) ∧
    (¬ latchedIs .line s → ¬ latchedIs .blur2d s →
      isDestByte s.latched a = false ∧ isSourceByte s.latched a = false)

/-! ### NOP and SOLVE -/

/-- NOP (R100), from acceptance: its CHECK step completes it (in the same step: the model's choice, log 4) with BUSY 0,
DONE 1, ERR 0, ERRCODE 0 and LINE_COUNT 0 and changes nothing else; with an abort request pending it ends with ABORTED;
from reset STATUS then reads 0x00000002. -/
def Obligations.NopCompletes : Prop :=
  encode .nop = 0x00000000#32 ∧
  (∀ s : State,
    exec .nop (accept (encode .nop) s) = .next
      { accept (encode .nop) s with
        status := ⟨false, true, false, s.status.ovr, s.status.coefValid, 0#4⟩
        lineCount := 0#32
        errAddr := 0#32
        abortReq := false
        progress := .idle } ∧
    exec .nop { accept (encode .nop) s with abortReq := true } = .next
      { accept (encode .nop) s with
        status := ⟨false, true, true, s.status.ovr, s.status.coefValid, 10#4⟩
        lineCount := 0#32
        errAddr := 0#32
        abortReq := false
        progress := .idle }) ∧
  (∀ s : State, s.progress = .check → s.abortReq = false → exec .nop s = .next (endedClean s)) ∧
  (∃ t, exec .nop (accept (encode .nop) State.reset) = .next t ∧ readReg .status t = 0x00000002#32)

/-- SOLVE (R80): CHECK goes on to step SOLVE; step SOLVE writes the twelve coefficient registers with Coef(L.SIGMA),
sets COEF_VALID and completes, in one step; a pending abort request at either ends it with ABORTED and the coefficients
as they were (which effects share a step: log 4). Coef is the evaluation of R78 with the hardware's FEXP, each of the
twelve registers written out. -/
def Obligations.SolveCompletes : Prop :=
  ∀ s : State,
    (s.progress = .check → s.abortReq = false → exec .solve s = .next { s with progress := .solve }) ∧
    (s.progress = .solve → s.abortReq = false →
      exec .solve s = .next
        (endedClean { s with coefs := coef s.latched.params.sigma, status := { s.status with coefValid := true } })) ∧
    (s.progress = .check ∨ s.progress = .solve → s.abortReq = true → exec .solve s = .next (endedWith 10#4 s)) ∧
    (execN .solve 2 (accept (encode .solve) s) = .next
      { accept (encode .solve) s with
        coefs := coef s.params.sigma
        status := ⟨false, true, false, s.status.ovr, true, 0#4⟩
        progress := .idle }) ∧
    (∀ sigma : F32, coef sigma = coefWith fexp sigma) ∧
    (∀ (f : F32 → F32) (sigma : F32),
      let sg := clampSigma sigma
      let alpha := fdiv 0x3FD8D412#32 sg
      let lambda := f (fneg alpha)
      let b2 := f (fneg (fmul 0x40000000#32 alpha))
      let t := fsub 0x3F800000#32 lambda
      let den := fsub (fadd 0x3F800000#32 (fmul (fmul 0x40000000#32 alpha) lambda)) b2
      let k := fdiv (fmul t t) den
      let a1 := fmul (fmul k (fsub alpha 0x3F800000#32)) lambda
      let a2 := fmul (fmul k (fadd alpha 0x3F800000#32)) lambda
      let a3 := fneg (fmul k b2)
      let b1 := fneg (fmul 0x40000000#32 lambda)
      let d := fadd (fadd 0x3F800000#32 b1) b2
      (coefWith f sigma).sigmaEff = sg ∧ (coefWith f sigma).a0 = k ∧ (coefWith f sigma).a1 = a1 ∧
        (coefWith f sigma).a2 = a2 ∧ (coefWith f sigma).a3 = a3 ∧ (coefWith f sigma).b1 = b1 ∧
        (coefWith f sigma).b2 = b2 ∧ (coefWith f sigma).cprev = fdiv (fadd k a1) d ∧
        (coefWith f sigma).cnext = fdiv (fadd a2 a3) d ∧ (coefWith f sigma).a0a1 = fadd k a1 ∧
        (coefWith f sigma).a2a3 = fadd a2 a3 ∧ (coefWith f sigma).b1b2 = fadd b1 b2)

/-- R75: the floor on sigma, over the values of the words. -/
def Obligations.SigmaFloor : Prop :=
  ∀ sigma : F32,
    (fIsNaN sigma = true → clampSigma sigma = 0x3F000000#32) ∧
    (fIsFinite sigma = true → clampSigma sigma = if (1 / 2 : ℚ) ≤ fRat sigma then sigma else 0x3F000000#32) ∧
    clampSigma 0x7F800000#32 = 0x7F800000#32 ∧ clampSigma 0xFF800000#32 = 0x3F000000#32

/-- R84: every sigma at or below 0.5, and every NaN, gives exactly the coefficients of 0.5, for every exponential. -/
def Obligations.SolveBelowTheFloor : Prop :=
  ∀ (f : F32 → F32) (sigma : F32),
    (fIsNaN sigma = true ∨ sigma = 0xFF800000#32 ∨ (fIsFinite sigma = true ∧ fRat sigma ≤ 1 / 2)) →
    coefWith f sigma = coefWith f 0x3F000000#32

/-- The coefficients of sigma = +inf (R81), for every exponential with FEXP(-0) = 1.0 (law L1), the hardware's among
them. -/
def Obligations.CoefficientsAtInfinity : Prop :=
  (∀ f : F32 → F32, f 0x80000000#32 = 0x3F800000#32 → coefWith f 0x7F800000#32 =
    { sigmaEff := 0x7F800000#32
      a0 := 0x7FC00000#32
      a1 := 0x7FC00000#32
      a2 := 0x7FC00000#32
      a3 := 0x7FC00000#32
      b1 := 0xC0000000#32
      b2 := 0x3F800000#32
      cprev := 0x7FC00000#32
      cnext := 0x7FC00000#32
      a0a1 := 0x7FC00000#32
      a2a3 := 0x7FC00000#32
      b1b2 := 0xBF800000#32 }) ∧
  fexp 0x00000000#32 = 0x3F800000#32 ∧ fexp 0x80000000#32 = 0x3F800000#32

/-- The hardware's FEXP meets laws L1 to L3 of R77, as the model reads them: the unit in the last place of L2 is taken
as that of the binade of e^x, which the spec does not say (the model's choice, log 12). For every exponential that does
and every sigma, SOLVE applies it inside its domain, and the register B2 is positive, finite and at most 1.0. -/
def Obligations.LawfulExponentialBoundsB2 : Prop :=
  FexpLaws fexp ∧ ∀ (f : F32 → F32) (sigma : F32), FexpLaws f →
    fexpArgument (fneg (fdiv Config.e0 (clampSigma sigma))) ∧
      fexpArgument (fneg (fmul fTwo (fdiv Config.e0 (clampSigma sigma)))) ∧
      fIsFinite (coefWith f sigma).b2 = true ∧ 0 < fInt (coefWith f sigma).b2 ∧
      fInt (coefWith f sigma).b2 ≤ fInt fOne

/-! ### Pre-checks -/

/-- The CHECK step of LINE (R107, R89): the first condition that holds ends the command with its code, in this same step
(log 4), and changes nothing else; where none holds a pending abort ends it with ABORTED, and otherwise the line pass
starts. -/
def Obligations.LineCheckStep : Prop :=
  ∀ s : State, s.progress = .check →
    let N := s.latched.params.width.toNat
    let C := s.latched.params.channels.toNat
    let src := s.latched.params.src.toNat
    let dst := s.latched.params.dst.toNat
    let ss := s.latched.params.srcStep.toNat
    let ds := s.latched.params.dstStep.toNat
    let srcEnd := src + 4 * ((N - 1) * ss + C)
    let dstEnd := dst + 4 * ((N - 1) * ds + C)
    exec .line s =
      if s.status.coefValid = false then .next (endedWith 2#4 s)
      else if N = 0 ∨ C = 0 ∨ C > Config.maxChannels then .next (endedWith 3#4 s)
      else if ss < C ∨ ds < C then .next (endedWith 4#4 s)
      else if src % 4 ≠ 0 ∨ dst % 4 ≠ 0 then .next (endedWith 5#4 s)
      else if srcEnd > 2 ^ 32 ∨ dstEnd > 2 ^ 32 then .next (endedWith 6#4 s)
      else if (src < dstEnd ∧ dst < srcEnd) ∧ ¬ (src = dst ∧ ss = ds) then .next (endedWith 7#4 s)
      else if N * C > Config.workWords then .next (endedWith 8#4 s)
      else if s.abortReq = true then .next (endedWith 10#4 s)
      else .next { s with progress := .lpass { phase := .forward, i := 0, c := 0 } }

/-- The CHECK step of BLUR2D (R107, R93): as that of LINE, with BLUR2D's conditions (log 4). -/
def Obligations.BlurCheckStep : Prop :=
  ∀ s : State, s.progress = .check →
    let W := s.latched.params.width.toNat
    let H := s.latched.params.height.toNat
    let C := s.latched.params.channels.toNat
    let src := s.latched.params.src.toNat
    let dst := s.latched.params.dst.toNat
    let st := s.latched.params.stride.toNat
    exec .blur2d s =
      if W = 0 ∨ H = 0 ∨ C = 0 ∨ C > Config.maxChannels then .next (endedWith 3#4 s)
      else if st < W * C then .next (endedWith 4#4 s)
      else if src % 4 ≠ 0 ∨ dst % 4 ≠ 0 then .next (endedWith 5#4 s)
      else if src + 4 * ((H - 1) * st + W * C) > 2 ^ 32 ∨ dst + 4 * ((H - 1) * st + W * C) > 2 ^ 32 then
        .next (endedWith 6#4 s)
      else if max W H * C + W * H * C > Config.workWords then .next (endedWith 8#4 s)
      else if s.abortReq = true then .next (endedWith 10#4 s)
      else .next { s with progress := .solve }

/-! ### The steps of LINE -/

/-- The forward step of LINE (R88, R89; one sample a step, log 3): it reads source sample (i, c), seeds the accumulator
by the first sample, and writes the accumulator and the scratch word; memory and every register stay. -/
def Obligations.LineForwardStep : Prop :=
  ∀ (s : State) (i c : Nat), s.progress = .lpass { phase := .forward, i := i, c := c } → s.abortReq = false →
    portAddressOk (lineSrcAddress s.latched i c) = true → readAnswers s.platform (lineSrcAddress s.latched i c) →
    let v := readWord s.mem (lineSrcAddress s.latched i c)
    let prev := if i = 0 then fmul v s.coefs.cprev else readCell s.acc c
    let acc := fsub (fmul v s.coefs.a0a1) (fmul prev s.coefs.b1b2)
    exec .line s = .next
      { s with
        acc := writeCell s.acc c acc
        work := writeCell s.work (i * opChannels s.latched + c) acc
        progress := .lpass
          (if c + 1 < opChannels s.latched then { phase := .forward, i := i, c := c + 1 }
           else if i + 1 < opWidth s.latched then { phase := .forward, i := i + 1, c := 0 }
           else { phase := .backward, i := opWidth s.latched - 1, c := 0 }) }

/-- The backward step of LINE (R88, R89; log 3): it reads source sample (i, c) again, seeds the accumulator by the last
sample, and adds it to the scratch word; memory and every register stay. -/
def Obligations.LineBackwardStep : Prop :=
  ∀ (s : State) (i c : Nat), s.progress = .lpass { phase := .backward, i := i, c := c } → s.abortReq = false →
    portAddressOk (lineSrcAddress s.latched i c) = true → readAnswers s.platform (lineSrcAddress s.latched i c) →
    let v := readWord s.mem (lineSrcAddress s.latched i c)
    let prev := if i = opWidth s.latched - 1 then fmul v s.coefs.cnext else readCell s.acc c
    let acc := fsub (fmul v s.coefs.a2a3) (fmul prev s.coefs.b1b2)
    let k := i * opChannels s.latched + c
    exec .line s = .next
      { s with
        acc := writeCell s.acc c acc
        work := writeCell s.work k (fadd (readCell s.work k) acc)
        progress := .lpass
          (if c + 1 < opChannels s.latched then { phase := .backward, i := i, c := c + 1 }
           else { phase := .deliver, i := i, c := 0 }) }

/-- The deliver step of LINE (R88, R89; log 3): it writes the scratch word to destination sample (i, c) and to no other
byte; after the line's last sample LINE_COUNT goes up by 1 and only the completion, a step of its own (log 5), is left.
-/
def Obligations.LineDeliverStep : Prop :=
  ∀ (s : State) (i c : Nat), s.progress = .lpass { phase := .deliver, i := i, c := c } → s.abortReq = false →
    portAddressOk (lineDstAddress s.latched i c) = true → writeAnswers s.platform (lineDstAddress s.latched i c) →
    let a := lineDstAddress s.latched i c
    let v := readCell s.work (i * opChannels s.latched + c)
    ∃ t, exec .line s = .next t ∧ readWord t.mem a = v ∧ sameBytesOutside a 4 s.mem t.mem ∧
      t = (if c + 1 < opChannels s.latched then
            { s with mem := t.mem, progress := .lpass { phase := .deliver, i := i, c := c + 1 } }
          else if i = 0 then { s with mem := t.mem, lineCount := s.lineCount + 1#32, progress := .finish }
          else { s with mem := t.mem, progress := .lpass { phase := .backward, i := i - 1, c := 0 } })

/-! ### The steps of BLUR2D -/

/-- Step SOLVE of BLUR2D (R93): the coefficient-set update from L.SIGMA, COEF_VALID 1, and the horizontal pass starts. -/
def Obligations.BlurSolveStep : Prop :=
  ∀ s : State, s.progress = .solve → s.abortReq = false →
    exec .blur2d s = .next
      { s with
        coefs := coef s.latched.params.sigma
        status := { s.status with coefValid := true }
        progress := .hpass 0 { phase := .forward, i := 0, c := 0 } }

/-- The reading steps of the horizontal pass of BLUR2D (R93; log 3): as those of LINE, on row y of the source plane. -/
def Obligations.BlurRowReadSteps : Prop :=
  ∀ (s : State) (y i c : Nat), s.abortReq = false →
    portAddressOk (blurSrcAddress s.latched y i c) = true → readAnswers s.platform (blurSrcAddress s.latched y i c) →
    let v := readWord s.mem (blurSrcAddress s.latched y i c)
    let k := i * opChannels s.latched + c
    (s.progress = .hpass y { phase := .forward, i := i, c := c } →
      let acc := fsub (fmul v s.coefs.a0a1)
        (fmul (if i = 0 then fmul v s.coefs.cprev else readCell s.acc c) s.coefs.b1b2)
      exec .blur2d s = .next
        { s with
          acc := writeCell s.acc c acc
          work := writeCell s.work k acc
          progress := .hpass y
            (if c + 1 < opChannels s.latched then { phase := .forward, i := i, c := c + 1 }
             else if i + 1 < opWidth s.latched then { phase := .forward, i := i + 1, c := 0 }
             else { phase := .backward, i := opWidth s.latched - 1, c := 0 }) }) ∧
    (s.progress = .hpass y { phase := .backward, i := i, c := c } →
      let acc := fsub (fmul v s.coefs.a2a3)
        (fmul (if i = opWidth s.latched - 1 then fmul v s.coefs.cnext else readCell s.acc c) s.coefs.b1b2)
      exec .blur2d s = .next
        { s with
          acc := writeCell s.acc c acc
          work := writeCell s.work k (fadd (readCell s.work k) acc)
          progress := .hpass y
            (if c + 1 < opChannels s.latched then { phase := .backward, i := i, c := c + 1 }
             else { phase := .deliver, i := i, c := 0 }) })

/-- The delivering step of the horizontal pass (R93; log 3): the scratch word goes to the transpose cache at
S + i*H*C + y*C + c, memory stays, and after the row's last sample LINE_COUNT goes up by 1 and the next row, or the
vertical pass, starts. -/
def Obligations.BlurRowDeliverStep : Prop :=
  ∀ (s : State) (y i c : Nat), s.abortReq = false → s.progress = .hpass y { phase := .deliver, i := i, c := c } →
    let C := opChannels s.latched
    let H := opHeight s.latched
    let S := max (opWidth s.latched) H * C
    let s' := { s with work := writeCell s.work (S + i * H * C + y * C + c) (readCell s.work (i * C + c)) }
    exec .blur2d s = .next
      (if c + 1 < C then { s' with progress := .hpass y { phase := .deliver, i := i, c := c + 1 } }
       else if i = 0 then
        { s' with
          lineCount := s.lineCount + 1#32
          progress := if y + 1 < H then .hpass (y + 1) { phase := .forward, i := 0, c := 0 }
            else .vpass 0 { phase := .forward, i := 0, c := 0 } }
       else { s' with progress := .hpass y { phase := .backward, i := i - 1, c := 0 } })

/-- The recursion steps of the vertical pass (R93; log 3): they obtain sample (i, c) of column x from the transpose
cache and touch no memory. -/
def Obligations.BlurColumnSteps : Prop :=
  ∀ (s : State) (x i c : Nat), s.abortReq = false →
    let C := opChannels s.latched
    let H := opHeight s.latched
    let v := readCell s.work (max (opWidth s.latched) H * C + x * H * C + i * C + c)
    let k := i * C + c
    (s.progress = .vpass x { phase := .forward, i := i, c := c } →
      let acc := fsub (fmul v s.coefs.a0a1)
        (fmul (if i = 0 then fmul v s.coefs.cprev else readCell s.acc c) s.coefs.b1b2)
      exec .blur2d s = .next
        { s with
          acc := writeCell s.acc c acc
          work := writeCell s.work k acc
          progress := .vpass x
            (if c + 1 < C then { phase := .forward, i := i, c := c + 1 }
             else if i + 1 < H then { phase := .forward, i := i + 1, c := 0 }
             else { phase := .backward, i := H - 1, c := 0 }) }) ∧
    (s.progress = .vpass x { phase := .backward, i := i, c := c } →
      let acc := fsub (fmul v s.coefs.a2a3)
        (fmul (if i = H - 1 then fmul v s.coefs.cnext else readCell s.acc c) s.coefs.b1b2)
      exec .blur2d s = .next
        { s with
          acc := writeCell s.acc c acc
          work := writeCell s.work k (fadd (readCell s.work k) acc)
          progress := .vpass x
            (if c + 1 < C then { phase := .backward, i := i, c := c + 1 }
             else { phase := .deliver, i := i, c := 0 }) })

/-- The delivering step of the vertical pass (R93; log 3): it writes the scratch word to destination sample (i, x, c)
and to no other byte; after the column's last sample LINE_COUNT goes up by 1 and the next column starts, or only the
completion is left. -/
def Obligations.BlurColumnDeliverStep : Prop :=
  ∀ (s : State) (x i c : Nat), s.abortReq = false → s.progress = .vpass x { phase := .deliver, i := i, c := c } →
    portAddressOk (blurDstAddress s.latched i x c) = true → writeAnswers s.platform (blurDstAddress s.latched i x c) →
    let a := blurDstAddress s.latched i x c
    let C := opChannels s.latched
    ∃ t, exec .blur2d s = .next t ∧ readWord t.mem a = readCell s.work (i * C + c) ∧
      sameBytesOutside a 4 s.mem t.mem ∧
      t = (if c + 1 < C then
            { s with mem := t.mem, progress := .vpass x { phase := .deliver, i := i, c := c + 1 } }
          else if i = 0 then
            { s with
              mem := t.mem
              lineCount := s.lineCount + 1#32
              progress := if x + 1 < opWidth s.latched then .vpass (x + 1) { phase := .forward, i := 0, c := 0 }
                else .finish }
          else { s with mem := t.mem, progress := .vpass x { phase := .backward, i := i - 1, c := 0 } })

/-- The completion step of LINE and BLUR2D after their last access (R108; a step of its own, log 5): BUSY 0, DONE 1, the
rest as it was, an abort request that came too late included in what is cleared (R110). -/
def Obligations.PassesComplete : Prop :=
  ∀ s : State, s.progress = .finish →
    exec .line s = .next (endedClean s) ∧ exec .blur2d s = .next (endedClean s)

/-! ### Errors during a command -/

/-- A bus error (R109): where the sample that a step of LINE or BLUR2D reads or writes fails, the step makes the
completion with BUS_ERROR and the access's address the next step. A failed read changes nothing else; a failed write
leaves its word with any value (a free value, log 11) and every other byte as it was; and an abort request does not take
the completion's place (log 5). A sample in memory with side effects is refused instead (R55, at the access: log 17).
The sample is the one that the reference access order names (`nextAccess`). -/
def Obligations.BusErrorEndsTheCommand : Prop :=
  (∀ (s : State) (i c : Nat), s.abortReq = false →
    (∀ ph, ph = .forward ∨ ph = .backward → s.progress = .lpass { phase := ph, i := i, c := c } →
      readStops s (lineSrcAddress s.latched i c) (exec .line s)) ∧
    (s.progress = .lpass { phase := .deliver, i := i, c := c } →
      writeStops s (lineDstAddress s.latched i c) (exec .line s)) ∧
    (∀ y ph, ph = .forward ∨ ph = .backward → s.progress = .hpass y { phase := ph, i := i, c := c } →
      readStops s (blurSrcAddress s.latched y i c) (exec .blur2d s)) ∧
    (∀ x, s.progress = .vpass x { phase := .deliver, i := i, c := c } →
      writeStops s (blurDstAddress s.latched i x c) (exec .blur2d s))) ∧
  (∀ (s : State) (a : Word), s.progress = .busError a →
    exec .line s = .next { endedWith 9#4 s with errAddr := a } ∧
      exec .blur2d s = .next { endedWith 9#4 s with errAddr := a })

/-- The abort points (R110): at every step of a line pass, and at step SOLVE of SOLVE and BLUR2D, a pending request ends
the command with ABORTED, with no access and no coefficient update in that step. -/
def Obligations.AbortPointsEndTheCommand : Prop :=
  ∀ s : State, s.abortReq = true →
    (∀ p, s.progress = .lpass p → exec .line s = .next (endedWith 10#4 s)) ∧
    (∀ y p, s.progress = .hpass y p → exec .blur2d s = .next (endedWith 10#4 s)) ∧
    (∀ x p, s.progress = .vpass x p → exec .blur2d s = .next (endedWith 10#4 s)) ∧
    (s.progress = .solve → exec .blur2d s = .next (endedWith 10#4 s) ∧ exec .solve s = .next (endedWith 10#4 s))

/-! ### Whole runs -/

/-- A LINE that passes its pre-check, on samples that answer as ordinary memory and with no abort request, runs from
CHECK to completion in CHECK, three steps a sample and the completion (the model's steps, logs 3 and 5). Destination
sample (i, c) then holds y[i][c] of R85 for the source samples as they were at the start, every other byte of memory is
unchanged, LINE_COUNT has gone up by 1, and every other register is as it was. -/
def Obligations.LineRunWritesTheFilteredLine : Prop :=
  ∀ s : State, s.progress = .check → s.abortReq = false → lineCheck s = .noError →
    lineAnswers s.platform s.latched →
    ∃ t, execN .line (lineSteps s.latched) s = .next t ∧
      (∀ i c, i < opWidth s.latched → c < opChannels s.latched →
        readWord t.mem (lineDstAddress s.latched i c) =
          lineOut s.coefs (opWidth s.latched) (lineInput s.latched s.mem c) i) ∧
      (∀ a, (∀ i c, i < opWidth s.latched → c < opChannels s.latched →
          a < lineDstAddress s.latched i c ∨ lineDstAddress s.latched i c + 4 ≤ a) →
        readByte t.mem a = readByte s.mem a) ∧
      t = { s with
        status := { s.status with busy := false, done := true }
        lineCount := s.lineCount + 1#32
        work := t.work
        acc := t.acc
        mem := t.mem
        progress := .idle }

/-- A BLUR2D that passes its pre-check, on samples that answer as ordinary memory and with no abort request, runs from
CHECK to completion (the model's steps, logs 3 and 5). Destination sample (y, x, c) then holds out[y][x][c] of R94 for
the source plane as it was at the start, whatever the overlap of the planes; every other byte of memory is unchanged;
the coefficient registers hold Coef(L.SIGMA); LINE_COUNT has gone up by H + W; every other register is as it was. -/
def Obligations.BlurRunWritesTheBlurredPlane : Prop :=
  ∀ s : State, s.progress = .check → s.abortReq = false → blurCheck s = .noError →
    blurAnswers s.platform s.latched →
    ∃ t, execN .blur2d (blurSteps s.latched) s = .next t ∧
      (∀ y x c, y < opHeight s.latched → x < opWidth s.latched → c < opChannels s.latched →
        readWord t.mem (blurDstAddress s.latched y x c) =
          blurOut (coef s.latched.params.sigma) (opWidth s.latched) (opHeight s.latched)
            (blurInput s.latched s.mem c) y x) ∧
      (∀ a, (∀ y x c, y < opHeight s.latched → x < opWidth s.latched → c < opChannels s.latched →
          a < blurDstAddress s.latched y x c ∨ blurDstAddress s.latched y x c + 4 ≤ a) →
        readByte t.mem a = readByte s.mem a) ∧
      t = { s with
        status := { s.status with busy := false, done := true, coefValid := true }
        coefs := coef s.latched.params.sigma
        lineCount := s.lineCount + BitVec.ofNat 32 (opHeight s.latched + opWidth s.latched)
        work := t.work
        acc := t.acc
        mem := t.mem
        progress := .idle }

/-- In place equals out of place (R96 item 1): two BLUR2D runs that differ in DST only write the same samples. -/
def Obligations.BlurInPlaceEqualsOutOfPlace : Prop :=
  ∀ (s : State) (dst : Word),
    let l' := { s.latched with params := { s.latched.params with dst := dst } }
    let s' := { s with latched := l' }
    s.progress = .check → s.abortReq = false → blurCheck s = .noError → blurCheck s' = .noError →
    blurAnswers s.platform s.latched → blurAnswers s.platform l' →
    ∃ t t', execN .blur2d (blurSteps s.latched) s = .next t ∧ execN .blur2d (blurSteps l') s' = .next t' ∧
      ∀ y x c, y < opHeight s.latched → x < opWidth s.latched → c < opChannels s.latched →
        readWord t.mem (blurDstAddress s.latched y x c) = readWord t'.mem (blurDstAddress l' y x c)

/-- The accesses of a whole LINE are the reference access order (R62), 2*N*C reads and N*C writes (R127). -/
def Obligations.LineRunFollowsTheReferenceOrder : Prop :=
  ∀ s : State, s.progress = .check → s.abortReq = false → lineCheck s = .noError →
    lineAnswers s.platform s.latched →
    accessTrace .line (lineSteps s.latched) s = lineOrder s.latched ∧
      (lineOrder s.latched).countP isRead = 2 * (opWidth s.latched * opChannels s.latched) ∧
      (lineOrder s.latched).countP (fun a => !isRead a) = opWidth s.latched * opChannels s.latched

/-- The accesses of a whole BLUR2D are the reference access order (R62), 2*W*H*C reads and W*H*C writes (R127). -/
def Obligations.BlurRunFollowsTheReferenceOrder : Prop :=
  ∀ s : State, s.progress = .check → s.abortReq = false → blurCheck s = .noError →
    blurAnswers s.platform s.latched →
    accessTrace .blur2d (blurSteps s.latched) s = blurOrder s.latched ∧
      (blurOrder s.latched).countP isRead = 2 * (opWidth s.latched * opHeight s.latched * opChannels s.latched) ∧
      (blurOrder s.latched).countP (fun a => !isRead a) =
        opWidth s.latched * opHeight s.latched * opChannels s.latched

/-- Whatever stops it (a pre-check, a bus error, an abort), the accesses of a LINE or a BLUR2D from its CHECK step on
are a prefix of its reference access order (R109, R110, R127). -/
def Obligations.AccessesArePrefixOfTheReferenceOrder : Prop :=
  ∀ (s : State) (n : Nat), s.progress = .check →
    accessTrace .line n s <+: lineOrder s.latched ∧ accessTrace .blur2d n s <+: blurOrder s.latched

/-! ### The whole machine -/

/-- R24: BUSY = 1 implies DONE = 0 and ERR = 0, ERR = 0 exactly when ERRCODE = 0, and ERRCODE is never 11 to 15: after
reset and after every step from a state where it holds. -/
def Obligations.StatusFlagsStayConsistent : Prop :=
  statusOk State.reset.status ∧ ∀ s t : State, statusOk s.status → step s = .next t → statusOk t.status

/-- The invariant of reachable states is kept by every step of every agent. -/
def Obligations.StepKeepsTheInvariant : Prop :=
  ∀ s t : State, MachineInv s → step s = .next t → MachineInv t

/-- The invariant holds right after reset. (It says nothing of the latched set at reset, and of the work memory and the
accumulators only that they are in canonical form.) -/
def Obligations.ResetMeetsTheInvariant : Prop := MachineInv State.reset

/-- From a state that meets the invariant no engine step and no reset faults: no address a command forms is misaligned or
leaves the address space (R8, R51), and the progress always belongs to the running command. -/
def Obligations.EngineNeverFaults : Prop :=
  ∀ (s : State) (f : Fault), MachineInv s → (∀ h, nextEvent s ≠ .host h) → step s ≠ .fault f

/-- Every command completes (R126): from any reachable busy state with no other agent's step due, and no memory with
side effects, the engine ends the command, with DONE set, within a bound that depends on its operands only (the bound
counts the model's steps, logs 3 to 5). -/
def Obligations.EveryCommandCompletes : Prop :=
  ∀ s : State, MachineInv s → s.status.busy = true → s.agenda = [] → (∀ r ∈ s.platform, r.sideEffects = false) →
    ∃ n t, n ≤ commandBound s.latched ∧ runN n s = .next t ∧ t.status.busy = false ∧ t.status.done = true

/-- What the work memory, the accumulators and the latched set hold while the block is idle is never observable (R42,
R43, R44): any run from an idle state, of any length and with any agenda, gives the same outcome but for them. -/
def Obligations.LeftoverInternalStateIsUnobservable : Prop :=
  ∀ (n : Nat) (s : State) (work acc : List (Nat × Word)) (l : Latched),
    s.status.busy = false → s.progress = .idle →
    observe (runN n { s with work := work, acc := acc, latched := l }) = observe (runN n s)

/-- R40: the twelve coefficient registers change only together, at a coefficient-set update, which sets COEF_VALID: step
SOLVE of a SOLVE, which completes it, or of a BLUR2D, and it happens there; no other step but a reset changes one. -/
def Obligations.CoefficientsChangeOnlyAtUpdates : Prop :=
  (∀ s t : State, step s = .next t → t.coefs ≠ s.coefs →
    nextEvent s = .reset ∨
      (nextEvent s = .engine ∧ s.status.busy = true ∧ s.progress = .solve ∧ s.abortReq = false ∧
        t.coefs = coef s.latched.params.sigma ∧ t.status.coefValid = true ∧
        ((latchedIs .solve s ∧ t.status.busy = false ∧ t.status.done = true) ∨ latchedIs .blur2d s))) ∧
  (∀ (i : Instr) (s : State), i = .solve ∨ i = .blur2d → s.progress = .solve → s.abortReq = false →
    ∃ t, exec i s = .next t ∧ t.coefs = coef s.latched.params.sigma ∧ t.status.coefValid = true ∧
      (i = .solve → t.status.busy = false ∧ t.status.done = true ∧ t.status.errcode = s.status.errcode))

/-- COEF_VALID (R41) is 0 after reset with every coefficient register 0, becomes 1 only at a coefficient-set update, and
nothing but reset clears it; while it is 0 LINE ends with NO_COEF, in its CHECK step (that the check and the completion
share a step is the model's choice, log 4). -/
def Obligations.CoefValidIsClearedByResetOnly : Prop :=
  (State.reset.status.coefValid = false ∧ State.reset.coefs = zeroCoefs) ∧
  (∀ s t : State, step s = .next t →
    (s.status.coefValid = true → t.status.coefValid = false → nextEvent s = .reset) ∧
    (s.status.coefValid = false → t.status.coefValid = true →
      nextEvent s = .engine ∧ s.progress = .solve ∧ t.coefs = coef s.latched.params.sigma) ∧
    ((s.status.coefValid = false → s.coefs = zeroCoefs) → t.status.coefValid = false → t.coefs = zeroCoefs)) ∧
  (∀ (k : Coefs) (s : State), (updateCoefs k s).status.coefValid = true ∧ (updateCoefs k s).coefs = k) ∧
  (∀ s : State, s.progress = .check → s.status.coefValid = false → exec .line s = .next (endedWith 2#4 s))

/-- R26: ERR_ADDR becomes 0 at acceptance (and reset), the address of the failed access when a command ends with
BUS_ERROR, and no other step changes it. -/
def Obligations.ErrAddrRecordsBusErrors : Prop :=
  ∀ s t : State, step s = .next t → t.errAddr ≠ s.errAddr →
    (t.errAddr = 0#32 ∧ ∃ rest, s.agenda = .reset :: rest ∨ ∃ w, s.agenda = .host (.wr 0x14 4 w) :: rest) ∨
      (nextEvent s = .engine ∧ s.progress = .busError t.errAddr ∧ t.status.errcode = 9#4 ∧ t.status.done = true)

/-- R25: a CMD write while idle is accepted and CMD then holds its word; while busy it is dropped and CMD stays; CMD
changes at nothing else (but reset); a read of it returns the held word and has no side effect. -/
def Obligations.CmdHoldsTheLastAcceptedWord : Prop :=
  (∀ (s : State) (w : Word),
    (s.status.busy = false → hostStep (.wr 0x14 4 w) s = .next (accept w s) ∧ (accept w s).cmd = w) ∧
    (s.status.busy = true → ∃ t, hostStep (.wr 0x14 4 w) s = .next t ∧ t.cmd = s.cmd ∧ t.latched = s.latched)) ∧
  (∀ s t : State, step s = .next t → t.cmd ≠ s.cmd →
    ∃ rest, s.agenda = .reset :: rest ∨
      ∃ w, s.agenda = .host (.wr 0x14 4 w) :: rest ∧ s.status.busy = false ∧ t.cmd = w) ∧
  (∀ s : State, hostStep (.rd 0x14 4) s = .next { s with hostReads := s.cmd :: s.hostReads })

/-- LINE_COUNT becomes 0 at acceptance (and reset), and otherwise only goes up by 1, for a line pass that finished (R27):
in the very engine step that performs the last deliver step of the pass (the model's choice, log 3). -/
def Obligations.LineCountCountsFinishedPasses : Prop :=
  ∀ s t : State, step s = .next t → t.lineCount ≠ s.lineCount →
    (t.lineCount = 0#32 ∧ ∃ rest, s.agenda = .reset :: rest ∨ ∃ w, s.agenda = .host (.wr 0x14 4 w) :: rest) ∨
      (nextEvent s = .engine ∧ t.lineCount = s.lineCount + 1#32 ∧
        ∃ c, opChannels s.latched ≤ c + 1 ∧
          (s.progress = .lpass ⟨.deliver, 0, c⟩ ∨ (∃ y, s.progress = .hpass y ⟨.deliver, 0, c⟩) ∨
            ∃ x, s.progress = .vpass x ⟨.deliver, 0, c⟩))

/-- R58, R60: from a state that meets the invariant an engine step changes no byte of memory but those of the running
command's destination samples. -/
def Obligations.EngineWritesOnlyDestinationSamples : Prop :=
  ∀ (s t : State) (a : Nat), MachineInv s → nextEvent s = .engine → step s = .next t →
    isDestByte s.latched a = false → readByte t.mem a = readByte s.mem a

/-! ### Arithmetic -/

/-- R10: on finite operands fadd, fsub, fmul and fdiv give the exact real result rounded once, to nearest, ties to even,
subnormals kept; the sign of a zero result follows IEEE 754; fneg flips bit 31. -/
def Obligations.ArithmeticIsCorrectlyRounded : Prop :=
  ∀ a b : F32, fIsFinite a = true → fIsFinite b = true →
    RoundsTo (fRat a + fRat b) (fadd a b) ∧ RoundsTo (fRat a - fRat b) (fsub a b) ∧
      RoundsTo (fRat a * fRat b) (fmul a b) ∧ (fRat b ≠ 0 → RoundsTo (fRat a / fRat b) (fdiv a b)) ∧
      (fRat a + fRat b = 0 → fSign (fadd a b) = (fSign a && fSign b)) ∧
      (fRat a - fRat b = 0 → fSign (fsub a b) = (fSign a && !fSign b)) ∧
      fSign (fmul a b) = (fSign a != fSign b) ∧ (fRat b ≠ 0 → fSign (fdiv a b) = (fSign a != fSign b)) ∧
      fneg a = a ^^^ 0x80000000#32 ∧ fRat (fneg a) = - fRat a

/-- A NaN operand gives the canonical NaN, and every NaN result of a primitive is the canonical NaN (R11; for fneg and
FEXP the model's reading, logs 21 and 22). -/
def Obligations.NaNResultsAreCanonical : Prop :=
  (∀ a b : F32, fIsNaN a = true ∨ fIsNaN b = true →
    fadd a b = 0x7FC00000#32 ∧ fsub a b = 0x7FC00000#32 ∧ fmul a b = 0x7FC00000#32 ∧ fdiv a b = 0x7FC00000#32) ∧
  (∀ a : F32, fIsNaN a = true → fneg a = 0x7FC00000#32) ∧
  (∀ a b : F32, (fIsNaN (fadd a b) = true → fadd a b = 0x7FC00000#32) ∧
    (fIsNaN (fsub a b) = true → fsub a b = 0x7FC00000#32) ∧ (fIsNaN (fmul a b) = true → fmul a b = 0x7FC00000#32) ∧
    (fIsNaN (fdiv a b) = true → fdiv a b = 0x7FC00000#32) ∧ (fIsNaN (fneg a) = true → fneg a = 0x7FC00000#32) ∧
    (fIsNaN (fexp a) = true → fexp a = 0x7FC00000#32))

/-- The operations on infinities and zeros (R10, IEEE 754): inf - inf, 0 * inf, inf / inf and 0 / 0 are NaN, the other
cases give infinities and zeros of the right sign. -/
def Obligations.InfinitiesAndZeros : Prop :=
  ∀ a b : F32, fIsInf a = true →
    (fIsFinite b = true →
      fadd a b = a ∧ fadd b a = a ∧ fsub a b = a ∧ fsub b a = fInf (!fSign a) ∧ fdiv a b = fInf (fSign a != fSign b) ∧
        fdiv b a = fZero (fSign a != fSign b) ∧
        (fRat b = 0 → fmul a b = fNaN ∧ fmul b a = fNaN) ∧
        (fRat b ≠ 0 → fmul a b = fInf (fSign a != fSign b) ∧ fmul b a = fInf (fSign a != fSign b) ∧
          fdiv b (fZero (fSign a)) = fInf (fSign a != fSign b))) ∧
    (fIsInf b = true →
      fdiv a b = fNaN ∧ fmul a b = fInf (fSign a != fSign b) ∧
        (fSign a = fSign b → fadd a b = a ∧ fsub a b = fNaN) ∧
        (fSign a ≠ fSign b → fadd a b = fNaN ∧ fsub a b = a)) ∧
    fneg a = fInf (!fSign a) ∧ a = fInf (fSign a) ∧
    (∀ p q : Bool, fdiv (fZero p) (fZero q) = fNaN)

/-- A NaN sample of a channel makes every output sample of its line the canonical NaN (R90). -/
def Obligations.NaNSampleFillsTheLine : Prop :=
  ∀ (k : Coefs) (n : Nat) (x : Nat → F32) (j i : Nat), j < n → i < n → fIsNaN (x j) = true →
    lineOut k n x i = 0x7FC00000#32

/-! ### Host scripts -/

/-- The statement cmd of R73 and the pseudo-statements ack, abort, abort.ie and wait as R74 expands them, by their
effect on the machine. A wait delivers STATUS; where it reads BUSY = 0 it is over, and where it reads BUSY = 1 one engine
step and the next poll come first in the agenda (the model's steps of a wait: log 20). -/
def Obligations.ScriptStatements : Prop :=
  ∀ (s : State) (rest : List Event),
    (s.agenda = (expandStmt .ack).map Event.host ++ rest →
      step s = .next
        { s with
          agenda := rest
          status := { s.status with done := false, err := false, ovr := false, errcode := 0#4 } }) ∧
    (s.agenda = (expandStmt .abort).map Event.host ++ rest → s.status.busy = true →
      step s = .next { s with agenda := rest, ie := false, abortReq := true }) ∧
    (s.agenda = (expandStmt .abortIe).map Event.host ++ rest → s.status.busy = true →
      step s = .next { s with agenda := rest, ie := true, abortReq := true }) ∧
    (s.agenda = (expandStmt .wait).map Event.host ++ rest → s.status.busy = false →
      step s = .next { s with agenda := rest, hostReads := readReg .status s :: s.hostReads }) ∧
    (s.agenda = (expandStmt .wait).map Event.host ++ rest → s.status.busy = true →
      step s = .next
        { s with
          agenda := .engine :: .host .wait :: rest
          hostReads := readReg .status s :: s.hostReads }) ∧
    (∀ i, s.agenda = (expandStmt (.cmd i)).map Event.host ++ rest → s.status.busy = false →
      step s = .next (accept (encode i) { s with agenda := rest }))
end

