-- ==== Sys2Proof/Laws/Cells.lean ====
section
/-! SUPPORT. The laws of sparse storage: what a read after a write gives, in every list; and that a write keeps the
canonical form. -/

namespace Sys2Proof.Machine

section Reads

variable {α : Type} (d : α)

theorem cellsRead_erase_same (l : List (Nat × α)) (a : Nat) : cellsRead d (cellsErase l a) a = d := by
  induction l with
  | nil => rfl
  | cons h t ih =>
    obtain ⟨k, v⟩ := h
    by_cases hk : k = a <;> simp [cellsErase, cellsRead, hk, ih]

theorem cellsRead_erase_other (l : List (Nat × α)) {a b : Nat} (hb : b ≠ a) :
    cellsRead d (cellsErase l a) b = cellsRead d l b := by
  induction l with
  | nil => rfl
  | cons h t ih =>
    obtain ⟨k, v⟩ := h
    by_cases hk : k = a
    · subst hk; simp [cellsErase, cellsRead, ih, Ne.symm hb]
    · simp [cellsErase, cellsRead, hk, ih]

theorem cellsRead_insert_other (l : List (Nat × α)) {a b : Nat} (v : α) (hb : b ≠ a) :
    cellsRead d (cellsInsert l a v) b = cellsRead d l b := by
  induction l with
  | nil => simp [cellsInsert, cellsRead, Ne.symm hb]
  | cons h t ih =>
    obtain ⟨k, w⟩ := h
    unfold cellsInsert
    split
    · simp [cellsRead, Ne.symm hb]
    · simp [cellsRead, ih]

theorem cellsRead_insert_erased (l : List (Nat × α)) (a : Nat) (v : α) :
    cellsRead d (cellsInsert (cellsErase l a) a v) a = v := by
  induction l with
  | nil => simp [cellsErase, cellsInsert, cellsRead]
  | cons h t ih =>
    obtain ⟨k, w⟩ := h
    by_cases hk : k = a
    · simpa [cellsErase, hk] using ih
    · simp only [cellsErase, hk, if_false]
      unfold cellsInsert
      split
      · simp [cellsRead]
      · simpa [cellsRead, hk] using ih

/-- No entry of the list is for index `a`. -/
theorem cellsErase_lacks (l : List (Nat × α)) (a : Nat) : ∀ x ∈ cellsErase l a, x.1 ≠ a := by
  induction l with
  | nil => simp [cellsErase]
  | cons x t ih =>
    obtain ⟨j, v⟩ := x
    unfold cellsErase
    split
    · exact ih
    · rename_i hj
      intro y hy
      rcases List.mem_cons.1 hy with rfl | hy
      · exact hj
      · exact ih y hy

theorem cellsAbove_insert {k a : Nat} {l : List (Nat × α)} (v : α) (ha : k < a) (h : cellsAbove k l = true) :
    cellsAbove k (cellsInsert l a v) = true := by
  cases l with
  | nil => simpa [cellsInsert, cellsAbove] using ha
  | cons x t =>
    unfold cellsInsert
    split
    · simpa [cellsAbove] using ha
    · simpa [cellsAbove] using h

end Reads

section Writes

variable {α : Type} [DecidableEq α] (d : α)

/-- A read at the written index gives the written value. -/
@[simp] theorem cellsRead_write_same (l : List (Nat × α)) (a : Nat) (v : α) :
    cellsRead d (cellsWrite d l a v) a = v := by
  unfold cellsWrite
  split
  · rename_i h; rw [cellsRead_erase_same, h]
  · exact cellsRead_insert_erased d l a v

/-- A write leaves every other index alone. -/
theorem cellsRead_write_other (l : List (Nat × α)) {a b : Nat} (v : α) (hb : b ≠ a) :
    cellsRead d (cellsWrite d l a v) b = cellsRead d l b := by
  unfold cellsWrite
  split
  · exact cellsRead_erase_other d l hb
  · rw [cellsRead_insert_other d _ v hb, cellsRead_erase_other d l hb]

/-- What a read after a write gives, at any index. -/
theorem cellsRead_write (l : List (Nat × α)) (a b : Nat) (v : α) :
    cellsRead d (cellsWrite d l a v) b = if b = a then v else cellsRead d l b := by
  split
  · rename_i h; rw [h, cellsRead_write_same]
  · rename_i h; exact cellsRead_write_other d l v h

/-- The canonical form in words: the head is not the default, lies below the bound and below every later index. -/
theorem cellsWf_cons (bound k : Nat) (v : α) (r : List (Nat × α)) :
    cellsWf d bound ((k, v) :: r) = true ↔
      v ≠ d ∧ k < bound ∧ cellsAbove k r = true ∧ cellsWf d bound r = true := by
  simp [cellsWf, and_assoc]

theorem cellsAbove_erase {bound k : Nat} {l : List (Nat × α)} (a : Nat) (hw : cellsWf d bound l = true)
    (h : cellsAbove k l = true) : cellsAbove k (cellsErase l a) = true := by
  induction l generalizing k with
  | nil => rfl
  | cons x t ih =>
    obtain ⟨j, v⟩ := x
    rw [cellsWf_cons] at hw
    have hkj : k < j := by simpa [cellsAbove] using h
    unfold cellsErase
    split
    · refine ih hw.2.2.2 ?_
      cases t with
      | nil => rfl
      | cons y t' =>
        have : j < y.1 := by simpa [cellsAbove] using hw.2.2.1
        simp [cellsAbove]; omega
    · simpa [cellsAbove] using hkj

theorem cellsWf_erase {bound : Nat} {l : List (Nat × α)} (a : Nat) (hw : cellsWf d bound l = true) :
    cellsWf d bound (cellsErase l a) = true := by
  induction l with
  | nil => rfl
  | cons x t ih =>
    obtain ⟨j, v⟩ := x
    rw [cellsWf_cons] at hw
    unfold cellsErase
    split
    · exact ih hw.2.2.2
    · rw [cellsWf_cons]
      exact ⟨hw.1, hw.2.1, cellsAbove_erase d a hw.2.2.2 hw.2.2.1, ih hw.2.2.2⟩

theorem cellsWf_insert {bound a : Nat} {l : List (Nat × α)} {v : α} (hv : v ≠ d) (ha : a < bound)
    (hl : ∀ x ∈ l, x.1 ≠ a) (hw : cellsWf d bound l = true) : cellsWf d bound (cellsInsert l a v) = true := by
  induction l with
  | nil => simp [cellsInsert, cellsWf, cellsAbove, hv, ha]
  | cons x t ih =>
    obtain ⟨j, w⟩ := x
    have hw' := (cellsWf_cons d bound j w t).1 hw
    unfold cellsInsert
    split
    · rename_i hlt
      rw [cellsWf_cons]
      exact ⟨hv, ha, by simpa [cellsAbove] using hlt, hw⟩
    · rename_i hge
      have hja : j ≠ a := hl (j, w) (by simp)
      rw [cellsWf_cons]
      exact ⟨hw'.1, hw'.2.1, cellsAbove_insert v (by omega) hw'.2.2.1,
        ih (fun y hy => hl y (List.mem_cons_of_mem _ hy)) hw'.2.2.2⟩

/-- A write below the bound keeps the canonical form. -/
theorem cellsWf_write {bound a : Nat} {l : List (Nat × α)} (v : α) (ha : a < bound)
    (hw : cellsWf d bound l = true) : cellsWf d bound (cellsWrite d l a v) = true := by
  unfold cellsWrite
  split
  · exact cellsWf_erase d a hw
  · rename_i hv
    exact cellsWf_insert d hv ha (cellsErase_lacks l a) (cellsWf_erase d a hw)

end Writes

/-! ### System memory -/

/-- A byte read after a byte store. -/
theorem readByte_writeByte (m : List Host.Cell) (a b : Nat) (v : Byte) :
    readByte (writeByte m a v) b = if b = a then v else readByte m b :=
  cellsRead_write unlistedByte m a b v

/-- A byte store inside the address space keeps the canonical form of memory. -/
theorem Memory_wf_writeByte {m : List Host.Cell} {a : Nat} (v : Byte) (ha : a < 2 ^ 32) (h : Memory.wf m = true) :
    Memory.wf (writeByte m a v) = true :=
  cellsWf_write unlistedByte v ha h

/-- What a byte reads after the low `n` bytes of a word were stored at `a`. -/
theorem readByte_writeBytes (m : List Host.Cell) (a : Nat) (v : Word) (n b : Nat) :
    readByte (writeBytes m a v n) b = if a ≤ b ∧ b < a + n then byteOf v (b - a) else readByte m b := by
  induction n with
  | zero =>
    rw [if_neg (by omega)]
    rfl
  | succ k ih =>
    rw [writeBytes, readByte_writeByte, ih]
    by_cases hb : b = a + k
    · subst hb
      rw [if_pos rfl, if_pos (by omega), Nat.add_sub_cancel_left]
    · rw [if_neg hb]
      by_cases hr : a ≤ b ∧ b < a + k
      · rw [if_pos hr, if_pos (by omega)]
      · rw [if_neg hr, if_neg (by omega)]

/-- A byte outside the stored bytes reads as before. -/
theorem readByte_writeBytes_other (m : List Host.Cell) (a : Nat) (v : Word) (n : Nat) {b : Nat}
    (hb : b < a ∨ a + n ≤ b) : readByte (writeBytes m a v n) b = readByte m b := by
  rw [readByte_writeBytes, if_neg (by omega)]

/-- A store inside the address space keeps the canonical form of memory. -/
theorem Memory_wf_writeBytes {m : List Host.Cell} {a : Nat} (v : Word) (n : Nat) (ha : a + n ≤ 2 ^ 32)
    (h : Memory.wf m = true) : Memory.wf (writeBytes m a v n) = true := by
  induction n with
  | zero => exact h
  | succ k ih => exact Memory_wf_writeByte _ (by omega) (ih (by omega))

/-- A word store inside the address space keeps the canonical form of memory. -/
theorem Memory_wf_writeWord {m : List Host.Cell} {a : Nat} (v : Word) (ha : a + 4 ≤ 2 ^ 32)
    (h : Memory.wf m = true) : Memory.wf (writeWord m a v) = true :=
  Memory_wf_writeBytes v 4 ha h

/-- The four bytes of a word make the word. -/
theorem wordOfBytes_byteOf (v : Word) : wordOfBytes (byteOf v 0) (byteOf v 1) (byteOf v 2) (byteOf v 3) = v := by
  unfold wordOfBytes byteOf
  ext i hi
  simp only [BitVec.getElem_append, BitVec.getElem_extractLsb']
  split
  · simp [BitVec.getLsbD_eq_getElem, *]
  · split
    · rw [BitVec.getLsbD_eq_getElem (by omega)]; congr 1; omega
    · split
      · rw [BitVec.getLsbD_eq_getElem (by omega)]; congr 1; omega
      · rw [BitVec.getLsbD_eq_getElem (by omega)]; congr 1; omega

/-- A word read back after it was stored. -/
@[simp] theorem readWord_writeWord_same (m : List Host.Cell) (a : Nat) (v : Word) :
    readWord (writeWord m a v) a = v := by
  have h : ∀ k, k < 4 → readByte (writeBytes m a v 4) (a + k) = byteOf v k := by
    intro k hk
    rw [readByte_writeBytes, if_pos (by omega), Nat.add_sub_cancel_left]
  unfold readWord writeWord
  rw [show readByte (writeBytes m a v 4) a = byteOf v 0 from h 0 (by omega), h 1 (by omega), h 2 (by omega),
    h 3 (by omega), wordOfBytes_byteOf]

/-- A word apart from the stored word reads as before. -/
theorem readWord_writeWord_other (m : List Host.Cell) {a b : Nat} (v : Word) (h : b + 4 ≤ a ∨ a + 4 ≤ b) :
    readWord (writeWord m a v) b = readWord m b := by
  unfold readWord writeWord
  rw [readByte_writeBytes_other _ _ _ _ (by omega), readByte_writeBytes_other _ _ _ _ (by omega),
    readByte_writeBytes_other _ _ _ _ (by omega), readByte_writeBytes_other _ _ _ _ (by omega)]

/-! ### Work memory and accumulators -/

/-- `Work[b]` or `acc[b]` after a write to index `a`. -/
theorem readCell_writeCell (w : List (Nat × Word)) (a b : Nat) (v : Word) :
    readCell (writeCell w a v) b = if b = a then v else readCell w b :=
  cellsRead_write unlistedWord w a b v

/-- The written word reads back. -/
@[simp] theorem readCell_writeCell_same (w : List (Nat × Word)) (a : Nat) (v : Word) :
    readCell (writeCell w a v) a = v := cellsRead_write_same unlistedWord w a v

/-- Another word reads as before. -/
theorem readCell_writeCell_other (w : List (Nat × Word)) {a b : Nat} (v : Word) (h : b ≠ a) :
    readCell (writeCell w a v) b = readCell w b := cellsRead_write_other unlistedWord w v h

/-- A write below the bound keeps the canonical form. -/
theorem cellsWf_writeCell {bound a : Nat} {w : List (Nat × Word)} (v : Word) (ha : a < bound)
    (h : cellsWf unlistedWord bound w = true) : cellsWf unlistedWord bound (writeCell w a v) = true :=
  cellsWf_write unlistedWord v ha h

end Sys2Proof.Machine
end

