-- ==== Sys2Proof/Laws/Config.lean ====
section
/-! SUPPORT. The open parameters lie in the ranges of 00_scope.md R6. -/

namespace Sys2Proof.Config

/-- MAX_CHANNELS is at least 4. -/
theorem four_le_maxChannels : 4 ≤ maxChannels := by unfold maxChannels; omega

/-- MAX_CHANNELS is at most 255. -/
theorem maxChannels_le : maxChannels ≤ 255 := by unfold maxChannels; omega

/-- WORK_WORDS is at least 2*MAX_CHANNELS. -/
theorem two_maxChannels_le_workWords : 2 * maxChannels ≤ workWords := by
  have := maxChannels_le
  unfold workWords
  omega

/-- WORK_WORDS is at least 8. -/
theorem eight_le_workWords : 8 ≤ workWords := by
  have := four_le_maxChannels
  have := two_maxChannels_le_workWords
  omega

/-- WORK_WORDS is at most 2^32 - 1. -/
theorem workWords_le : workWords ≤ 2 ^ 32 - 1 := by unfold workWords; omega

/-- The parameters are well-formed. -/
theorem parameters_ok : parametersOk maxChannels workWords = true := by
  simp [parametersOk, four_le_maxChannels, maxChannels_le, two_maxChannels_le_workWords]
  exact workWords_le

/-- REG_BASE is a multiple of 0x80. -/
theorem regBase_ok : regBaseOk regBase = true := by simp [regBaseOk, regBase]

end Sys2Proof.Config
end

