-- ==== Sys2Proof/Laws/Decode.lean ====
section
/-! SUPPORT. The fields of a command word make the word, so that the latched command is the accepted one. -/

namespace Sys2Proof

/-- A word is made of its MBZ and OP fields (30_encoding.md R69). -/
theorem commandWord_fields (w : Word) : commandWord (mbzField w) (opField w) = w := by
  unfold commandWord mbzField opField
  apply BitVec.eq_of_toNat_eq
  simp only [BitVec.toNat_append, BitVec.extractLsb'_toNat, Nat.shiftRight_zero]
  have hw := w.isLt
  rw [Nat.shiftRight_eq_div_pow, Nat.shiftLeft_eq, Nat.mul_comm,
    ← Nat.two_pow_add_eq_or_of_lt (Nat.mod_lt _ (by norm_num))]
  omega

namespace Machine

/-- The latched word right after acceptance is the accepted word (43_control.md R97). -/
@[simp] theorem latchedWord_latch (w : Word) (ps : Params) : latchedWord (latch w ps) = w := commandWord_fields w

/-- The engine's next command after acceptance is the accepted one (43_control.md R97). -/
@[simp] theorem fetchCommand_accept (w : Word) (s : State) : fetchCommand (accept w s) = decode w := by
  unfold fetchCommand
  rw [show (accept w s).latched = latch w s.params from rfl, latchedWord_latch]

end Machine

end Sys2Proof
end

