-- ==== Sys2Proof/Laws/State.lean ====
section
/-! SUPPORT. The small lemmas of the state: one per field per update, each true by definition, so that no proof unfolds a
record update; and those of the status flags. -/

namespace Sys2Proof.Machine

/-! ### accept -/

@[simp] theorem accept_ie (w : Word) (s : State) :
    (accept w s).ie = s.ie := rfl
@[simp] theorem accept_status (w : Word) (s : State) :
    (accept w s).status = statusAccepted s.status := rfl
@[simp] theorem accept_cmd (w : Word) (s : State) :
    (accept w s).cmd = w := rfl
@[simp] theorem accept_errAddr (w : Word) (s : State) :
    (accept w s).errAddr = 0#32 := rfl
@[simp] theorem accept_lineCount (w : Word) (s : State) :
    (accept w s).lineCount = 0#32 := rfl
@[simp] theorem accept_params (w : Word) (s : State) :
    (accept w s).params = s.params := rfl
@[simp] theorem accept_coefs (w : Word) (s : State) :
    (accept w s).coefs = s.coefs := rfl
@[simp] theorem accept_latched (w : Word) (s : State) :
    (accept w s).latched = latch w s.params := rfl
@[simp] theorem accept_work (w : Word) (s : State) :
    (accept w s).work = s.work := rfl
@[simp] theorem accept_acc (w : Word) (s : State) :
    (accept w s).acc = s.acc := rfl
@[simp] theorem accept_abortReq (w : Word) (s : State) :
    (accept w s).abortReq = false := rfl
@[simp] theorem accept_progress (w : Word) (s : State) :
    (accept w s).progress = .check := rfl
@[simp] theorem accept_mem (w : Word) (s : State) :
    (accept w s).mem = s.mem := rfl
@[simp] theorem accept_platform (w : Word) (s : State) :
    (accept w s).platform = s.platform := rfl
@[simp] theorem accept_agenda (w : Word) (s : State) :
    (accept w s).agenda = s.agenda := rfl
@[simp] theorem accept_hostReads (w : Word) (s : State) :
    (accept w s).hostReads = s.hostReads := rfl
@[simp] theorem accept_freeCount (w : Word) (s : State) :
    (accept w s).freeCount = s.freeCount := rfl

/-! ### complete -/

@[simp] theorem complete_ie (code : ErrCode) (info : Word) (s : State) :
    (complete code info s).ie = s.ie := rfl
@[simp] theorem complete_status (code : ErrCode) (info : Word) (s : State) :
    (complete code info s).status = statusCompleted code s.status := rfl
@[simp] theorem complete_cmd (code : ErrCode) (info : Word) (s : State) :
    (complete code info s).cmd = s.cmd := rfl
@[simp] theorem complete_errAddr (code : ErrCode) (info : Word) (s : State) :
    (complete code info s).errAddr = (if code = .busError then info else s.errAddr) := rfl
@[simp] theorem complete_lineCount (code : ErrCode) (info : Word) (s : State) :
    (complete code info s).lineCount = s.lineCount := rfl
@[simp] theorem complete_params (code : ErrCode) (info : Word) (s : State) :
    (complete code info s).params = s.params := rfl
@[simp] theorem complete_coefs (code : ErrCode) (info : Word) (s : State) :
    (complete code info s).coefs = s.coefs := rfl
@[simp] theorem complete_latched (code : ErrCode) (info : Word) (s : State) :
    (complete code info s).latched = s.latched := rfl
@[simp] theorem complete_work (code : ErrCode) (info : Word) (s : State) :
    (complete code info s).work = s.work := rfl
@[simp] theorem complete_acc (code : ErrCode) (info : Word) (s : State) :
    (complete code info s).acc = s.acc := rfl
@[simp] theorem complete_abortReq (code : ErrCode) (info : Word) (s : State) :
    (complete code info s).abortReq = false := rfl
@[simp] theorem complete_progress (code : ErrCode) (info : Word) (s : State) :
    (complete code info s).progress = .idle := rfl
@[simp] theorem complete_mem (code : ErrCode) (info : Word) (s : State) :
    (complete code info s).mem = s.mem := rfl
@[simp] theorem complete_platform (code : ErrCode) (info : Word) (s : State) :
    (complete code info s).platform = s.platform := rfl
@[simp] theorem complete_agenda (code : ErrCode) (info : Word) (s : State) :
    (complete code info s).agenda = s.agenda := rfl
@[simp] theorem complete_hostReads (code : ErrCode) (info : Word) (s : State) :
    (complete code info s).hostReads = s.hostReads := rfl
@[simp] theorem complete_freeCount (code : ErrCode) (info : Word) (s : State) :
    (complete code info s).freeCount = s.freeCount := rfl

/-! ### goTo -/

@[simp] theorem goTo_ie (p : Progress) (s : State) :
    (goTo p s).ie = s.ie := rfl
@[simp] theorem goTo_status (p : Progress) (s : State) :
    (goTo p s).status = s.status := rfl
@[simp] theorem goTo_cmd (p : Progress) (s : State) :
    (goTo p s).cmd = s.cmd := rfl
@[simp] theorem goTo_errAddr (p : Progress) (s : State) :
    (goTo p s).errAddr = s.errAddr := rfl
@[simp] theorem goTo_lineCount (p : Progress) (s : State) :
    (goTo p s).lineCount = s.lineCount := rfl
@[simp] theorem goTo_params (p : Progress) (s : State) :
    (goTo p s).params = s.params := rfl
@[simp] theorem goTo_coefs (p : Progress) (s : State) :
    (goTo p s).coefs = s.coefs := rfl
@[simp] theorem goTo_latched (p : Progress) (s : State) :
    (goTo p s).latched = s.latched := rfl
@[simp] theorem goTo_work (p : Progress) (s : State) :
    (goTo p s).work = s.work := rfl
@[simp] theorem goTo_acc (p : Progress) (s : State) :
    (goTo p s).acc = s.acc := rfl
@[simp] theorem goTo_abortReq (p : Progress) (s : State) :
    (goTo p s).abortReq = s.abortReq := rfl
@[simp] theorem goTo_progress (p : Progress) (s : State) :
    (goTo p s).progress = p := rfl
@[simp] theorem goTo_mem (p : Progress) (s : State) :
    (goTo p s).mem = s.mem := rfl
@[simp] theorem goTo_platform (p : Progress) (s : State) :
    (goTo p s).platform = s.platform := rfl
@[simp] theorem goTo_agenda (p : Progress) (s : State) :
    (goTo p s).agenda = s.agenda := rfl
@[simp] theorem goTo_hostReads (p : Progress) (s : State) :
    (goTo p s).hostReads = s.hostReads := rfl
@[simp] theorem goTo_freeCount (p : Progress) (s : State) :
    (goTo p s).freeCount = s.freeCount := rfl

/-! ### updateCoefs -/

@[simp] theorem updateCoefs_ie (k : Coefs) (s : State) :
    (updateCoefs k s).ie = s.ie := rfl
@[simp] theorem updateCoefs_status (k : Coefs) (s : State) :
    (updateCoefs k s).status = { s.status with coefValid := true } := rfl
@[simp] theorem updateCoefs_cmd (k : Coefs) (s : State) :
    (updateCoefs k s).cmd = s.cmd := rfl
@[simp] theorem updateCoefs_errAddr (k : Coefs) (s : State) :
    (updateCoefs k s).errAddr = s.errAddr := rfl
@[simp] theorem updateCoefs_lineCount (k : Coefs) (s : State) :
    (updateCoefs k s).lineCount = s.lineCount := rfl
@[simp] theorem updateCoefs_params (k : Coefs) (s : State) :
    (updateCoefs k s).params = s.params := rfl
@[simp] theorem updateCoefs_coefs (k : Coefs) (s : State) :
    (updateCoefs k s).coefs = k := rfl
@[simp] theorem updateCoefs_latched (k : Coefs) (s : State) :
    (updateCoefs k s).latched = s.latched := rfl
@[simp] theorem updateCoefs_work (k : Coefs) (s : State) :
    (updateCoefs k s).work = s.work := rfl
@[simp] theorem updateCoefs_acc (k : Coefs) (s : State) :
    (updateCoefs k s).acc = s.acc := rfl
@[simp] theorem updateCoefs_abortReq (k : Coefs) (s : State) :
    (updateCoefs k s).abortReq = s.abortReq := rfl
@[simp] theorem updateCoefs_progress (k : Coefs) (s : State) :
    (updateCoefs k s).progress = s.progress := rfl
@[simp] theorem updateCoefs_mem (k : Coefs) (s : State) :
    (updateCoefs k s).mem = s.mem := rfl
@[simp] theorem updateCoefs_platform (k : Coefs) (s : State) :
    (updateCoefs k s).platform = s.platform := rfl
@[simp] theorem updateCoefs_agenda (k : Coefs) (s : State) :
    (updateCoefs k s).agenda = s.agenda := rfl
@[simp] theorem updateCoefs_hostReads (k : Coefs) (s : State) :
    (updateCoefs k s).hostReads = s.hostReads := rfl
@[simp] theorem updateCoefs_freeCount (k : Coefs) (s : State) :
    (updateCoefs k s).freeCount = s.freeCount := rfl

/-! ### solveUpdate -/

@[simp] theorem solveUpdate_ie (s : State) :
    (solveUpdate s).ie = s.ie := rfl
@[simp] theorem solveUpdate_status (s : State) :
    (solveUpdate s).status = { s.status with coefValid := true } := rfl
@[simp] theorem solveUpdate_cmd (s : State) :
    (solveUpdate s).cmd = s.cmd := rfl
@[simp] theorem solveUpdate_errAddr (s : State) :
    (solveUpdate s).errAddr = s.errAddr := rfl
@[simp] theorem solveUpdate_lineCount (s : State) :
    (solveUpdate s).lineCount = s.lineCount := rfl
@[simp] theorem solveUpdate_params (s : State) :
    (solveUpdate s).params = s.params := rfl
@[simp] theorem solveUpdate_coefs (s : State) :
    (solveUpdate s).coefs = coef s.latched.params.sigma := rfl
@[simp] theorem solveUpdate_latched (s : State) :
    (solveUpdate s).latched = s.latched := rfl
@[simp] theorem solveUpdate_work (s : State) :
    (solveUpdate s).work = s.work := rfl
@[simp] theorem solveUpdate_acc (s : State) :
    (solveUpdate s).acc = s.acc := rfl
@[simp] theorem solveUpdate_abortReq (s : State) :
    (solveUpdate s).abortReq = s.abortReq := rfl
@[simp] theorem solveUpdate_progress (s : State) :
    (solveUpdate s).progress = s.progress := rfl
@[simp] theorem solveUpdate_mem (s : State) :
    (solveUpdate s).mem = s.mem := rfl
@[simp] theorem solveUpdate_platform (s : State) :
    (solveUpdate s).platform = s.platform := rfl
@[simp] theorem solveUpdate_agenda (s : State) :
    (solveUpdate s).agenda = s.agenda := rfl
@[simp] theorem solveUpdate_hostReads (s : State) :
    (solveUpdate s).hostReads = s.hostReads := rfl
@[simp] theorem solveUpdate_freeCount (s : State) :
    (solveUpdate s).freeCount = s.freeCount := rfl

/-! ### storeWord -/

@[simp] theorem storeWord_ie (a : Nat) (v : Word) (s : State) :
    (storeWord a v s).ie = s.ie := rfl
@[simp] theorem storeWord_status (a : Nat) (v : Word) (s : State) :
    (storeWord a v s).status = s.status := rfl
@[simp] theorem storeWord_cmd (a : Nat) (v : Word) (s : State) :
    (storeWord a v s).cmd = s.cmd := rfl
@[simp] theorem storeWord_errAddr (a : Nat) (v : Word) (s : State) :
    (storeWord a v s).errAddr = s.errAddr := rfl
@[simp] theorem storeWord_lineCount (a : Nat) (v : Word) (s : State) :
    (storeWord a v s).lineCount = s.lineCount := rfl
@[simp] theorem storeWord_params (a : Nat) (v : Word) (s : State) :
    (storeWord a v s).params = s.params := rfl
@[simp] theorem storeWord_coefs (a : Nat) (v : Word) (s : State) :
    (storeWord a v s).coefs = s.coefs := rfl
@[simp] theorem storeWord_latched (a : Nat) (v : Word) (s : State) :
    (storeWord a v s).latched = s.latched := rfl
@[simp] theorem storeWord_work (a : Nat) (v : Word) (s : State) :
    (storeWord a v s).work = s.work := rfl
@[simp] theorem storeWord_acc (a : Nat) (v : Word) (s : State) :
    (storeWord a v s).acc = s.acc := rfl
@[simp] theorem storeWord_abortReq (a : Nat) (v : Word) (s : State) :
    (storeWord a v s).abortReq = s.abortReq := rfl
@[simp] theorem storeWord_progress (a : Nat) (v : Word) (s : State) :
    (storeWord a v s).progress = s.progress := rfl
@[simp] theorem storeWord_mem (a : Nat) (v : Word) (s : State) :
    (storeWord a v s).mem = writeWord s.mem a v := rfl
@[simp] theorem storeWord_platform (a : Nat) (v : Word) (s : State) :
    (storeWord a v s).platform = s.platform := rfl
@[simp] theorem storeWord_agenda (a : Nat) (v : Word) (s : State) :
    (storeWord a v s).agenda = s.agenda := rfl
@[simp] theorem storeWord_hostReads (a : Nat) (v : Word) (s : State) :
    (storeWord a v s).hostReads = s.hostReads := rfl
@[simp] theorem storeWord_freeCount (a : Nat) (v : Word) (s : State) :
    (storeWord a v s).freeCount = s.freeCount := rfl

/-! ### failedWrite -/

@[simp] theorem failedWrite_ie (a : Nat) (s : State) :
    (failedWrite a s).ie = s.ie := rfl
@[simp] theorem failedWrite_status (a : Nat) (s : State) :
    (failedWrite a s).status = s.status := rfl
@[simp] theorem failedWrite_cmd (a : Nat) (s : State) :
    (failedWrite a s).cmd = s.cmd := rfl
@[simp] theorem failedWrite_errAddr (a : Nat) (s : State) :
    (failedWrite a s).errAddr = s.errAddr := rfl
@[simp] theorem failedWrite_lineCount (a : Nat) (s : State) :
    (failedWrite a s).lineCount = s.lineCount := rfl
@[simp] theorem failedWrite_params (a : Nat) (s : State) :
    (failedWrite a s).params = s.params := rfl
@[simp] theorem failedWrite_coefs (a : Nat) (s : State) :
    (failedWrite a s).coefs = s.coefs := rfl
@[simp] theorem failedWrite_latched (a : Nat) (s : State) :
    (failedWrite a s).latched = s.latched := rfl
@[simp] theorem failedWrite_work (a : Nat) (s : State) :
    (failedWrite a s).work = s.work := rfl
@[simp] theorem failedWrite_acc (a : Nat) (s : State) :
    (failedWrite a s).acc = s.acc := rfl
@[simp] theorem failedWrite_abortReq (a : Nat) (s : State) :
    (failedWrite a s).abortReq = s.abortReq := rfl
@[simp] theorem failedWrite_progress (a : Nat) (s : State) :
    (failedWrite a s).progress = s.progress := rfl
@[simp] theorem failedWrite_mem (a : Nat) (s : State) :
    (failedWrite a s).mem = writeWord s.mem a (Config.failedWriteWord s.freeCount) := rfl
@[simp] theorem failedWrite_platform (a : Nat) (s : State) :
    (failedWrite a s).platform = s.platform := rfl
@[simp] theorem failedWrite_agenda (a : Nat) (s : State) :
    (failedWrite a s).agenda = s.agenda := rfl
@[simp] theorem failedWrite_hostReads (a : Nat) (s : State) :
    (failedWrite a s).hostReads = s.hostReads := rfl
@[simp] theorem failedWrite_freeCount (a : Nat) (s : State) :
    (failedWrite a s).freeCount = s.freeCount + 1 := rfl

/-! ### forwardSample -/

@[simp] theorem forwardSample_ie (n : Nat) (p : LinePos) (v : F32) (s : State) :
    (forwardSample n p v s).ie = s.ie := rfl
@[simp] theorem forwardSample_status (n : Nat) (p : LinePos) (v : F32) (s : State) :
    (forwardSample n p v s).status = s.status := rfl
@[simp] theorem forwardSample_cmd (n : Nat) (p : LinePos) (v : F32) (s : State) :
    (forwardSample n p v s).cmd = s.cmd := rfl
@[simp] theorem forwardSample_errAddr (n : Nat) (p : LinePos) (v : F32) (s : State) :
    (forwardSample n p v s).errAddr = s.errAddr := rfl
@[simp] theorem forwardSample_lineCount (n : Nat) (p : LinePos) (v : F32) (s : State) :
    (forwardSample n p v s).lineCount = s.lineCount := rfl
@[simp] theorem forwardSample_params (n : Nat) (p : LinePos) (v : F32) (s : State) :
    (forwardSample n p v s).params = s.params := rfl
@[simp] theorem forwardSample_coefs (n : Nat) (p : LinePos) (v : F32) (s : State) :
    (forwardSample n p v s).coefs = s.coefs := rfl
@[simp] theorem forwardSample_latched (n : Nat) (p : LinePos) (v : F32) (s : State) :
    (forwardSample n p v s).latched = s.latched := rfl
@[simp] theorem forwardSample_work (n : Nat) (p : LinePos) (v : F32) (s : State) :
    (forwardSample n p v s).work = writeCell s.work (scratchIndex n p.i p.c) (forwardAcc p v s) := rfl
@[simp] theorem forwardSample_acc (n : Nat) (p : LinePos) (v : F32) (s : State) :
    (forwardSample n p v s).acc = writeCell s.acc p.c (forwardAcc p v s) := rfl
@[simp] theorem forwardSample_abortReq (n : Nat) (p : LinePos) (v : F32) (s : State) :
    (forwardSample n p v s).abortReq = s.abortReq := rfl
@[simp] theorem forwardSample_progress (n : Nat) (p : LinePos) (v : F32) (s : State) :
    (forwardSample n p v s).progress = s.progress := rfl
@[simp] theorem forwardSample_mem (n : Nat) (p : LinePos) (v : F32) (s : State) :
    (forwardSample n p v s).mem = s.mem := rfl
@[simp] theorem forwardSample_platform (n : Nat) (p : LinePos) (v : F32) (s : State) :
    (forwardSample n p v s).platform = s.platform := rfl
@[simp] theorem forwardSample_agenda (n : Nat) (p : LinePos) (v : F32) (s : State) :
    (forwardSample n p v s).agenda = s.agenda := rfl
@[simp] theorem forwardSample_hostReads (n : Nat) (p : LinePos) (v : F32) (s : State) :
    (forwardSample n p v s).hostReads = s.hostReads := rfl
@[simp] theorem forwardSample_freeCount (n : Nat) (p : LinePos) (v : F32) (s : State) :
    (forwardSample n p v s).freeCount = s.freeCount := rfl

/-! ### backwardSample -/

@[simp] theorem backwardSample_ie (m n : Nat) (p : LinePos) (v : F32) (s : State) :
    (backwardSample m n p v s).ie = s.ie := rfl
@[simp] theorem backwardSample_status (m n : Nat) (p : LinePos) (v : F32) (s : State) :
    (backwardSample m n p v s).status = s.status := rfl
@[simp] theorem backwardSample_cmd (m n : Nat) (p : LinePos) (v : F32) (s : State) :
    (backwardSample m n p v s).cmd = s.cmd := rfl
@[simp] theorem backwardSample_errAddr (m n : Nat) (p : LinePos) (v : F32) (s : State) :
    (backwardSample m n p v s).errAddr = s.errAddr := rfl
@[simp] theorem backwardSample_lineCount (m n : Nat) (p : LinePos) (v : F32) (s : State) :
    (backwardSample m n p v s).lineCount = s.lineCount := rfl
@[simp] theorem backwardSample_params (m n : Nat) (p : LinePos) (v : F32) (s : State) :
    (backwardSample m n p v s).params = s.params := rfl
@[simp] theorem backwardSample_coefs (m n : Nat) (p : LinePos) (v : F32) (s : State) :
    (backwardSample m n p v s).coefs = s.coefs := rfl
@[simp] theorem backwardSample_latched (m n : Nat) (p : LinePos) (v : F32) (s : State) :
    (backwardSample m n p v s).latched = s.latched := rfl
@[simp] theorem backwardSample_work (m n : Nat) (p : LinePos) (v : F32) (s : State) :
    (backwardSample m n p v s).work = writeCell s.work (scratchIndex n p.i p.c)
      (fadd (readCell s.work (scratchIndex n p.i p.c)) (backwardAcc m p v s)) := rfl
@[simp] theorem backwardSample_acc (m n : Nat) (p : LinePos) (v : F32) (s : State) :
    (backwardSample m n p v s).acc = writeCell s.acc p.c (backwardAcc m p v s) := rfl
@[simp] theorem backwardSample_abortReq (m n : Nat) (p : LinePos) (v : F32) (s : State) :
    (backwardSample m n p v s).abortReq = s.abortReq := rfl
@[simp] theorem backwardSample_progress (m n : Nat) (p : LinePos) (v : F32) (s : State) :
    (backwardSample m n p v s).progress = s.progress := rfl
@[simp] theorem backwardSample_mem (m n : Nat) (p : LinePos) (v : F32) (s : State) :
    (backwardSample m n p v s).mem = s.mem := rfl
@[simp] theorem backwardSample_platform (m n : Nat) (p : LinePos) (v : F32) (s : State) :
    (backwardSample m n p v s).platform = s.platform := rfl
@[simp] theorem backwardSample_agenda (m n : Nat) (p : LinePos) (v : F32) (s : State) :
    (backwardSample m n p v s).agenda = s.agenda := rfl
@[simp] theorem backwardSample_hostReads (m n : Nat) (p : LinePos) (v : F32) (s : State) :
    (backwardSample m n p v s).hostReads = s.hostReads := rfl
@[simp] theorem backwardSample_freeCount (m n : Nat) (p : LinePos) (v : F32) (s : State) :
    (backwardSample m n p v s).freeCount = s.freeCount := rfl

/-! ### cacheStore -/

@[simp] theorem cacheStore_ie (y : Nat) (p : LinePos) (s : State) :
    (cacheStore y p s).ie = s.ie := rfl
@[simp] theorem cacheStore_status (y : Nat) (p : LinePos) (s : State) :
    (cacheStore y p s).status = s.status := rfl
@[simp] theorem cacheStore_cmd (y : Nat) (p : LinePos) (s : State) :
    (cacheStore y p s).cmd = s.cmd := rfl
@[simp] theorem cacheStore_errAddr (y : Nat) (p : LinePos) (s : State) :
    (cacheStore y p s).errAddr = s.errAddr := rfl
@[simp] theorem cacheStore_lineCount (y : Nat) (p : LinePos) (s : State) :
    (cacheStore y p s).lineCount = s.lineCount := rfl
@[simp] theorem cacheStore_params (y : Nat) (p : LinePos) (s : State) :
    (cacheStore y p s).params = s.params := rfl
@[simp] theorem cacheStore_coefs (y : Nat) (p : LinePos) (s : State) :
    (cacheStore y p s).coefs = s.coefs := rfl
@[simp] theorem cacheStore_latched (y : Nat) (p : LinePos) (s : State) :
    (cacheStore y p s).latched = s.latched := rfl
@[simp] theorem cacheStore_work (y : Nat) (p : LinePos) (s : State) :
    (cacheStore y p s).work = writeCell s.work (cacheIndex s.latched p.i y p.c) (passResult (opChannels s.latched) p s) := rfl
@[simp] theorem cacheStore_acc (y : Nat) (p : LinePos) (s : State) :
    (cacheStore y p s).acc = s.acc := rfl
@[simp] theorem cacheStore_abortReq (y : Nat) (p : LinePos) (s : State) :
    (cacheStore y p s).abortReq = s.abortReq := rfl
@[simp] theorem cacheStore_progress (y : Nat) (p : LinePos) (s : State) :
    (cacheStore y p s).progress = s.progress := rfl
@[simp] theorem cacheStore_mem (y : Nat) (p : LinePos) (s : State) :
    (cacheStore y p s).mem = s.mem := rfl
@[simp] theorem cacheStore_platform (y : Nat) (p : LinePos) (s : State) :
    (cacheStore y p s).platform = s.platform := rfl
@[simp] theorem cacheStore_agenda (y : Nat) (p : LinePos) (s : State) :
    (cacheStore y p s).agenda = s.agenda := rfl
@[simp] theorem cacheStore_hostReads (y : Nat) (p : LinePos) (s : State) :
    (cacheStore y p s).hostReads = s.hostReads := rfl
@[simp] theorem cacheStore_freeCount (y : Nat) (p : LinePos) (s : State) :
    (cacheStore y p s).freeCount = s.freeCount := rfl

/-! ### countLine -/

@[simp] theorem countLine_ie (s : State) :
    (countLine s).ie = s.ie := rfl
@[simp] theorem countLine_status (s : State) :
    (countLine s).status = s.status := rfl
@[simp] theorem countLine_cmd (s : State) :
    (countLine s).cmd = s.cmd := rfl
@[simp] theorem countLine_errAddr (s : State) :
    (countLine s).errAddr = s.errAddr := rfl
@[simp] theorem countLine_lineCount (s : State) :
    (countLine s).lineCount = s.lineCount + 1#32 := rfl
@[simp] theorem countLine_params (s : State) :
    (countLine s).params = s.params := rfl
@[simp] theorem countLine_coefs (s : State) :
    (countLine s).coefs = s.coefs := rfl
@[simp] theorem countLine_latched (s : State) :
    (countLine s).latched = s.latched := rfl
@[simp] theorem countLine_work (s : State) :
    (countLine s).work = s.work := rfl
@[simp] theorem countLine_acc (s : State) :
    (countLine s).acc = s.acc := rfl
@[simp] theorem countLine_abortReq (s : State) :
    (countLine s).abortReq = s.abortReq := rfl
@[simp] theorem countLine_progress (s : State) :
    (countLine s).progress = s.progress := rfl
@[simp] theorem countLine_mem (s : State) :
    (countLine s).mem = s.mem := rfl
@[simp] theorem countLine_platform (s : State) :
    (countLine s).platform = s.platform := rfl
@[simp] theorem countLine_agenda (s : State) :
    (countLine s).agenda = s.agenda := rfl
@[simp] theorem countLine_hostReads (s : State) :
    (countLine s).hostReads = s.hostReads := rfl
@[simp] theorem countLine_freeCount (s : State) :
    (countLine s).freeCount = s.freeCount := rfl

/-! ### resetBlock -/

@[simp] theorem resetBlock_ie (s : State) :
    (resetBlock s).ie = State.reset.ie := rfl
@[simp] theorem resetBlock_status (s : State) :
    (resetBlock s).status = State.reset.status := rfl
@[simp] theorem resetBlock_cmd (s : State) :
    (resetBlock s).cmd = State.reset.cmd := rfl
@[simp] theorem resetBlock_errAddr (s : State) :
    (resetBlock s).errAddr = State.reset.errAddr := rfl
@[simp] theorem resetBlock_lineCount (s : State) :
    (resetBlock s).lineCount = State.reset.lineCount := rfl
@[simp] theorem resetBlock_params (s : State) :
    (resetBlock s).params = State.reset.params := rfl
@[simp] theorem resetBlock_coefs (s : State) :
    (resetBlock s).coefs = State.reset.coefs := rfl
@[simp] theorem resetBlock_latched (s : State) :
    (resetBlock s).latched = State.reset.latched := rfl
@[simp] theorem resetBlock_work (s : State) :
    (resetBlock s).work = State.reset.work := rfl
@[simp] theorem resetBlock_acc (s : State) :
    (resetBlock s).acc = State.reset.acc := rfl
@[simp] theorem resetBlock_abortReq (s : State) :
    (resetBlock s).abortReq = State.reset.abortReq := rfl
@[simp] theorem resetBlock_progress (s : State) :
    (resetBlock s).progress = State.reset.progress := rfl
@[simp] theorem resetBlock_mem (s : State) :
    (resetBlock s).mem = s.mem := rfl
@[simp] theorem resetBlock_platform (s : State) :
    (resetBlock s).platform = s.platform := rfl
@[simp] theorem resetBlock_agenda (s : State) :
    (resetBlock s).agenda = s.agenda := rfl
@[simp] theorem resetBlock_hostReads (s : State) :
    (resetBlock s).hostReads = s.hostReads := rfl
@[simp] theorem resetBlock_freeCount (s : State) :
    (resetBlock s).freeCount = s.freeCount := rfl

/-! ### deliverRead -/

@[simp] theorem deliverRead_ie (v : Word) (s : State) :
    (deliverRead v s).ie = s.ie := rfl
@[simp] theorem deliverRead_status (v : Word) (s : State) :
    (deliverRead v s).status = s.status := rfl
@[simp] theorem deliverRead_cmd (v : Word) (s : State) :
    (deliverRead v s).cmd = s.cmd := rfl
@[simp] theorem deliverRead_errAddr (v : Word) (s : State) :
    (deliverRead v s).errAddr = s.errAddr := rfl
@[simp] theorem deliverRead_lineCount (v : Word) (s : State) :
    (deliverRead v s).lineCount = s.lineCount := rfl
@[simp] theorem deliverRead_params (v : Word) (s : State) :
    (deliverRead v s).params = s.params := rfl
@[simp] theorem deliverRead_coefs (v : Word) (s : State) :
    (deliverRead v s).coefs = s.coefs := rfl
@[simp] theorem deliverRead_latched (v : Word) (s : State) :
    (deliverRead v s).latched = s.latched := rfl
@[simp] theorem deliverRead_work (v : Word) (s : State) :
    (deliverRead v s).work = s.work := rfl
@[simp] theorem deliverRead_acc (v : Word) (s : State) :
    (deliverRead v s).acc = s.acc := rfl
@[simp] theorem deliverRead_abortReq (v : Word) (s : State) :
    (deliverRead v s).abortReq = s.abortReq := rfl
@[simp] theorem deliverRead_progress (v : Word) (s : State) :
    (deliverRead v s).progress = s.progress := rfl
@[simp] theorem deliverRead_mem (v : Word) (s : State) :
    (deliverRead v s).mem = s.mem := rfl
@[simp] theorem deliverRead_platform (v : Word) (s : State) :
    (deliverRead v s).platform = s.platform := rfl
@[simp] theorem deliverRead_agenda (v : Word) (s : State) :
    (deliverRead v s).agenda = s.agenda := rfl
@[simp] theorem deliverRead_hostReads (v : Word) (s : State) :
    (deliverRead v s).hostReads = v :: s.hostReads := rfl
@[simp] theorem deliverRead_freeCount (v : Word) (s : State) :
    (deliverRead v s).freeCount = s.freeCount := rfl

/-! ### writeCtrl -/

@[simp] theorem writeCtrl_ie (w : Word) (s : State) :
    (writeCtrl w s).ie = w.getLsbD 0 := rfl
@[simp] theorem writeCtrl_status (w : Word) (s : State) :
    (writeCtrl w s).status = s.status := rfl
@[simp] theorem writeCtrl_cmd (w : Word) (s : State) :
    (writeCtrl w s).cmd = s.cmd := rfl
@[simp] theorem writeCtrl_errAddr (w : Word) (s : State) :
    (writeCtrl w s).errAddr = s.errAddr := rfl
@[simp] theorem writeCtrl_lineCount (w : Word) (s : State) :
    (writeCtrl w s).lineCount = s.lineCount := rfl
@[simp] theorem writeCtrl_params (w : Word) (s : State) :
    (writeCtrl w s).params = s.params := rfl
@[simp] theorem writeCtrl_coefs (w : Word) (s : State) :
    (writeCtrl w s).coefs = s.coefs := rfl
@[simp] theorem writeCtrl_latched (w : Word) (s : State) :
    (writeCtrl w s).latched = s.latched := rfl
@[simp] theorem writeCtrl_work (w : Word) (s : State) :
    (writeCtrl w s).work = s.work := rfl
@[simp] theorem writeCtrl_acc (w : Word) (s : State) :
    (writeCtrl w s).acc = s.acc := rfl
@[simp] theorem writeCtrl_abortReq (w : Word) (s : State) :
    (writeCtrl w s).abortReq = (if w.getLsbD 1 && s.status.busy then true else s.abortReq) := rfl
@[simp] theorem writeCtrl_progress (w : Word) (s : State) :
    (writeCtrl w s).progress = s.progress := rfl
@[simp] theorem writeCtrl_mem (w : Word) (s : State) :
    (writeCtrl w s).mem = s.mem := rfl
@[simp] theorem writeCtrl_platform (w : Word) (s : State) :
    (writeCtrl w s).platform = s.platform := rfl
@[simp] theorem writeCtrl_agenda (w : Word) (s : State) :
    (writeCtrl w s).agenda = s.agenda := rfl
@[simp] theorem writeCtrl_hostReads (w : Word) (s : State) :
    (writeCtrl w s).hostReads = s.hostReads := rfl
@[simp] theorem writeCtrl_freeCount (w : Word) (s : State) :
    (writeCtrl w s).freeCount = s.freeCount := rfl

/-! ### writeStatus -/

@[simp] theorem writeStatus_ie (w : Word) (s : State) :
    (writeStatus w s).ie = s.ie := rfl
@[simp] theorem writeStatus_status (w : Word) (s : State) :
    (writeStatus w s).status = statusWritten w s.status := rfl
@[simp] theorem writeStatus_cmd (w : Word) (s : State) :
    (writeStatus w s).cmd = s.cmd := rfl
@[simp] theorem writeStatus_errAddr (w : Word) (s : State) :
    (writeStatus w s).errAddr = s.errAddr := rfl
@[simp] theorem writeStatus_lineCount (w : Word) (s : State) :
    (writeStatus w s).lineCount = s.lineCount := rfl
@[simp] theorem writeStatus_params (w : Word) (s : State) :
    (writeStatus w s).params = s.params := rfl
@[simp] theorem writeStatus_coefs (w : Word) (s : State) :
    (writeStatus w s).coefs = s.coefs := rfl
@[simp] theorem writeStatus_latched (w : Word) (s : State) :
    (writeStatus w s).latched = s.latched := rfl
@[simp] theorem writeStatus_work (w : Word) (s : State) :
    (writeStatus w s).work = s.work := rfl
@[simp] theorem writeStatus_acc (w : Word) (s : State) :
    (writeStatus w s).acc = s.acc := rfl
@[simp] theorem writeStatus_abortReq (w : Word) (s : State) :
    (writeStatus w s).abortReq = s.abortReq := rfl
@[simp] theorem writeStatus_progress (w : Word) (s : State) :
    (writeStatus w s).progress = s.progress := rfl
@[simp] theorem writeStatus_mem (w : Word) (s : State) :
    (writeStatus w s).mem = s.mem := rfl
@[simp] theorem writeStatus_platform (w : Word) (s : State) :
    (writeStatus w s).platform = s.platform := rfl
@[simp] theorem writeStatus_agenda (w : Word) (s : State) :
    (writeStatus w s).agenda = s.agenda := rfl
@[simp] theorem writeStatus_hostReads (w : Word) (s : State) :
    (writeStatus w s).hostReads = s.hostReads := rfl
@[simp] theorem writeStatus_freeCount (w : Word) (s : State) :
    (writeStatus w s).freeCount = s.freeCount := rfl

/-! ### statusAccepted -/

@[simp] theorem statusAccepted_busy (st : Status) :
    (statusAccepted st).busy = true := rfl
@[simp] theorem statusAccepted_done (st : Status) :
    (statusAccepted st).done = false := rfl
@[simp] theorem statusAccepted_err (st : Status) :
    (statusAccepted st).err = false := rfl
@[simp] theorem statusAccepted_ovr (st : Status) :
    (statusAccepted st).ovr = st.ovr := rfl
@[simp] theorem statusAccepted_coefValid (st : Status) :
    (statusAccepted st).coefValid = st.coefValid := rfl
@[simp] theorem statusAccepted_errcode (st : Status) :
    (statusAccepted st).errcode = 0#4 := rfl

/-! ### statusOverrun -/

@[simp] theorem statusOverrun_busy (st : Status) :
    (statusOverrun st).busy = st.busy := rfl
@[simp] theorem statusOverrun_done (st : Status) :
    (statusOverrun st).done = st.done := rfl
@[simp] theorem statusOverrun_err (st : Status) :
    (statusOverrun st).err = st.err := rfl
@[simp] theorem statusOverrun_ovr (st : Status) :
    (statusOverrun st).ovr = true := rfl
@[simp] theorem statusOverrun_coefValid (st : Status) :
    (statusOverrun st).coefValid = st.coefValid := rfl
@[simp] theorem statusOverrun_errcode (st : Status) :
    (statusOverrun st).errcode = st.errcode := rfl

/-! ### statusWritten -/

@[simp] theorem statusWritten_busy (w : Word) (st : Status) :
    (statusWritten w st).busy = st.busy := rfl
@[simp] theorem statusWritten_done (w : Word) (st : Status) :
    (statusWritten w st).done = (if w.getLsbD 1 then false else st.done) := rfl
@[simp] theorem statusWritten_err (w : Word) (st : Status) :
    (statusWritten w st).err = (if w.getLsbD 2 then false else st.err) := rfl
@[simp] theorem statusWritten_ovr (w : Word) (st : Status) :
    (statusWritten w st).ovr = (if w.getLsbD 3 then false else st.ovr) := rfl
@[simp] theorem statusWritten_coefValid (w : Word) (st : Status) :
    (statusWritten w st).coefValid = st.coefValid := rfl
@[simp] theorem statusWritten_errcode (w : Word) (st : Status) :
    (statusWritten w st).errcode = (if w.getLsbD 2 then 0#4 else st.errcode) := rfl

/-! ### statusCompleted -/

@[simp] theorem statusCompleted_busy (code : ErrCode) (st : Status) :
    (statusCompleted code st).busy = false := rfl
@[simp] theorem statusCompleted_done (code : ErrCode) (st : Status) :
    (statusCompleted code st).done = true := rfl
@[simp] theorem statusCompleted_err (code : ErrCode) (st : Status) :
    (statusCompleted code st).err = (if code = .noError then st.err else true) := rfl
@[simp] theorem statusCompleted_ovr (code : ErrCode) (st : Status) :
    (statusCompleted code st).ovr = st.ovr := rfl
@[simp] theorem statusCompleted_coefValid (code : ErrCode) (st : Status) :
    (statusCompleted code st).coefValid = st.coefValid := rfl
@[simp] theorem statusCompleted_errcode (code : ErrCode) (st : Status) :
    (statusCompleted code st).errcode = (if code = .noError then st.errcode else errBits code) := rfl

end Sys2Proof.Machine
end

