-- ==== Sys2Proof/Laws/Ops.lean ====
section
/-! SUPPORT. One lemma per shared operation that says everything it can answer, for proofs to cite instead of unfolding the
operation. -/

namespace Sys2Proof.Machine

/-! ### The footprint -/

/-- What `inSamples` says: the byte is one of the four of sample j of run r. -/
theorem inSamples_iff {base stride rows rowSamples a : Nat} :
    inSamples base stride rows rowSamples a = true ↔
      ∃ r j k, r < rows ∧ j < rowSamples ∧ k < 4 ∧ a = sampleAddress base (r * stride + j) + k := by
  simp only [inSamples, Bool.and_eq_true, decide_eq_true_eq]
  simp only [runAt, sampleAddress]
  constructor
  · rintro ⟨⟨hb, hr⟩, hj⟩
    have hle : min ((a - base) / 4 / stride) (rows - 1) * stride ≤ (a - base) / 4 :=
      le_trans (Nat.mul_le_mul_right _ (min_le_left _ _)) (Nat.div_mul_le_self _ _)
    refine ⟨min ((a - base) / 4 / stride) (rows - 1), _, (a - base) % 4, ?_, hj, Nat.mod_lt _ (by norm_num), ?_⟩
    · have := min_le_right ((a - base) / 4 / stride) (rows - 1)
      omega
    · omega
  · rintro ⟨r, j, k, hr, hj, hk, rfl⟩
    have hq : (base + 4 * (r * stride + j) + k - base) / 4 = r * stride + j := by omega
    rw [hq]
    refine ⟨⟨by omega, by omega⟩, ?_⟩
    have h1 : r ≤ (r * stride + j) / stride ∨ stride = 0 := by
      rcases Nat.eq_zero_or_pos stride with h | h
      · exact .inr h
      · exact .inl ((Nat.le_div_iff_mul_le h).2 (Nat.le_add_right _ _))
    rcases h1 with h1 | h1
    · have : r * stride ≤ min ((r * stride + j) / stride) (rows - 1) * stride :=
        Nat.mul_le_mul_right _ (le_min h1 (by omega))
      omega
    · subst h1
      simp only [Nat.mul_zero] at *
      omega

/-! ### The exponential -/

/-- FEXP on the interval of its laws is the configuration's exponential; at ±0 law L1 gives both. -/
theorem fexp_eq_exponential {x : F32} (hx : fexpArgument x) : fexp x = Config.exponential.apply x := by
  unfold fexp
  split
  · rename_i hz
    have hx0 : x = 0x00000000#32 ∨ x = 0x80000000#32 := by
      have hf := (fIsZero_iff_mag x).1 hz
      have hn : x.toNat % 2 ^ 31 = 0 := by
        simp only [fIsZero, Bool.and_eq_true, beq_iff_eq, fExp_eq, fFrac_eq] at hz
        omega
      have := x.isLt
      rcases (by omega : x.toNat = 0 ∨ x.toNat = 2 ^ 31) with h | h
      · exact .inl (BitVec.eq_of_toNat_eq h)
      · exact .inr (BitVec.eq_of_toNat_eq h)
    rcases hx0 with rfl | rfl
    · exact Config.exponential.laws.atZero.1.symm
    · exact Config.exponential.laws.atZero.2.symm
  · rw [fCanon, (fIsFinite_excludes (Config.exponential.laws.positive x hx).1).1]
    rfl

/-! ### The memory port -/

/-- What a memory-port read that answers a next state did. -/
theorem portRead_next {a : Nat} {s t : State} {k : Word → State} (h : portRead a s k = .next t) :
    portAddressOk a = true ∧
      ((readFails s.platform a = true ∧ t = goTo (.busError (BitVec.ofNat 32 a)) s) ∨
        (readFails s.platform a = false ∧ hasSideEffects s.platform a 4 = false ∧ t = k (readWord s.mem a))) := by
  unfold portRead at h
  split at h
  · cases h
  · rename_i hok
    split at h
    · rename_i hf; cases h; exact ⟨by simpa using hok, .inl ⟨hf, rfl⟩⟩
    · rename_i hf
      split at h
      · cases h
      · rename_i hs; cases h; exact ⟨by simpa using hok, .inr ⟨by simpa using hf, by simpa using hs, rfl⟩⟩

/-- What a memory-port write that answers a next state did. -/
theorem portWrite_next {a : Nat} {v : Word} {s t : State} {k : State → State} (h : portWrite a v s k = .next t) :
    portAddressOk a = true ∧
      ((writeFails s.platform a = true ∧ t = goTo (.busError (BitVec.ofNat 32 a)) (failedWrite a s)) ∨
        (writeFails s.platform a = false ∧ hasSideEffects s.platform a 4 = false ∧ t = k (storeWord a v s))) := by
  unfold portWrite at h
  split at h
  · cases h
  · rename_i hok
    split at h
    · rename_i hf; cases h; exact ⟨by simpa using hok, .inl ⟨hf, rfl⟩⟩
    · rename_i hf
      split at h
      · cases h
      · rename_i hs; cases h; exact ⟨by simpa using hok, .inr ⟨by simpa using hf, by simpa using hs, rfl⟩⟩

/-- A memory-port read of a word that answers as ordinary memory. -/
theorem portRead_answers {a : Nat} {s : State} (k : Word → State) (ha : portAddressOk a = true)
    (h : readFails s.platform a = false ∧ hasSideEffects s.platform a 4 = false) :
    portRead a s k = .next (k (readWord s.mem a)) := by
  simp [portRead, ha, h.1, h.2]

/-- A memory-port write of a word that answers as ordinary memory. -/
theorem portWrite_answers {a : Nat} {s : State} (v : Word) (k : State → State) (ha : portAddressOk a = true)
    (h : writeFails s.platform a = false ∧ hasSideEffects s.platform a 4 = false) :
    portWrite a v s k = .next (k (storeWord a v s)) := by
  simp [portWrite, ha, h.1, h.2]

/-- An address that a memory-port access can have. -/
theorem portAddressOk_iff (a : Nat) : portAddressOk a = true ↔ a % 4 = 0 ∧ a + 4 ≤ 2 ^ 32 := by
  simp [portAddressOk, Config.addressLimit]

/-! ### Starting and ending a command -/

/-- What a CHECK step that answers a next state did. -/
theorem checkStep_next {code : ErrCode} {s t : State} {goOn : Result} (h : checkStep code s goOn = .next t) :
    (code ≠ .noError ∧ t = complete code 0#32 s) ∨
      (code = .noError ∧ s.abortReq = true ∧ t = complete .aborted 0#32 s) ∨
      (code = .noError ∧ s.abortReq = false ∧ goOn = .next t) := by
  unfold checkStep at h
  split at h
  · rename_i hc
    split at h
    · rename_i ha; cases h; exact .inr (.inl ⟨hc, ha, rfl⟩)
    · rename_i ha; exact .inr (.inr ⟨hc, by simpa using ha, h⟩)
  · rename_i hc; cases h; exact .inl ⟨hc, rfl⟩

/-- What an abort point that answers a next state did. -/
theorem abortPoint_next {s t : State} {goOn : Result} (h : abortPoint s goOn = .next t) :
    (s.abortReq = true ∧ t = complete .aborted 0#32 s) ∨ (s.abortReq = false ∧ goOn = .next t) := by
  unfold abortPoint at h
  split at h
  · rename_i ha; cases h; exact .inl ⟨ha, rfl⟩
  · rename_i ha; exact .inr ⟨by simpa using ha, h⟩

@[simp] theorem abortPoint_clear {s : State} (goOn : Result) (h : s.abortReq = false) : abortPoint s goOn = goOn := by
  simp [abortPoint, h]

@[simp] theorem abortPoint_pending {s : State} (goOn : Result) (h : s.abortReq = true) :
    abortPoint s goOn = .next (complete .aborted 0#32 s) := by
  simp [abortPoint, h]

/-! ### The line pass -/

/-- The end of a step of a line pass: the next place in the pass, or the line counted. -/
theorem passOn_cases (n channels : Nat) (p : LinePos) (inPass : LinePos → Progress) (after : Progress) (s : State) :
    (∃ q, nextPos n channels p = some q ∧ passOn n channels p inPass after s = goTo (inPass q) s) ∨
      (nextPos n channels p = none ∧ passOn n channels p inPass after s = goTo after (countLine s)) := by
  unfold passOn
  split
  · rename_i q hq; exact .inl ⟨q, hq, rfl⟩
  · rename_i hq; exact .inr ⟨hq, rfl⟩

/-- A line pass ends exactly after its last deliver step. -/
theorem nextPos_eq_none_iff (n channels : Nat) (p : LinePos) :
    nextPos n channels p = none ↔ p.phase = .deliver ∧ channels ≤ p.c + 1 ∧ p.i = 0 := by
  obtain ⟨ph, i, c⟩ := p
  cases ph <;> simp only [nextPos]
  · split <;> simp; split <;> simp
  · split <;> simp
  · split
    · simp; omega
    · split <;> simp <;> omega

/-- A line pass stays inside its line. -/
theorem nextPos_inside {n channels : Nat} {p q : LinePos} (hi : p.i < n) (hc : p.c < channels)
    (h : nextPos n channels p = some q) : q.i < n ∧ q.c < channels := by
  obtain ⟨ph, i, c⟩ := p
  simp only at hi hc
  cases ph <;> simp only [nextPos] at h <;> split at h
  · cases h; exact ⟨hi, by assumption⟩
  · split at h <;> cases h <;> simp only <;> omega
  · cases h; exact ⟨hi, by assumption⟩
  · cases h; simp only; omega
  · cases h; exact ⟨hi, by assumption⟩
  · split at h <;> cases h
    simp only; omega

/-! ### Host register accesses -/

@[simp] theorem regAt_regOffset (r : Reg) : regAt (regOffset r) = some r := by cases r <;> rfl

/-- A register starts at the offset that finds it. -/
theorem regOffset_of_regAt {offset : Nat} {r : Reg} (h : regAt offset = some r) : regOffset r = offset := by
  have := List.find?_some h
  simpa using this

/-- What a register access that answers a next state did. -/
theorem registerAccess_next {offset size : Nat} {access : Reg → State} {t : State}
    (h : registerAccess offset size access = .next t) :
    ∃ r, offset = regOffset r ∧ size = 4 ∧ t = access r := by
  unfold registerAccess at h
  split at h
  · cases h
  · split at h
    · cases h
    · rename_i hok
      split at h
      · cases h
      · rename_i r hr
        cases h
        refine ⟨r, (regOffset_of_regAt hr).symm, ?_, rfl⟩
        simp [registerAccessOk] at hok
        exact hok.1

/-- A 32-bit access at a register's offset is performed. -/
@[simp] theorem registerAccess_regOffset (r : Reg) (access : Reg → State) :
    registerAccess (regOffset r) 4 access = .next (access r) := by
  cases r <;> rfl

/-! ### Steps -/

/-- What a step that answers a next state did: the engine's step with an empty agenda, or the first event's. -/
theorem step_next {s t : State} (h : step s = .next t) :
    (s.agenda = [] ∧ engineStep s = .next t) ∨
      ∃ e rest, s.agenda = e :: rest ∧ eventStep e { s with agenda := rest } = .next t := by
  unfold step at h
  split at h
  · rename_i ha; exact .inl ⟨ha, h⟩
  · rename_i e rest ha; exact .inr ⟨e, rest, ha, h⟩

end Sys2Proof.Machine
end

