-- ==== Sys2Proof/Laws/EngineMoves.lean ====
section
/-! SUPPORT. What an engine step can do, said once: the inversion of the engine's step into its moves, and of the steps of
the three passes. Every property of all steps is a case analysis of these. -/

namespace Sys2Proof.Machine

/-- Why an engine step completes the command with a code and an info word, besides step SOLVE of a SOLVE. -/
inductive EndReason (s : State) : ErrCode → Word → Prop
  | illegal (hp : s.progress = .check) : EndReason s .illegalCmd 0#32
  | line (hp : s.progress = .check) (hi : latchedIs .line s) (hc : lineCheck s ≠ .noError) :
      EndReason s (lineCheck s) 0#32
  | blur (hp : s.progress = .check) (hi : latchedIs .blur2d s) (hc : blurCheck s ≠ .noError) :
      EndReason s (blurCheck s) 0#32
  | aborted (ha : s.abortReq = true) : EndReason s .aborted 0#32
  | nop (hp : s.progress = .check) (hi : latchedIs .nop s) : EndReason s .noError 0#32
  | finish (hp : s.progress = .finish) (hi : latchedIs .line s ∨ latchedIs .blur2d s) : EndReason s .noError 0#32
  | busError (a : Word) (hp : s.progress = .busError a) (hi : latchedIs .line s ∨ latchedIs .blur2d s) :
      EndReason s .busError a

/-- The moves of the engine. -/
inductive EngineMove (s : State) : State → Prop
  | idle (hb : s.status.busy = false) : EngineMove s s
  | ended (code : ErrCode) (info : Word) (hb : s.status.busy = true) (hr : EndReason s code info) :
      EngineMove s (complete code info s)
  | lineStart (hb : s.status.busy = true) (hp : s.progress = .check) (hi : latchedIs .line s)
      (hc : lineCheck s = .noError) (ha : s.abortReq = false) : EngineMove s (goTo (.lpass passStart) s)
  | solveStart (hb : s.status.busy = true) (hp : s.progress = .check)
      (hi : latchedIs .solve s ∨ (latchedIs .blur2d s ∧ blurCheck s = .noError)) (ha : s.abortReq = false) :
      EngineMove s (goTo .solve s)
  | solveDone (hb : s.status.busy = true) (hp : s.progress = .solve) (hi : latchedIs .solve s)
      (ha : s.abortReq = false) : EngineMove s (complete .noError 0#32 (solveUpdate s))
  | blurSolve (hb : s.status.busy = true) (hp : s.progress = .solve) (hi : latchedIs .blur2d s)
      (ha : s.abortReq = false) : EngineMove s (goTo (.hpass 0 passStart) (solveUpdate s))
  | linePass (p : LinePos) (t : State) (hb : s.status.busy = true) (hp : s.progress = .lpass p)
      (hi : latchedIs .line s) (ha : s.abortReq = false) (ht : linePassStep p s = .next t) : EngineMove s t
  | rowPass (y : Nat) (p : LinePos) (t : State) (hb : s.status.busy = true) (hp : s.progress = .hpass y p)
      (hi : latchedIs .blur2d s) (ha : s.abortReq = false) (ht : rowPassStep y p s = .next t) : EngineMove s t
  | columnPass (x : Nat) (p : LinePos) (t : State) (hb : s.status.busy = true) (hp : s.progress = .vpass x p)
      (hi : latchedIs .blur2d s) (ha : s.abortReq = false) (ht : columnPassStep x p s = .next t) : EngineMove s t

theorem execNop_moves {s t : State} (hb : s.status.busy = true) (hi : latchedIs .nop s) (h : execNop s = .next t) :
    EngineMove s t := by
  unfold execNop at h
  split at h
  · rename_i hp
    rcases checkStep_next h with ⟨hc, _⟩ | ⟨_, ha, rfl⟩ | ⟨_, _, h'⟩
    · exact absurd rfl hc
    · exact .ended _ _ hb (.aborted ha)
    · cases h'; exact .ended _ _ hb (.nop hp hi)
  · cases h

theorem execSolve_moves {s t : State} (hb : s.status.busy = true) (hi : latchedIs .solve s)
    (h : execSolve s = .next t) : EngineMove s t := by
  unfold execSolve at h
  split at h
  · rename_i hp
    rcases checkStep_next h with ⟨hc, _⟩ | ⟨_, ha, rfl⟩ | ⟨_, ha, h'⟩
    · exact absurd rfl hc
    · exact .ended _ _ hb (.aborted ha)
    · cases h'; exact .solveStart hb hp (.inl hi) ha
  · rename_i hp
    rcases abortPoint_next h with ⟨ha, rfl⟩ | ⟨ha, h'⟩
    · exact .ended _ _ hb (.aborted ha)
    · cases h'; exact .solveDone hb hp hi ha
  · cases h

theorem execLine_moves {s t : State} (hb : s.status.busy = true) (hi : latchedIs .line s)
    (h : execLine s = .next t) : EngineMove s t := by
  unfold execLine at h
  split at h
  · rename_i hp
    rcases checkStep_next h with ⟨hc, rfl⟩ | ⟨_, ha, rfl⟩ | ⟨hc, ha, h'⟩
    · exact .ended _ _ hb (.line hp hi hc)
    · exact .ended _ _ hb (.aborted ha)
    · cases h'; exact .lineStart hb hp hi hc ha
  · rename_i p hp
    rcases abortPoint_next h with ⟨ha, rfl⟩ | ⟨ha, h'⟩
    · exact .ended _ _ hb (.aborted ha)
    · exact .linePass p t hb hp hi ha h'
  · rename_i hp; cases h; exact .ended _ _ hb (.finish hp (.inl hi))
  · rename_i a hp; cases h; exact .ended _ _ hb (.busError a hp (.inl hi))
  · cases h

theorem execBlur2d_moves {s t : State} (hb : s.status.busy = true) (hi : latchedIs .blur2d s)
    (h : execBlur2d s = .next t) : EngineMove s t := by
  unfold execBlur2d at h
  split at h
  · rename_i hp
    rcases checkStep_next h with ⟨hc, rfl⟩ | ⟨_, ha, rfl⟩ | ⟨hc, ha, h'⟩
    · exact .ended _ _ hb (.blur hp hi hc)
    · exact .ended _ _ hb (.aborted ha)
    · cases h'; exact .solveStart hb hp (.inr ⟨hi, hc⟩) ha
  · rename_i hp
    rcases abortPoint_next h with ⟨ha, rfl⟩ | ⟨ha, h'⟩
    · exact .ended _ _ hb (.aborted ha)
    · cases h'; exact .blurSolve hb hp hi ha
  · rename_i y p hp
    rcases abortPoint_next h with ⟨ha, rfl⟩ | ⟨ha, h'⟩
    · exact .ended _ _ hb (.aborted ha)
    · exact .rowPass y p t hb hp hi ha h'
  · rename_i x p hp
    rcases abortPoint_next h with ⟨ha, rfl⟩ | ⟨ha, h'⟩
    · exact .ended _ _ hb (.aborted ha)
    · exact .columnPass x p t hb hp hi ha h'
  · rename_i hp; cases h; exact .ended _ _ hb (.finish hp (.inr hi))
  · rename_i a hp; cases h; exact .ended _ _ hb (.busError a hp (.inr hi))
  · cases h

/-- Every engine step that answers a next state is one of the moves. -/
theorem engineStep_moves {s t : State} (h : engineStep s = .next t) : EngineMove s t := by
  unfold engineStep at h
  split at h
  · rename_i hb
    split at h
    · rename_i i hi
      cases i
      · exact execNop_moves hb hi h
      · exact execSolve_moves hb hi h
      · exact execLine_moves hb hi h
      · exact execBlur2d_moves hb hi h
    · unfold illegalStep at h
      split at h
      · rename_i hp; cases h; exact .ended _ _ hb (.illegal hp)
      · cases h
  · rename_i hb; cases h; exact .idle (by simpa using hb)

/-- What a step of LPASS that answers a next state did. -/
theorem linePassStep_next {p : LinePos} {s t : State} (h : linePassStep p s = .next t) :
    (p.phase ≠ .deliver ∧ portAddressOk (lineSrcAddress s.latched p.i p.c) = true ∧
      t = goTo (.busError (BitVec.ofNat 32 (lineSrcAddress s.latched p.i p.c))) s) ∨
    (p.phase = .forward ∧ portAddressOk (lineSrcAddress s.latched p.i p.c) = true ∧
      t = lineNext p (forwardSample (opChannels s.latched) p
        (readWord s.mem (lineSrcAddress s.latched p.i p.c)) s)) ∨
    (p.phase = .backward ∧ portAddressOk (lineSrcAddress s.latched p.i p.c) = true ∧
      t = lineNext p (backwardSample (opWidth s.latched) (opChannels s.latched) p
        (readWord s.mem (lineSrcAddress s.latched p.i p.c)) s)) ∨
    (p.phase = .deliver ∧ portAddressOk (lineDstAddress s.latched p.i p.c) = true ∧
      (t = goTo (.busError (BitVec.ofNat 32 (lineDstAddress s.latched p.i p.c)))
          (failedWrite (lineDstAddress s.latched p.i p.c) s) ∨
        t = lineNext p (storeWord (lineDstAddress s.latched p.i p.c)
          (passResult (opChannels s.latched) p s) s))) := by
  unfold linePassStep at h
  split at h
  · rename_i hp
    rcases portRead_next h with ⟨hok, ⟨_, rfl⟩ | ⟨_, _, rfl⟩⟩
    · exact .inl ⟨by simp [hp], hok, rfl⟩
    · exact .inr (.inl ⟨hp, hok, rfl⟩)
  · rename_i hp
    rcases portRead_next h with ⟨hok, ⟨_, rfl⟩ | ⟨_, _, rfl⟩⟩
    · exact .inl ⟨by simp [hp], hok, rfl⟩
    · exact .inr (.inr (.inl ⟨hp, hok, rfl⟩))
  · rename_i hp
    rcases portWrite_next h with ⟨hok, ⟨_, rfl⟩ | ⟨_, _, rfl⟩⟩
    · exact .inr (.inr (.inr ⟨hp, hok, .inl rfl⟩))
    · exact .inr (.inr (.inr ⟨hp, hok, .inr rfl⟩))

/-- What a step of HPASS that answers a next state did. -/
theorem rowPassStep_next {y : Nat} {p : LinePos} {s t : State} (h : rowPassStep y p s = .next t) :
    (p.phase ≠ .deliver ∧ portAddressOk (blurSrcAddress s.latched y p.i p.c) = true ∧
      t = goTo (.busError (BitVec.ofNat 32 (blurSrcAddress s.latched y p.i p.c))) s) ∨
    (p.phase = .forward ∧ portAddressOk (blurSrcAddress s.latched y p.i p.c) = true ∧
      t = rowNext y p (forwardSample (opChannels s.latched) p
        (readWord s.mem (blurSrcAddress s.latched y p.i p.c)) s)) ∨
    (p.phase = .backward ∧ portAddressOk (blurSrcAddress s.latched y p.i p.c) = true ∧
      t = rowNext y p (backwardSample (opWidth s.latched) (opChannels s.latched) p
        (readWord s.mem (blurSrcAddress s.latched y p.i p.c)) s)) ∨
    (p.phase = .deliver ∧ t = rowNext y p (cacheStore y p s)) := by
  unfold rowPassStep at h
  split at h
  · rename_i hp
    rcases portRead_next h with ⟨hok, ⟨_, rfl⟩ | ⟨_, _, rfl⟩⟩
    · exact .inl ⟨by simp [hp], hok, rfl⟩
    · exact .inr (.inl ⟨hp, hok, rfl⟩)
  · rename_i hp
    rcases portRead_next h with ⟨hok, ⟨_, rfl⟩ | ⟨_, _, rfl⟩⟩
    · exact .inl ⟨by simp [hp], hok, rfl⟩
    · exact .inr (.inr (.inl ⟨hp, hok, rfl⟩))
  · rename_i hp; cases h; exact .inr (.inr (.inr ⟨hp, rfl⟩))

/-- What a step of VPASS that answers a next state did. -/
theorem columnPassStep_next {x : Nat} {p : LinePos} {s t : State} (h : columnPassStep x p s = .next t) :
    (p.phase = .forward ∧ t = columnNext x p (forwardSample (opChannels s.latched) p (cacheLoad x p s) s)) ∨
    (p.phase = .backward ∧
      t = columnNext x p (backwardSample (opHeight s.latched) (opChannels s.latched) p (cacheLoad x p s) s)) ∨
    (p.phase = .deliver ∧ portAddressOk (blurDstAddress s.latched p.i x p.c) = true ∧
      (t = goTo (.busError (BitVec.ofNat 32 (blurDstAddress s.latched p.i x p.c)))
          (failedWrite (blurDstAddress s.latched p.i x p.c) s) ∨
        t = columnNext x p (storeWord (blurDstAddress s.latched p.i x p.c)
          (passResult (opChannels s.latched) p s) s))) := by
  unfold columnPassStep at h
  split at h
  · rename_i hp; cases h; exact .inl ⟨hp, rfl⟩
  · rename_i hp; cases h; exact .inr (.inl ⟨hp, rfl⟩)
  · rename_i hp
    rcases portWrite_next h with ⟨hok, ⟨_, rfl⟩ | ⟨_, _, rfl⟩⟩
    · exact .inr (.inr ⟨hp, hok, .inl rfl⟩)
    · exact .inr (.inr ⟨hp, hok, .inr rfl⟩)

end Sys2Proof.Machine
end

