-- ==== Sys2Proof/Laws/HostMoves.lean ====
section
/-! SUPPORT. What a host step can do, said once, and with it what any step of the machine can do. -/

namespace Sys2Proof.Machine

/-- The moves of the host. -/
inductive HostMove (h : HostStep) (s : State) : State → Prop
  | write (r : Reg) (w : Word) (hh : h = .wr (regOffset r) 4 w) : HostMove h s (writeReg r w s)
  | read (v : Word) : HostMove h s (deliverRead v s)
  | store (a n : Nat) (v : Word) (ha : a + n ≤ 2 ^ 32) (hf : (s.status.busy && touchesSample s.latched a n) = false) :
      HostMove h s { s with mem := writeBytes s.mem a v n }
  | poll (v : Word) (hb : s.status.busy = true) :
      HostMove h s { deliverRead v s with agenda := .engine :: .host .wait :: s.agenda }

/-- Every host step that answers a next state is one of the moves. -/
theorem hostStep_moves {h : HostStep} {s t : State} (ht : hostStep h s = .next t) : HostMove h s t := by
  cases h with
  | wr offset size w =>
    obtain ⟨r, rfl, rfl, rfl⟩ := registerAccess_next ht
    exact .write r w rfl
  | rd offset size =>
    obtain ⟨r, rfl, rfl, rfl⟩ := registerAccess_next ht
    exact .read _
  | mem a width v =>
    simp only [hostStep, hostStore] at ht
    split at ht
    · cases ht
    · rename_i hle
      split at ht
      · cases ht
      · split at ht
        · cases ht
        · rename_i hf
          cases ht
          refine .store a _ v ?_ (by simpa using hf)
          simp only [Config.addressLimit] at hle
          omega
  | ld a width =>
    simp only [hostStep, hostLoad] at ht
    split at ht
    · cases ht
    · split at ht
      · cases ht
      · cases ht; exact .read _
  | wait =>
    simp only [hostStep, hostWait] at ht
    split at ht
    · rename_i hb; cases ht; exact .poll _ hb
    · cases ht; exact .read _

/-- A host register write that starts a command is an accepted CMD write; any other register write leaves the running
command, its progress and the outcome registers as they are. -/
theorem writeReg_cases (r : Reg) (w : Word) (s : State) :
    (r = .cmd ∧ s.status.busy = false ∧ writeReg r w s = accept w s) ∨
    (r = .cmd ∧ s.status.busy = true ∧ writeReg r w s = { s with status := statusOverrun s.status }) ∨
    (r = .ctrl ∧ writeReg r w s = writeCtrl w s) ∨
    (r = .status ∧ writeReg r w s = writeStatus w s) ∨
    (r ≠ .cmd ∧ r ≠ .ctrl ∧ r ≠ .status ∧ writeReg r w s = { s with params := writeParam r w s.params }) := by
  cases r
  case cmd =>
    cases hb : s.status.busy
    · exact .inl ⟨rfl, rfl, by simp [writeReg, writeCmd, hb]⟩
    · exact .inr (.inl ⟨rfl, rfl, by simp [writeReg, writeCmd, hb]⟩)
  case ctrl => exact .inr (.inr (.inl ⟨rfl, rfl⟩))
  case status => exact .inr (.inr (.inr (.inl ⟨rfl, rfl⟩)))
  all_goals exact .inr (.inr (.inr (.inr ⟨by decide, by decide, by decide, rfl⟩)))

/-- A step of the machine is a move of the engine, a move of the host, or a reset, on the state with the event taken off
its agenda. -/
theorem step_moves {s t : State} (h : step s = .next t) :
    (nextEvent s = .engine ∧ EngineMove { s with agenda := s.agenda.tail } t) ∨
    (∃ hs rest, s.agenda = .host hs :: rest ∧ HostMove hs { s with agenda := rest } t) ∨
    (∃ rest, s.agenda = .reset :: rest ∧ t = resetBlock { s with agenda := rest }) := by
  rcases step_next h with ⟨ha, he⟩ | ⟨e, rest, ha, he⟩
  · refine .inl ⟨by simp [nextEvent, ha], ?_⟩
    have : { s with agenda := s.agenda.tail } = s := by
      cases s; simp_all
    rw [this]
    exact engineStep_moves he
  · cases e with
    | engine =>
      refine .inl ⟨by simp [nextEvent, ha], ?_⟩
      rw [ha]
      exact engineStep_moves he
    | host hs => exact .inr (.inl ⟨hs, rest, ha, hostStep_moves he⟩)
    | reset => cases he; exact .inr (.inr ⟨rest, ha, rfl⟩)

end Sys2Proof.Machine
end

