-- ==== Sys2Proof/Laws/PassFrames.lean ====
section
/-! SUPPORT. What no step of a line pass changes: the control registers, the latched set, the coefficients, the request bit
and what lies outside the block. -/

namespace Sys2Proof.Machine

/-- The two states agree on everything but the stores, LINE_COUNT, the progress and the count of free values. -/
structure SameControl (s t : State) : Prop where
  ie : t.ie = s.ie
  status : t.status = s.status
  cmd : t.cmd = s.cmd
  errAddr : t.errAddr = s.errAddr
  params : t.params = s.params
  coefs : t.coefs = s.coefs
  latched : t.latched = s.latched
  abortReq : t.abortReq = s.abortReq
  platform : t.platform = s.platform
  agenda : t.agenda = s.agenda
  hostReads : t.hostReads = s.hostReads

/-- Going on in a line pass keeps all of it, and the stores too. -/
theorem passOn_control {n channels : Nat} {p : LinePos} {inPass : LinePos → Progress} {after : Progress} {s t : State}
    (h : SameControl s t) : SameControl s (passOn n channels p inPass after t) := by
  rcases passOn_cases n channels p inPass after t with ⟨q, _, e⟩ | ⟨_, e⟩ <;> rw [e] <;>
    exact ⟨h.ie, h.status, h.cmd, h.errAddr, h.params, h.coefs, h.latched, h.abortReq, h.platform, h.agenda, h.hostReads⟩

/-- Going on in a line pass writes no store. -/
theorem passOn_stores (n channels : Nat) (p : LinePos) (inPass : LinePos → Progress) (after : Progress) (s : State) :
    (passOn n channels p inPass after s).mem = s.mem ∧ (passOn n channels p inPass after s).work = s.work ∧
      (passOn n channels p inPass after s).acc = s.acc ∧
      (passOn n channels p inPass after s).freeCount = s.freeCount := by
  rcases passOn_cases n channels p inPass after s with ⟨q, _, e⟩ | ⟨_, e⟩ <;> rw [e] <;> exact ⟨rfl, rfl, rfl, rfl⟩

/-- A step of LPASS keeps all of it. -/
theorem linePassStep_control {p : LinePos} {s t : State} (h : linePassStep p s = .next t) : SameControl s t := by
  rcases linePassStep_next h with ⟨_, _, rfl⟩ | ⟨_, _, rfl⟩ | ⟨_, _, rfl⟩ | ⟨_, _, rfl | rfl⟩
  · constructor <;> rfl
  · exact passOn_control (by constructor <;> rfl)
  · exact passOn_control (by constructor <;> rfl)
  · constructor <;> rfl
  · exact passOn_control (by constructor <;> rfl)

/-- A step of HPASS keeps all of it. -/
theorem rowPassStep_control {y : Nat} {p : LinePos} {s t : State} (h : rowPassStep y p s = .next t) :
    SameControl s t := by
  rcases rowPassStep_next h with ⟨_, _, rfl⟩ | ⟨_, _, rfl⟩ | ⟨_, _, rfl⟩ | ⟨_, rfl⟩
  · constructor <;> rfl
  · exact passOn_control (by constructor <;> rfl)
  · exact passOn_control (by constructor <;> rfl)
  · exact passOn_control (by constructor <;> rfl)

/-- A step of VPASS keeps all of it. -/
theorem columnPassStep_control {x : Nat} {p : LinePos} {s t : State} (h : columnPassStep x p s = .next t) :
    SameControl s t := by
  rcases columnPassStep_next h with ⟨_, rfl⟩ | ⟨_, rfl⟩ | ⟨_, _, rfl | rfl⟩
  · exact passOn_control (by constructor <;> rfl)
  · exact passOn_control (by constructor <;> rfl)
  · constructor <;> rfl
  · exact passOn_control (by constructor <;> rfl)

end Sys2Proof.Machine
end

