-- ==== Sys2Proof/Laws/PerInstr.lean ====
section
/-! SUPPORT. What holds of every command as syntax, one lemma per constructor. -/

namespace Sys2Proof.Laws.CommandWordOk

/-- The command is well-formed and its word is legal: OP at most 3 and bits 31:4 zero (30_encoding.md R69, R70). -/
def Statement (i : Instr) : Prop :=
  i.wellFormed = true ∧ commandWordOk (encode i) = true ∧ mbzField (encode i) = 0#28 ∧ (opField (encode i)).toNat ≤ 3

theorem nop : Statement .nop := by unfold Statement; decide

theorem solve : Statement .solve := by unfold Statement; decide

theorem line : Statement .line := by unfold Statement; decide

theorem blur2d : Statement .blur2d := by unfold Statement; decide

end Sys2Proof.Laws.CommandWordOk
end

