-- ==== Sys2Proof/Tests/Slice0.lean ====
section
/-! SUPPORT. Tests. Part 1: the decoder on words written out from the encoding column of spec/opcode_table.json, and one
ill-formed term for each check. Part 2: values and outcomes of spec/95_test_vectors.md. Part 3: for every statement with
hypotheses, a concrete state and operands that meet them (`witness_<statement>`). -/

namespace Sys2Proof.Tests

open Sys2Proof Sys2Proof.Machine

/-! ## Part 1. Decoding and well-formedness -/

theorem test_decode_nop : decodeTableWord 32 0b00000000000000000000000000000000 = some .nop := by decide
theorem test_decode_solve : decodeTableWord 32 0b00000000000000000000000000000001 = some .solve := by decide
theorem test_decode_line : decodeTableWord 32 0b00000000000000000000000000000010 = some .line := by decide
theorem test_decode_blur2d : decodeTableWord 32 0b00000000000000000000000000000011 = some .blur2d := by decide

/-- R72: a reserved OP, and each end of MBZ. -/
theorem test_decode_reserved :
    [0x4, 0xF, 0x12, 0x10, 0x80000001, 0xFFFFFFFF].map (decodeTableWord 32) =
      [none, none, none, none, none, none] := by decide

theorem test_wellFormed_all : [Instr.nop, .solve, .line, .blur2d].all (fun i => i.wellFormed) = true := by decide
theorem test_commandWordOk_refuses_op : commandWordOk 0x00000004#32 = false := by decide
theorem test_commandWordOk_refuses_mbz : commandWordOk 0x00000012#32 = false := by decide
theorem test_commandWordOk_refuses_top_bit : commandWordOk 0x80000000#32 = false := by decide
theorem test_registerAccessOk_refuses_width : registerAccessOk 0x14 2 = false := by decide
theorem test_registerAccessOk_refuses_offset : registerAccessOk 0x15 4 = false := by decide
theorem test_inRegisterBlock_refuses : inRegisterBlock 0x80 = false := by decide
theorem test_parametersOk_refuses :
    parametersOk 3 8 = false ∧ parametersOk 256 512 = false ∧ parametersOk 4 7 = false ∧
      parametersOk 4 (2 ^ 32) = false ∧ parametersOk 4 8 = true := by decide
theorem test_regBaseOk_refuses : regBaseOk 0x40 = false := by decide

/-! ## Part 2. Values of the spec -/

/-- Roundings worked by hand (00_scope.md R10): 1 + 2^-24 is a tie to even, 1 + 2^-23 + 2^-24 a tie upward, the largest number plus its half unit overflows. -/
theorem test_rounding :
    fadd 0x3F800000#32 0x33800000#32 = 0x3F800000#32 ∧ fadd 0x3F800001#32 0x33800000#32 = 0x3F800002#32 ∧
      fadd 0x7F7FFFFF#32 0x73000000#32 = 0x7F800000#32 ∧ fsub 0x3F800000#32 0x3F800000#32 = 0x00000000#32 := by
  decide +kernel

/-- The smallest subnormal times 0.5 is a tie to zero, three of it times 0.5 a tie to two; 1/3; -1/0 (IEEE 754). -/
theorem test_small_and_quotients :
    fmul 0x00000001#32 0x3F000000#32 = 0x00000000#32 ∧ fmul 0x00000003#32 0x3F000000#32 = 0x00000002#32 ∧
      fdiv 0x3F800000#32 0x40400000#32 = 0x3EAAAAAB#32 ∧ fdiv 0xBF800000#32 0x00000000#32 = 0xFF800000#32 := by
  decide +kernel

/-- 95_test_vectors.md 1.1: each of these is clamped to 0.5. -/
theorem test_sigma_floor :
    [0x3F000000#32, 0x3E800000#32, 0x00000000#32, 0x80000000#32, 0xBF800000#32, 0xFF800000#32, 0x7FC00000#32,
      0x7F800001#32].all (fun x => clampSigma x == 0x3F000000#32) = true := by decide +kernel

/-- 95_test_vectors.md 2.1, sigma = 1.0, with the reference exponential. -/
theorem test_coef_one :
    coefWith fexpCR 0x3F800000#32 =
      { sigmaEff := 0x3F800000#32
        a0 := 0x3ED6AD05#32
        a1 := 0x3D5B0B67#32
        a2 := 0x3E5494A3#32
        a3 := 0xBC680AEE#32
        b1 := 0xBEBC32F2#32
        b2 := 0x3D0A5ADD#32
        cprev := 0x3F35AB42#32
        cnext := 0x3E94A97F#32
        a0a1 := 0x3EF20E72#32
        a2a3 := 0x3E4613F4#32
        b1b2 := 0xBEAAE796#32 } := by decide +kernel

/-- 95_test_vectors.md 2.1, the row of sigma = +inf, with the hardware's own FEXP: law L1 is all it takes. -/
theorem test_coef_inf : (coef 0x7F800000#32).b2 = 0x3F800000#32 ∧ (coef 0x7F800000#32).cprev = 0x7FC00000#32 := by
  decide +kernel

/-- The coefficient registers of 95_test_vectors.md 2.1, sigma = 1.0. -/
def oneCoefs : Coefs :=
  { sigmaEff := 0x3F800000#32, a0 := 0x3ED6AD05#32, a1 := 0x3D5B0B67#32, a2 := 0x3E5494A3#32, a3 := 0xBC680AEE#32,
    b1 := 0xBEBC32F2#32, b2 := 0x3D0A5ADD#32, cprev := 0x3F35AB42#32, cnext := 0x3E94A97F#32, a0a1 := 0x3EF20E72#32,
    a2a3 := 0x3E4613F4#32, b1b2 := 0xBEAAE796#32 }

/-- 95_test_vectors.md 1.5: the first and the fifth output of the step edge. -/
theorem test_step_edge :
    lineOut oneCoefs 8 (fun i => if i < 4 then 0x00000000#32 else 0x437F0000#32) 0 = 0x3F6B5022#32 ∧
      lineOut oneCoefs 8 (fun i => if i < 4 then 0x00000000#32 else 0x437F0000#32) 4 = 0x4342989D#32 := by
  decide +kernel

/-- 95_test_vectors.md 2.3: two outputs of the 2 x 2 plane (1, 2), (3, 4). -/
theorem test_blur_two_by_two :
    blurOut oneCoefs 2 2 (fun y x => if y = 0 then (if x = 0 then 0x3F800000#32 else 0x40000000#32)
      else (if x = 0 then 0x40400000#32 else 0x40800000#32)) 0 1 = 0x3FFA7DC2#32 ∧
    blurOut oneCoefs 2 2 (fun y x => if y = 0 then (if x = 0 then 0x3F800000#32 else 0x40000000#32)
      else (if x = 0 then 0x40400000#32 else 0x40800000#32)) 1 0 = 0x4027E1EE#32 := by
  decide +kernel

/-- The latched set of the error tables of 95_test_vectors.md 2.2: SRC 0x1000, DST 0x2000, N 8, C 1, steps 1. -/
def lineLatched (src dst : Word) (n : BitVec 16) (c : BitVec 8) (ss ds : Word) : Latched :=
  { op := 2#4
    mbz := 0#28
    params := { zeroParams with src := src, dst := dst, width := n, channels := c, srcStep := ss, dstStep := ds } }

/-- 95_test_vectors.md 2.2, the error cases in order, for MAX_CHANNELS 4 and WORK_WORDS 8. -/
theorem test_line_checks :
    checkLine 4 8 false (lineLatched 0x1000#32 0x2000#32 8#16 1#8 1#32 1#32) = .noCoef ∧
      checkLine 4 8 true (lineLatched 0x1000#32 0x2000#32 0#16 1#8 1#32 1#32) = .badDim ∧
      checkLine 4 8 true (lineLatched 0x1000#32 0x2000#32 8#16 0#8 1#32 1#32) = .badDim ∧
      checkLine 4 8 true (lineLatched 0x1000#32 0x2000#32 8#16 5#8 1#32 1#32) = .badDim ∧
      checkLine 4 8 true (lineLatched 0x1000#32 0x2000#32 8#16 1#8 0#32 1#32) = .badStride ∧
      checkLine 4 8 true (lineLatched 0x1000#32 0x2000#32 8#16 2#8 2#32 1#32) = .badStride ∧
      checkLine 4 8 true (lineLatched 0x1002#32 0x2000#32 8#16 1#8 1#32 1#32) = .badAlign ∧
      checkLine 4 8 true (lineLatched 0xFFFFFFF0#32 0x2000#32 8#16 1#8 1#32 1#32) = .badRange ∧
      checkLine 4 8 true (lineLatched 0x1000#32 0x1004#32 8#16 1#8 1#32 1#32) = .overlap ∧
      checkLine 4 8 true (lineLatched 0x1000#32 0x1000#32 8#16 1#8 1#32 1#32) = .noError ∧
      checkLine 4 7 true (lineLatched 0x1000#32 0x2000#32 8#16 1#8 1#32 1#32) = .capacity ∧
      checkLine 4 8 true (lineLatched 0x1000#32 0x2000#32 8#16 1#8 1#32 1#32) = .noError := by decide +kernel

/-- The latched set of the error table of 95_test_vectors.md 2.3. -/
def blurLatched (src dst : Word) (w h : BitVec 16) (c : BitVec 8) (stride : Word) : Latched :=
  { op := 3#4
    mbz := 0#28
    params := { zeroParams with
      src := src, dst := dst, width := w, height := h, channels := c, stride := stride, sigma := 0x3F800000#32 } }

/-- 95_test_vectors.md 2.3, the error cases, for MAX_CHANNELS 4. -/
theorem test_blur_checks :
    checkBlur 4 20 (blurLatched 0x1000#32 0x2000#32 0#16 4#16 1#8 4#32) = .badDim ∧
      checkBlur 4 20 (blurLatched 0x1000#32 0x2000#32 4#16 0#16 1#8 4#32) = .badDim ∧
      checkBlur 4 20 (blurLatched 0x1000#32 0x2000#32 4#16 4#16 0#8 4#32) = .badDim ∧
      checkBlur 4 20 (blurLatched 0x1000#32 0x2000#32 4#16 4#16 1#8 3#32) = .badStride ∧
      checkBlur 4 20 (blurLatched 0x1000#32 0x2001#32 4#16 4#16 1#8 4#32) = .badAlign ∧
      checkBlur 4 20 (blurLatched 0xFFFFFFC4#32 0x2000#32 4#16 4#16 1#8 4#32) = .badRange ∧
      checkBlur 4 20 (blurLatched 0xFFFFFFC0#32 0x2000#32 4#16 4#16 1#8 4#32) = .noError ∧
      checkBlur 4 19 (blurLatched 0x1000#32 0x2000#32 4#16 4#16 1#8 4#32) = .capacity ∧
      checkBlur 4 20 (blurLatched 0x1000#32 0x1004#32 4#16 4#16 1#8 4#32) = .noError := by decide +kernel

/-- STATUS 0x00000516 of 95_test_vectors.md 2.4. -/
def badAlignStatus : Status :=
  { busy := false, done := true, err := true, ovr := false, coefValid := true, errcode := 5#4 }

/-- 95_test_vectors.md 2.4: STATUS writes 0x4 and 0xE from 0x00000516. -/
theorem test_status_writes :
    statusWord badAlignStatus = 0x00000516#32 ∧ statusWord (statusWritten 0x4#32 badAlignStatus) = 0x00000012#32 ∧
      statusWord (statusWritten 0xE#32 badAlignStatus) = 0x00000010#32 := by decide +kernel

/-- 95_test_vectors.md 2.4: field truncation, an idle ABORT, a read-only register. -/
theorem test_register_writes :
    readReg .width (writeReg .width 0x12345678#32 State.reset) = 0x00005678#32 ∧
      readReg .channels (writeReg .channels 0x00000103#32 State.reset) = 0x00000003#32 ∧
      readReg .ctrl (writeReg .ctrl 0x3#32 State.reset) = 0x00000001#32 ∧
      (writeReg .ctrl 0x3#32 State.reset).abortReq = false ∧
      readReg .a0 (writeReg .a0 0x3F800000#32 State.reset) = 0x00000000#32 := by decide +kernel

/-- 30_encoding.md R73: the words of some decimals in 95_test_vectors.md. -/
theorem test_f32_literals :
    f32OfRatio false 255 1 = 0x437F0000#32 ∧ f32OfRatio false 1 2 = 0x3F000000#32 ∧
      f32OfRatio true 7 2 = 0xC0600000#32 := by decide +kernel

/-- A latched word and operands, running at `p`, with COEF_VALID 1, sigma 1.0's coefficients and `v` at SRC. -/
def running (l : Latched) (p : Progress) (v : Word) : State :=
  { State.reset with
    cmd := latchedWord l
    latched := l
    status := { zeroStatus with busy := true, coefValid := true }
    coefs := oneCoefs
    mem := writeWord [] (opSrc l) v
    progress := p }

/-- The machine after an outcome, the reset state where it is no next state. -/
def after (r : Result) : State :=
  match r with
  | .next s => s
  | .fault _ => State.reset
  | .refused _ => State.reset

/-- A LINE of one sample (95_test_vectors.md 2.2, N = 1). -/
def oneSample : Latched := lineLatched 0x1000#32 0x2000#32 1#16 1#8 1#32 1#32

/-- A BLUR2D of one sample (95_test_vectors.md 2.3, 1 x 1 x 1). -/
def onePixel : Latched := blurLatched 0x1000#32 0x2000#32 1#16 1#16 1#8 1#32

/-- 20_memory.md R58, where runs overlap or coincide (strides 1 and 0 for two samples a run): worked by hand. -/
theorem test_overlapping_runs :
    inSamples 0x1000 1 3 2 0x0FFF = false ∧ inSamples 0x1000 1 3 2 0x100F = true ∧
      inSamples 0x1000 1 3 2 0x1010 = false ∧ inSamples 0x1000 0 3 2 0x1007 = true ∧
      inSamples 0x1000 0 3 2 0x1008 = false ∧ inSamples 0x1000 0 0 2 0x1000 = false ∧
      inSamples 0x1000 4 2 2 0x1008 = false ∧ inSamples 0x1000 4 2 2 0x1017 = true := by decide

/-- 20_memory.md R63 item 2: before CHECK of a LINE with steps below C (BAD_STRIDE), a store to a sample is refused. -/
theorem test_store_before_bad_stride :
    hostStep (.mem 0x1004 .byte 1#32) (running (lineLatched 0x1000#32 0x2000#32 8#16 2#8 0#32 1#32) .check 0#32) =
      .refused (.hostWriteWhileBusy 0x1004) := by rfl

/-- 95_test_vectors.md 2.2, N = 1, sigma 1.0, input 100: the forward term. -/
theorem test_line_forward :
    readCell (after (exec .line (running oneSample (.lpass ⟨.forward, 0, 0⟩) 0x42C80000#32))).acc 0 =
      0x428DEDCC#32 := by decide +kernel

/-- 95_test_vectors.md 2.2, N = 1: the backward term, and their sum 42C80002. -/
theorem test_line_backward :
    (after (exec .line { running oneSample (.lpass ⟨.backward, 0, 0⟩) 0x42C80000#32 with
      work := [(0, 0x428DEDCC#32)] })).work = [(0, 0x42C80002#32)] := by decide +kernel

/-- 95_test_vectors.md 2.4: NOP from reset leaves STATUS 0x00000002. -/
theorem test_nop : statusWord (after (step (State.reset.withFetchWord 32 0))).status = 0x00000002#32 := by
  decide +kernel

/-- 95_test_vectors.md 2.1: SOLVE of sigma = +inf leaves STATUS 0x00000012 and B1B2 BF800000. -/
theorem test_solve :
    let t := after (exec .solve
      { running oneSample .solve 0#32 with
        latched := { op := 1#4, mbz := 0#28, params := { zeroParams with sigma := 0x7F800000#32 } } })
    readReg .status t = 0x00000012#32 ∧ readReg .b1b2 t = 0xBF800000#32 := by decide +kernel

/-- 42_separable_blur.md R92: the one pixel of a 1 x 1 x 1 plane is cached right after the scratch line. -/
theorem test_blur_row_deliver :
    (after (exec .blur2d { running onePixel (.hpass 0 ⟨.deliver, 0, 0⟩) 0#32 with
      work := [(0, 0x42C80002#32)] })).work = [(0, 0x42C80002#32), (1, 0x42C80002#32)] := by decide +kernel

/-- 42_separable_blur.md R93: the last deliver step writes DST and leaves only the completion. -/
theorem test_blur_column_deliver :
    let t := after (exec .blur2d { running onePixel (.vpass 0 ⟨.deliver, 0, 0⟩) 0#32 with
      work := [(0, 0x42C80003#32)] })
    t.mem = [(0x2000, 0x03#8), (0x2002, 0xC8#8), (0x2003, 0x42#8)] ∧ t.progress = .finish ∧ t.lineCount = 1#32 := by
  decide +kernel

/-- 30_encoding.md R72, 95_test_vectors.md 2.2: the word 0x00000012 ends with STATUS 0x00000116. -/
theorem test_illegal_word :
    statusWord (after (engineStep (accept 0x00000012#32
      { State.reset with status := { zeroStatus with coefValid := true } }))).status = 0x00000116#32 := by
  decide +kernel

/-! ## Part 3. Witnesses: every statement's hypotheses are met -/

/-- The one-sample LINE passes its pre-check, whatever MAX_CHANNELS and WORK_WORDS are. -/
theorem oneSample_lineCheck (p : Progress) (v : Word) : lineCheck (running oneSample p v) = .noError := by
  have h4 := Config.four_le_maxChannels
  have h8 := Config.eight_le_workWords
  have e : ∀ m w, 4 ≤ m → 8 ≤ w → checkLine m w true oneSample = .noError := by
    intro m w hm hw
    have hw' : ¬ w < 1 := by omega
    have hm' : ¬ m < 1 := by omega
    simp [checkLine, oneSample, lineLatched, opWidth, opChannels, opSrc, opDst, opSrcStep, opDstStep, lineSrcEnd,
      lineDstEnd, lineEnd, misaligned, rangesIntersect, Config.addressLimit, hw', hm']
  exact e _ _ h4 h8

/-- The one-pixel BLUR2D passes its pre-check, whatever MAX_CHANNELS and WORK_WORDS are. -/
theorem onePixel_blurCheck (p : Progress) (v : Word) : blurCheck (running onePixel p v) = .noError := by
  have h4 := Config.four_le_maxChannels
  have h8 := Config.eight_le_workWords
  have e : ∀ m w, 4 ≤ m → 8 ≤ w → checkBlur m w onePixel = .noError := by
    intro m w hm hw
    have hw' : ¬ w < 2 := by omega
    have hm' : ¬ m < 1 := by omega
    simp [checkBlur, onePixel, blurLatched, opWidth, opHeight, opChannels, opSrc, opDst, opStride, blurSrcEnd,
      blurDstEnd, planeEnd, misaligned, scratchWords, cacheWords, Config.addressLimit, hw', hm']
  exact e _ _ h4 h8

/-- Reset with one event due. -/
def resetThen (e : Event) : State := { State.reset with agenda := [e] }

theorem witness_DecoderComparesTheWholeWord :
    4 ≤ (opField 0x00000004#32).toNat ∧ 4 ≤ (opField 0x0000000F#32).toNat := by decide

theorem witness_IllegalWordEndsWithIllegalCmd :
    decode 0x00000004#32 = .error .illegalCommand ∧ decode 0x00000010#32 = .error .illegalCommand ∧
      decode 0xFFFFFFFF#32 = .error .illegalCommand ∧ State.reset.status.busy = false ∧
      (let s : State := { accept 0x12#32 State.reset with abortReq := true }
       s.status.busy = true ∧ s.progress = .check ∧ decode (latchedWord s.latched) = .error .illegalCommand) := by decide

theorem witness_StepRunsTheFetchedCommand :
    (accept 0#32 State.reset).status.busy = true ∧ decode (latchedWord (accept 3#32 State.reset).latched) = .ok .blur2d ∧
      (accept 3#32 State.reset).agenda = [] ∧ State.reset.status.busy = false ∧ State.reset.agenda = [] ∧
      ({ accept 0#32 State.reset with agenda := [.engine, .reset] } : State).agenda = .engine :: [.reset] ∧
      (accept 4#32 State.reset).status.busy = true ∧ (accept 4#32 State.reset).progress = .check ∧
      (accept 4#32 State.reset).agenda = [] ∧
      decode (latchedWord (accept 4#32 State.reset).latched) = .error .illegalCommand ∧
      (resetThen .engine).status.busy = false ∧ (resetThen .engine).agenda = .engine :: [] ∧
      decodeTableWord 32 3 = some .blur2d := by decide

theorem witness_RegisterMapAfterReset : regAt 0x00 = some .id ∧ regAt 0x7C = some .b1b2 ∧ regAt 0x4C = some .reserved4C := by
  decide

theorem witness_HostWriteEffects :
    State.reset.status.busy = false ∧ (accept 0#32 State.reset).status.busy = true := by decide

theorem witness_MalformedRegisterAccessIsRefused :
    (0x7C < 0x80 ∧ (2 ≠ 4 ∨ 0x7C % 4 ≠ 0)) ∧ (0x7F < 0x80 ∧ (4 ≠ 4 ∨ 0x7F % 4 ≠ 0)) ∧
      (0x7C < 0x80 ∧ 4 = 4 ∧ 0x7C % 4 = 0) := by decide

theorem witness_AcceptanceStartsTheCommand :
    State.reset.status.busy = false ∧ decode 0x00000002#32 = .ok .line ∧
      decode 0x00000004#32 = .error .illegalCommand ∧
      ∃ t, step (resetThen (.host (.wr 0x14 4 3#32))) = .next t ∧ t.status.busy = true := by
  exact ⟨rfl, rfl, rfl, _, rfl, rfl⟩

theorem witness_CmdWriteWhileBusyIsDropped :
    (accept 3#32 State.reset).status.busy = true ∧
      (∃ t, step { resetThen (.host (.wr 0x10 4 8#32)) with status := { zeroStatus with ovr := true } } = .next t ∧
        t.status.ovr = false) ∧
      ∃ t, step { resetThen .reset with status := { zeroStatus with ovr := true } } = .next t ∧
        t.status.ovr = false := by
  exact ⟨rfl, ⟨_, rfl, rfl⟩, _, rfl, rfl⟩

theorem witness_OneCommandRunsToCompletion :
    (∃ t, step (accept 1#32 State.reset) = .next t ∧ t.status.busy = true) ∧
      (∃ t, step (accept 0#32 State.reset) = .next t ∧ t.status.busy = false) ∧
      (accept 1#32 State.reset).status.busy = true ∧ nextEvent (accept 1#32 State.reset) ≠ .reset := by
  exact ⟨⟨_, rfl, rfl⟩, ⟨_, rfl, rfl⟩, rfl, by decide⟩

theorem witness_RunningCommandIgnoresParameterRegisters :
    (∃ t, step (resetThen (.host (.wr 0x2C 4 0x12345678#32))) = .next t ∧ t.params ≠ zeroParams) ∧
      ∃ t, step { resetThen .reset with params := { zeroParams with src := 4#32 } } = .next t ∧
        t.params ≠ { zeroParams with src := 4#32 } := by
  exact ⟨⟨_, rfl, by decide⟩, _, rfl, by decide⟩

theorem witness_InterruptIsLevelOfDone :
    (0x2#32).getLsbD 1 = true ∧ (0x2#32).getLsbD 0 = false ∧
      ∃ t, step (accept 0#32 State.reset) = .next t ∧ (accept 0#32 State.reset).status.done = false ∧
        t.status.done = true := by
  exact ⟨rfl, rfl, _, rfl, rfl, rfl⟩

theorem witness_ResetLeavesTheResetValues :
    ∃ s t : State, s.status.busy = true ∧ t = resetBlock s ∧ t ≠ s :=
  ⟨accept 3#32 State.reset, _, rfl, rfl, by decide⟩

/-- A platform whose word at 0x3000 has side effects. -/
def withSideEffects : List Region := [⟨0x3000, 4, false, false, true⟩]

theorem witness_HostMemoryAccesses :
    2 ^ 32 < 0xFFFFFFFD + widthBytes .word ∧ 0xFFFFFFFC + widthBytes .word ≤ 2 ^ 32 ∧
      0xFFFFFFFF + widthBytes .byte ≤ 2 ^ 32 ∧ hasSideEffects withSideEffects 0x2FFF (widthBytes .half) = true ∧
      hasSideEffects withSideEffects 0x2FFF (widthBytes .byte) = false ∧
      hasSideEffects withSideEffects 0x3004 (widthBytes .byte) = false ∧
      isSourceByte oneSample (0x0FFF + 1) = true ∧ isDestByte oneSample (0x2003 + 0) = true ∧
      isSourceByte oneSample 0x1004 = false ∧ isDestByte oneSample 0x1FFF = false := by decide

theorem witness_FootprintIsTheSamples :
    latchedIs .line (running oneSample .check 0#32) ∧ latchedIs .blur2d (running onePixel .check 0#32) ∧
      ¬ latchedIs .line (accept 0x12#32 State.reset) ∧ ¬ latchedIs .blur2d (accept 0x12#32 State.reset) :=
  ⟨rfl, rfl, nofun, nofun⟩

theorem witness_NopCompletes :
    (accept 0#32 State.reset).progress = .check ∧ (accept 0#32 State.reset).abortReq = false := by decide

theorem witness_SolveCompletes :
    (accept 1#32 State.reset).progress = .check ∧ (running oneSample .solve 0#32).progress = .solve ∧
      (running oneSample .solve 0#32).abortReq = false ∧
      ({ accept 1#32 State.reset with abortReq := true } : State).abortReq = true := by decide

theorem witness_SigmaFloor :
    fIsNaN 0x7F800001#32 = true ∧ fIsFinite 0x3F000000#32 = true ∧ fIsFinite 0x3EFFFFFF#32 = true := by decide

theorem witness_SolveBelowTheFloor :
    fIsNaN 0xFFC00000#32 = true ∧ fIsFinite 0x3F000000#32 = true ∧ fRat 0x3F000000#32 ≤ 1 / 2 := by
  refine ⟨rfl, rfl, ?_⟩
  have h : fInt 0x3F000000#32 = 2 ^ 148 := by decide +kernel
  rw [fRat, h]; norm_num

theorem witness_CoefficientsAtInfinity : (fun _ : F32 => 0x3F800000#32) 0x80000000#32 = 0x3F800000#32 := rfl

/-- FEXP_CR is an exponential that meets laws L1 to L3. -/
theorem witness_LawfulExponentialBoundsB2 : FexpLaws fexpCR := fexpCR_laws

theorem witness_LineCheckStep : (running oneSample .check 0#32).progress = .check := rfl
theorem witness_BlurCheckStep : (running onePixel .check 0#32).progress = .check := rfl

/-- Both ends of the byte count of a store. -/
theorem witness_WordsAreLittleEndian : 0 ≤ 4 ∧ 4 ≤ 4 ∧ 3 < 4 := by decide

/-- Both kinds of access to a word of ordinary memory are answered. -/
theorem answers_at (l : Latched) (p : Progress) (v : Word) (a : Nat) :
    readAnswers (running l p v).platform a ∧ writeAnswers (running l p v).platform a := ⟨⟨rfl, rfl⟩, rfl, rfl⟩

theorem witness_LineForwardStep :
    (running oneSample (.lpass ⟨.forward, 0, 0⟩) 1#32).abortReq = false ∧
      portAddressOk (lineSrcAddress oneSample 0 0) = true ∧
      readAnswers (running oneSample (.lpass ⟨.forward, 0, 0⟩) 1#32).platform (lineSrcAddress oneSample 0 0) :=
  ⟨rfl, by decide, (answers_at _ _ _ _).1⟩

theorem witness_LineBackwardStep :
    (running oneSample (.lpass ⟨.backward, 0, 0⟩) 1#32).abortReq = false ∧
      portAddressOk (lineSrcAddress oneSample 0 0) = true ∧
      readAnswers (running oneSample (.lpass ⟨.backward, 0, 0⟩) 1#32).platform (lineSrcAddress oneSample 0 0) :=
  ⟨rfl, by decide, (answers_at _ _ _ _).1⟩

theorem witness_LineDeliverStep :
    (running oneSample (.lpass ⟨.deliver, 0, 0⟩) 1#32).abortReq = false ∧
      portAddressOk (lineDstAddress oneSample 0 0) = true ∧
      writeAnswers (running oneSample (.lpass ⟨.deliver, 0, 0⟩) 1#32).platform (lineDstAddress oneSample 0 0) :=
  ⟨rfl, by decide, (answers_at _ _ _ _).2⟩

theorem witness_BlurSolveStep :
    (running onePixel .solve 0#32).progress = .solve ∧ (running onePixel .solve 0#32).abortReq = false := by decide

theorem witness_BlurRowReadSteps :
    (running onePixel (.hpass 0 ⟨.forward, 0, 0⟩) 1#32).abortReq = false ∧
      (running onePixel (.hpass 0 ⟨.backward, 0, 0⟩) 1#32).progress = .hpass 0 ⟨.backward, 0, 0⟩ ∧
      portAddressOk (blurSrcAddress onePixel 0 0 0) = true ∧
      readAnswers (running onePixel (.hpass 0 ⟨.forward, 0, 0⟩) 1#32).platform (blurSrcAddress onePixel 0 0 0) :=
  ⟨rfl, rfl, by decide, (answers_at _ _ _ _).1⟩

theorem witness_BlurRowDeliverStep :
    (running onePixel (.hpass 0 ⟨.deliver, 0, 0⟩) 0#32).abortReq = false ∧
      (running onePixel (.hpass 0 ⟨.deliver, 0, 0⟩) 0#32).progress = .hpass 0 ⟨.deliver, 0, 0⟩ := by decide

theorem witness_BlurColumnSteps :
    (running onePixel (.vpass 0 ⟨.forward, 0, 0⟩) 0#32).abortReq = false ∧
      (running onePixel (.vpass 0 ⟨.backward, 0, 0⟩) 0#32).progress = .vpass 0 ⟨.backward, 0, 0⟩ := by decide

theorem witness_BlurColumnDeliverStep :
    (running onePixel (.vpass 0 ⟨.deliver, 0, 0⟩) 0#32).abortReq = false ∧
      portAddressOk (blurDstAddress onePixel 0 0 0) = true ∧
      writeAnswers (running onePixel (.vpass 0 ⟨.deliver, 0, 0⟩) 0#32).platform (blurDstAddress onePixel 0 0 0) :=
  ⟨rfl, by decide, (answers_at _ _ _ _).2⟩

theorem witness_PassesComplete : (running oneSample .finish 0#32).progress = .finish := rfl

/-- A platform whose word at 0x1000 fails on a read and whose word at 0x2000 fails on a write. -/
def failing : List Region := [⟨0x1000, 4, true, false, false⟩, ⟨0x2000, 4, false, true, false⟩]

theorem witness_BusErrorEndsTheCommand :
    (lineSrcAddress oneSample 0 0 = 0x1000 ∧ lineDstAddress oneSample 0 0 = 0x2000 ∧
      blurSrcAddress onePixel 0 0 0 = 0x1000 ∧ blurDstAddress onePixel 0 0 0 = 0x2000) ∧
      (portAddressOk 0x1000 = true ∧ readFails failing 0x1000 = true ∧ readFails failing 0x1004 = false) ∧
      (portAddressOk 0x2000 = true ∧ writeFails failing 0x2000 = true ∧ writeFails failing 0x1FFC = false) ∧
      (portAddressOk 0x3000 = true ∧ readFails withSideEffects 0x3000 = false ∧
        writeFails withSideEffects 0x3000 = false ∧ hasSideEffects withSideEffects 0x3000 4 = true) ∧
      (running oneSample (.lpass ⟨.deliver, 0, 0⟩) 0#32).abortReq = false ∧
      (running oneSample (.busError 0x1000#32) 0#32).progress = .busError 0x1000#32 := by decide

theorem witness_AbortPointsEndTheCommand :
    ({ running onePixel (.hpass 0 passStart) 0#32 with abortReq := true } : State).abortReq = true := rfl

/-- For LineRunWritesTheFilteredLine, LineRunFollowsTheReferenceOrder and AccessesArePrefixOfTheReferenceOrder. -/
theorem witness_LineRun :
    (running oneSample .check 1#32).progress = .check ∧ (running oneSample .check 1#32).abortReq = false ∧
      lineCheck (running oneSample .check 1#32) = .noError ∧
      lineAnswers (running oneSample .check 1#32).platform (running oneSample .check 1#32).latched :=
  ⟨rfl, rfl, oneSample_lineCheck _ _, fun _ _ _ _ => ⟨⟨rfl, rfl⟩, rfl, rfl⟩⟩

/-- For BlurRunWritesTheBlurredPlane and BlurRunFollowsTheReferenceOrder. -/
theorem witness_BlurRun :
    (running onePixel .check 1#32).progress = .check ∧ (running onePixel .check 1#32).abortReq = false ∧
      blurCheck (running onePixel .check 1#32) = .noError ∧
      blurAnswers (running onePixel .check 1#32).platform (running onePixel .check 1#32).latched :=
  ⟨rfl, rfl, onePixel_blurCheck _ _, fun _ _ _ _ _ _ => ⟨⟨rfl, rfl⟩, rfl, rfl⟩⟩

/-- In place: the destination of the one-pixel BLUR2D moved onto its source passes the pre-check too. -/
theorem witness_BlurInPlaceEqualsOutOfPlace :
    blurCheck { running onePixel .check 1#32 with
      latched := { onePixel with params := { onePixel.params with dst := 0x1000#32 } } } = .noError := by
  have h4 := Config.four_le_maxChannels
  have h8 := Config.eight_le_workWords
  have e : ∀ m w, 4 ≤ m → 8 ≤ w →
      checkBlur m w { onePixel with params := { onePixel.params with dst := 0x1000#32 } } = .noError := by
    intro m w hm hw
    have hw' : ¬ w < 2 := by omega
    have hm' : ¬ m < 1 := by omega
    simp [checkBlur, onePixel, blurLatched, opWidth, opHeight, opChannels, opSrc, opDst, opStride, blurSrcEnd,
      blurDstEnd, planeEnd, misaligned, scratchWords, cacheWords, Config.addressLimit, hw', hm']
  exact e _ _ h4 h8

theorem witness_StatusFlagsStayConsistent :
    statusOk (accept 0#32 State.reset).status ∧ ∃ t, step (accept 0#32 State.reset) = .next t := by
  refine ⟨?_, _, rfl⟩
  simp [statusOk, accept, statusAccepted]

/-- For StepKeepsTheInvariant, EngineNeverFaults, EveryCommandCompletes and EngineWritesOnlyDestinationSamples: a LINE in its
deliver step meets the invariant, and so does a BLUR2D in its vertical pass. -/
theorem witness_MachineInv :
    MachineInv (running oneSample (.lpass ⟨.deliver, 0, 0⟩) 0#32) ∧
      MachineInv { running onePixel (.vpass 0 ⟨.deliver, 0, 0⟩) 0#32 with lineCount := 1#32 } := by
  refine ⟨⟨?_, ⟨rfl, rfl, rfl, oneSample_lineCheck _ _, by decide, by decide⟩, ⟨by decide, rfl, rfl⟩, by decide, ?_, ?_⟩,
    ⟨?_, ⟨rfl, by decide, rfl, onePixel_blurCheck .check 0#32, rfl, by decide, by decide, by decide⟩, ⟨by decide, rfl, rfl⟩,
      by decide, ?_, ?_⟩⟩
  all_goals simp [statusOk, running, zeroStatus, State.reset]

theorem witness_StepKeepsTheInvariant :
    ∃ t, step (running oneSample (.lpass ⟨.deliver, 0, 0⟩) 0#32) = .next t ∧ t.progress = .finish :=
  ⟨_, rfl, rfl⟩

theorem witness_EngineNeverFaults :
    ∀ h, nextEvent (running oneSample (.lpass ⟨.deliver, 0, 0⟩) 0#32) ≠ .host h := by
  intro h; simp [nextEvent, running, State.reset]

theorem witness_EveryCommandCompletes :
    (running oneSample (.lpass ⟨.deliver, 0, 0⟩) 0#32).status.busy = true ∧
      (running oneSample (.lpass ⟨.deliver, 0, 0⟩) 0#32).agenda = [] ∧
      ∀ r ∈ (running oneSample (.lpass ⟨.deliver, 0, 0⟩) 0#32).platform, r.sideEffects = false :=
  ⟨rfl, rfl, by simp [running, State.reset]⟩

theorem witness_LeftoverInternalStateIsUnobservable :
    (resetThen (.host (.wr 0x14 4 3#32))).status.busy = false ∧
      (resetThen (.host (.wr 0x14 4 3#32))).progress = .idle := by decide

theorem witness_CoefficientsChangeOnlyAtUpdates :
    (∃ t, step { running oneSample .solve 0#32 with
        latched := { op := 1#4, mbz := 0#28, params := { zeroParams with sigma := 0x7F800000#32 } } } = .next t ∧
      t.coefs ≠ oneCoefs) ∧
      (running onePixel .solve 0#32).progress = .solve ∧ (running onePixel .solve 0#32).abortReq = false ∧
      ∃ t, step { running oneSample .check 0#32 with agenda := [.reset] } = .next t ∧ t.coefs ≠ oneCoefs := by
  refine ⟨⟨_, rfl, ?_⟩, rfl, rfl, _, rfl, by decide⟩
  intro h
  have : (coef 0x7F800000#32).b2 = oneCoefs.b2 := congrArg Coefs.b2 h
  rw [test_coef_inf.1] at this
  exact absurd this (by decide)

theorem witness_CoefValidIsClearedByResetOnly :
    (∃ t, step { running oneSample .check 0#32 with agenda := [.reset] } = .next t ∧ t.status.coefValid = false) ∧
      (∃ t, step (after (step (accept 1#32 State.reset))) = .next t ∧ t.status.coefValid = true) ∧
      (accept 2#32 State.reset).progress = .check ∧ (accept 2#32 State.reset).status.coefValid = false :=
  ⟨⟨_, rfl, rfl⟩, ⟨_, rfl, rfl⟩, rfl, rfl⟩

theorem witness_ErrAddrRecordsBusErrors :
    (∃ t, step (running oneSample (.busError 0x1000#32) 0#32) = .next t ∧ t.errAddr = 0x1000#32) ∧
      (∃ t, step { resetThen (.host (.wr 0x14 4 0#32)) with errAddr := 0x1000#32 } = .next t ∧ t.errAddr = 0#32) ∧
      ∃ t, step { resetThen .reset with errAddr := 0x1000#32 } = .next t ∧ t.errAddr = 0#32 :=
  ⟨⟨_, rfl, rfl⟩, ⟨_, rfl, rfl⟩, _, rfl, rfl⟩

theorem witness_CmdHoldsTheLastAcceptedWord :
    (∃ t, step (resetThen (.host (.wr 0x14 4 0x12#32))) = .next t ∧ t.cmd = 0x12#32) ∧
      ∃ t, step { resetThen .reset with cmd := 3#32 } = .next t ∧ t.cmd = 0#32 :=
  ⟨⟨_, rfl, rfl⟩, _, rfl, rfl⟩

theorem witness_LineCountCountsFinishedPasses :
    (∃ t, step (running oneSample (.lpass ⟨.deliver, 0, 0⟩) 0#32) = .next t ∧ t.lineCount = 1#32) ∧
      (∃ t, step (running onePixel (.hpass 0 ⟨.deliver, 0, 0⟩) 0#32) = .next t ∧ t.lineCount = 1#32) ∧
      (∃ t, step (running onePixel (.vpass 0 ⟨.deliver, 0, 0⟩) 0#32) = .next t ∧ t.lineCount = 1#32) ∧
      ∃ t, step { resetThen (.host (.wr 0x14 4 0#32)) with lineCount := 8#32 } = .next t ∧ t.lineCount = 0#32 :=
  ⟨⟨_, rfl, rfl⟩, ⟨_, rfl, rfl⟩, ⟨_, rfl, rfl⟩, _, rfl, rfl⟩

theorem witness_EngineWritesOnlyDestinationSamples :
    nextEvent (running oneSample (.lpass ⟨.deliver, 0, 0⟩) 0#32) = .engine ∧ isDestByte oneSample 0x1FFF = false ∧
      isDestByte oneSample 0x2000 = true ∧ isDestByte oneSample 0x2003 = true ∧ isDestByte oneSample 0x2004 = false := by
  decide

theorem witness_ArithmeticIsCorrectlyRounded :
    fIsFinite 0x00000001#32 = true ∧ fIsFinite 0x7F7FFFFF#32 = true ∧ fRat 0x00000001#32 ≠ 0 := by
  refine ⟨by decide, by decide, ?_⟩
  have h : fInt 0x00000001#32 = 1 := by decide +kernel
  rw [fRat, h]; norm_num

theorem witness_NaNResultsAreCanonical :
    fIsNaN 0x7F800001#32 = true ∧ fIsNaN 0xFFFFFFFF#32 = true ∧ fIsNaN (fdiv 0#32 0#32) = true := by decide +kernel

theorem witness_InfinitiesAndZeros :
    fIsInf 0x7F800000#32 = true ∧ fIsInf 0xFF800000#32 = true ∧ fIsFinite 0x00000000#32 = true ∧
      fSign 0x7F800000#32 ≠ fSign 0xFF800000#32 := by decide

theorem witness_NaNSampleFillsTheLine : 0 < 3 ∧ 2 < 3 ∧ fIsNaN ((fun _ : Nat => 0x7FC00000#32) 0) = true := by decide

theorem witness_ScriptStatements :
    (withScript [.ack] State.reset).agenda = (expandStmt .ack).map Event.host ++ [] ∧
      (withScript [.abort] (accept 3#32 State.reset)).status.busy = true ∧
      (withScript [.wait] State.reset).status.busy = false ∧
      (withScript [.wait] (accept 3#32 State.reset)).status.busy = true ∧
      (withScript [.wait] (accept 3#32 State.reset)).agenda = (expandStmt .wait).map Event.host ++ [] ∧
      (withScript [.cmd .line] State.reset).agenda = (expandStmt (.cmd .line)).map Event.host ++ [] := by decide

end Sys2Proof.Tests
end

namespace Sys2Proof.Machine

/-! PROOFS about the state (10_state.md): first the bits of a register's fields, then what each host access and each
move keeps, then the statements. -/

/-! ### Fields of a word (10_state.md R18) -/

/-- A field of n bits, zero-extended to a word: the word cut to its low n bits. -/
theorem setWidth_extractLsb'_low (n : Nat) (w : Word) :
    (w.extractLsb' 0 n).setWidth 32 = w &&& BitVec.ofNat 32 (2 ^ n - 1) := by
  apply BitVec.eq_of_getLsbD_eq
  intro i hi
  rw [BitVec.getLsbD_setWidth, BitVec.getLsbD_extractLsb', BitVec.getLsbD_and, BitVec.getLsbD_ofNat,
    Nat.testBit_two_pow_sub_one]
  simp [hi, Bool.and_comm]

/-- The bits above a field of n bits read 0. -/
theorem setWidth_and_high {n : Nat} (v : BitVec n) :
    v.setWidth 32 &&& (BitVec.allOnes 32 <<< n) = 0#32 := by
  apply BitVec.eq_of_getLsbD_eq
  intro i hi
  by_cases h : i < n
  · simp [h]
  · simp [BitVec.getLsbD_of_ge v i (by omega)]

/-- A field of n bits takes nothing from the bits above it. -/
theorem extractLsb'_and_low (n : Nat) (hn : n ≤ 32) (w : Word) :
    (w &&& BitVec.ofNat 32 (2 ^ n - 1)).extractLsb' 0 n = w.extractLsb' 0 n := by
  apply BitVec.eq_of_getLsbD_eq
  intro i hi
  have h32 : i < 32 := by omega
  simp [hi, h32, BitVec.getLsbD_ofNat, Nat.testBit_two_pow_sub_one]

/-! ### The words of the control registers -/

/-- The reserved bits of CTRL, and ABORT, read 0 (10_state.md R22). -/
theorem ctrlWord_reserved (ie : Bool) : ctrlWord ie &&& 0xFFFFFFFE#32 = 0#32 := by
  have hmask : 0xFFFFFFFE#32 = 0x7FFFFFFF#31 ++ 0#1 := rfl
  rw [ctrlWord, hmask, BitVec.and_append]
  simp

/-- The reserved bits of STATUS read 0 (10_state.md R23). -/
theorem statusWord_reserved (st : Status) : statusWord st &&& 0xFFFFF0E0#32 = 0#32 := by
  have hmask : 0xFFFFF0E0#32 = 0xFFFFF#20 ++ 0#4 ++ 7#3 ++ 0#1 ++ 0#1 ++ 0#1 ++ 0#1 ++ 0#1 := rfl
  rw [statusWord, hmask]
  repeat rw [BitVec.and_append]
  simp

/-- The bits of CAP above VERSION read 0 (10_state.md R20). -/
theorem capWord_reserved : capWord &&& 0xFFFF0000#32 = 0#32 := by
  have hmask : 0xFFFF0000#32 = 0xFFFF#16 ++ 0#8 ++ 0#8 := rfl
  rw [capWord, hmask]
  repeat rw [BitVec.and_append]
  simp

/-- The fields of CAP (10_state.md R20). -/
theorem capWord_fields :
    capWord.extractLsb' 0 8 = BitVec.ofNat 8 Config.maxChannels ∧ capWord.extractLsb' 8 8 = Config.capVersion ∧
      capWord.extractLsb' 16 16 = 0#16 := by
  have hhigh (start len : Nat) (h : 8 ≤ start) :
      capWord.extractLsb' start len = (0#16 ++ Config.capVersion).extractLsb' (start - 8) len :=
    BitVec.extractLsb'_append_eq_of_le h
  exact ⟨BitVec.extractLsb'_append_eq_right, (hhigh 8 8 (by decide)).trans BitVec.extractLsb'_append_eq_right,
    (hhigh 16 16 (by decide)).trans BitVec.extractLsb'_append_eq_left⟩

/-- MAX_CHANNELS fits the eight bits of its field (00_scope.md R6). -/
theorem toNat_maxChannels : (BitVec.ofNat 8 Config.maxChannels).toNat = Config.maxChannels := by
  have := Config.maxChannels_le
  rw [BitVec.toNat_ofNat]; omega

/-- WORK_WORDS fits a word (00_scope.md R6). -/
theorem toNat_workWords : (BitVec.ofNat 32 Config.workWords).toNat = Config.workWords := by
  have := Config.workWords_le
  rw [BitVec.toNat_ofNat]; omega

/-! ### Host accesses to a register -/

/-- A 32-bit host write at a register's offset is that register's write (43_control.md R103). -/
theorem hostStep_write (r : Reg) (w : Word) (s : State) :
    hostStep (.wr (regOffset r) 4 w) s = .next (writeReg r w s) := registerAccess_regOffset r _

/-- A 32-bit host read at a register's offset delivers its value and changes nothing else (43_control.md R102). -/
theorem hostStep_read (r : Reg) (s : State) :
    hostStep (.rd (regOffset r) 4) s = .next (deliverRead (readReg r s) s) := registerAccess_regOffset r _

/-- A CMD write while idle is an acceptance (43_control.md R97). -/
theorem hostStep_cmd_idle {s : State} (w : Word) (h : s.status.busy = false) :
    hostStep (.wr 0x14 4 w) s = .next (accept w s) := by
  rw [show 0x14 = regOffset .cmd from rfl, hostStep_write]; simp [writeReg, writeCmd, h]

/-- A CMD write while busy is dropped and sets OVR (43_control.md R98). -/
theorem hostStep_cmd_busy {s : State} (w : Word) (h : s.status.busy = true) :
    hostStep (.wr 0x14 4 w) s = .next { s with status := statusOverrun s.status } := by
  rw [show 0x14 = regOffset .cmd from rfl, hostStep_write]; simp [writeReg, writeCmd, h]

/-! ### The parameter registers (10_state.md R28 to R37) -/

/-- The nine parameter registers. -/
def paramRegs : List Reg := [.sigma, .src, .dst, .width, .height, .channels, .stride, .srcStep, .dstStep]

/-- The bits of a parameter register that hold something: 16 of WIDTH and HEIGHT, 8 of CHANNELS, all of any other. -/
def paramMask (r : Reg) : Word :=
  if r = .width ∨ r = .height then 0x0000FFFF#32 else if r = .channels then 0x000000FF#32 else 0xFFFFFFFF#32

/-- A host write of a parameter register changes the parameter registers only. -/
theorem writeReg_param {r : Reg} (hr : r ∈ paramRegs) (w : Word) (s : State) :
    writeReg r w s = { s with params := writeParam r w s.params } := by
  fin_cases hr <;> rfl

/-- A parameter register reads back what was written, cut to its field. -/
theorem readReg_writeParam_same {r : Reg} (hr : r ∈ paramRegs) (w : Word) (s : State) :
    readReg r { s with params := writeParam r w s.params } = w &&& paramMask r := by
  have hall : w = w &&& 0xFFFFFFFF#32 := (BitVec.and_allOnes (x := w)).symm
  cases r
  case sigma | src | dst | stride | srcStep | dstStep => exact hall
  case width | height => exact setWidth_extractLsb'_low 16 w
  case channels => exact setWidth_extractLsb'_low 8 w
  all_goals exact absurd hr (by decide)

/-- A write of one parameter register is not seen in any other register. -/
theorem readReg_writeParam_ne {r r' : Reg} (h : r' ≠ r) (w : Word) (s : State) :
    readReg r' { s with params := writeParam r w s.params } = readReg r' s := by
  cases r'
  case sigma | src | dst | width | height | channels | stride | srcStep | dstStep =>
    cases r <;> simp_all [readReg, writeParam]
  all_goals rfl

/-! ### What an engine step keeps -/

/-- The host's registers, the latched set and what lies outside the block, memory apart, are the same in both states. -/
structure EngineKeeps (s t : State) : Prop where
  ie : t.ie = s.ie
  cmd : t.cmd = s.cmd
  params : t.params = s.params
  latched : t.latched = s.latched
  platform : t.platform = s.platform
  agenda : t.agenda = s.agenda
  hostReads : t.hostReads = s.hostReads

theorem SameControl.engineKeeps {s t : State} (h : SameControl s t) : EngineKeeps s t :=
  ⟨h.ie, h.cmd, h.params, h.latched, h.platform, h.agenda, h.hostReads⟩

/-- No move of the engine changes any of it. -/
theorem EngineMove.keeps {s t : State} (h : EngineMove s t) : EngineKeeps s t := by
  cases h with
  | linePass p _ _ _ _ _ ht => exact (linePassStep_control ht).engineKeeps
  | rowPass y p _ _ _ _ _ ht => exact (rowPassStep_control ht).engineKeeps
  | columnPass x p _ _ _ _ _ ht => exact (columnPassStep_control ht).engineKeeps
  | _ => constructor <;> rfl

/-- The only moves of the engine that change a coefficient register are the two that perform step SOLVE. -/
theorem EngineMove.coefs_cases {s t : State} (h : EngineMove s t) :
    t.coefs = s.coefs ∨
      (s.status.busy = true ∧ s.progress = .solve ∧ s.abortReq = false ∧
        ((latchedIs .solve s ∧ t = complete .noError 0#32 (solveUpdate s)) ∨
          (latchedIs .blur2d s ∧ t = goTo (.hpass 0 passStart) (solveUpdate s)))) := by
  cases h with
  | linePass p _ _ _ _ _ ht => exact .inl (linePassStep_control ht).coefs
  | rowPass y p _ _ _ _ _ ht => exact .inl (rowPassStep_control ht).coefs
  | columnPass x p _ _ _ _ _ ht => exact .inl (columnPassStep_control ht).coefs
  | solveDone hb hp hi ha => exact .inr ⟨hb, hp, ha, .inl ⟨hi, rfl⟩⟩
  | blurSolve hb hp hi ha => exact .inr ⟨hb, hp, ha, .inr ⟨hi, rfl⟩⟩
  | _ => exact .inl rfl

/-! ### What a host step keeps -/

/-- A host step changes no coefficient register (10_state.md R39, R40). -/
theorem HostMove.coefs {h : HostStep} {s t : State} (hm : HostMove h s t) : t.coefs = s.coefs := by
  cases hm with
  | write r w =>
    rcases writeReg_cases r w s with ⟨_, _, e⟩ | ⟨_, _, e⟩ | ⟨_, e⟩ | ⟨_, e⟩ | ⟨_, _, _, e⟩ <;> rw [e] <;> rfl
  | _ => rfl

/-- A host step leaves the parameter registers, or is a register write that sets one of them. -/
theorem HostMove.params_cases {h : HostStep} {s t : State} (hm : HostMove h s t) :
    t.params = s.params ∨ ∃ r w, h = .wr (regOffset r) 4 w ∧ t.params = writeParam r w s.params := by
  cases hm with
  | write r w hh =>
    rcases writeReg_cases r w s with ⟨_, _, e⟩ | ⟨_, _, e⟩ | ⟨_, e⟩ | ⟨_, e⟩ | ⟨_, _, _, e⟩
    case inr.inr.inr.inr => exact .inr ⟨r, w, hh, e ▸ rfl⟩
    all_goals exact .inl (e ▸ rfl)
  | _ => exact .inl rfl

/-- A host step leaves CMD, or is an accepted write of CMD. -/
theorem HostMove.cmd_cases {h : HostStep} {s t : State} (hm : HostMove h s t) :
    t.cmd = s.cmd ∨ ∃ w, h = .wr 0x14 4 w ∧ s.status.busy = false ∧ t.cmd = w := by
  cases hm with
  | write r w hh =>
    rcases writeReg_cases r w s with ⟨rfl, hb, e⟩ | ⟨_, _, e⟩ | ⟨_, e⟩ | ⟨_, e⟩ | ⟨_, _, _, e⟩
    case inl => exact .inr ⟨w, hh, hb, e ▸ rfl⟩
    all_goals exact .inl (e ▸ rfl)
  | _ => exact .inl rfl

/-- What a host step can make of STATUS. -/
theorem HostMove.status_cases {h : HostStep} {s t : State} (hm : HostMove h s t) :
    t.status = s.status ∨ (s.status.busy = false ∧ t.status = statusAccepted s.status) ∨
      (s.status.busy = true ∧ t.status = statusOverrun s.status) ∨ ∃ w, t.status = statusWritten w s.status := by
  cases hm with
  | write r w =>
    rcases writeReg_cases r w s with ⟨_, hb, e⟩ | ⟨_, hb, e⟩ | ⟨_, e⟩ | ⟨_, e⟩ | ⟨_, _, _, e⟩ <;> rw [e]
    · exact .inr (.inl ⟨hb, rfl⟩)
    · exact .inr (.inr (.inl ⟨hb, rfl⟩))
    · exact .inl rfl
    · exact .inr (.inr (.inr ⟨w, rfl⟩))
    · exact .inl rfl
  | _ => exact .inl rfl

/-! ### The flags of STATUS (10_state.md R24) -/

theorem statusOk_zeroStatus : statusOk zeroStatus := ⟨nofun, by decide, by decide⟩

/-- An error has a code from 1 to 10 (60_exceptions.md R106). -/
theorem errBits_range {code : ErrCode} (h : code ≠ .noError) : errBits code ≠ 0#4 ∧ (errBits code).toNat ≤ 10 := by
  cases code
  case noError => exact absurd rfl h
  all_goals decide

/-- Acceptance clears DONE, ERR and ERRCODE. -/
theorem statusOk_accepted (st : Status) : statusOk (statusAccepted st) := by
  simp [statusOk]

theorem statusOk_overrun {st : Status} (h : statusOk st) : statusOk (statusOverrun st) := h

/-- A STATUS write clears ERR and ERRCODE together or neither. -/
theorem statusOk_written {st : Status} (w : Word) (h : statusOk st) : statusOk (statusWritten w st) := by
  obtain ⟨hbusy, herr, hcode⟩ := h
  refine ⟨fun hb => ?_, ?_⟩
  · obtain ⟨hd, he⟩ := hbusy hb
    simp [hd, he]
  · rw [statusWritten_err, statusWritten_errcode]
    cases w.getLsbD 2
    · exact ⟨herr, hcode⟩
    · simp

/-- A completion clears BUSY, and sets ERR and ERRCODE together or neither. -/
theorem statusOk_completed {st : Status} (code : ErrCode) (h : statusOk st) : statusOk (statusCompleted code st) := by
  obtain ⟨-, herr, hcode⟩ := h
  refine ⟨fun hb => absurd hb (by simp), ?_⟩
  by_cases hc : code = .noError
  · simpa [hc] using ⟨herr, hcode⟩
  · simpa [hc] using errBits_range hc

/-- Every move of the engine keeps the flags consistent. -/
theorem EngineMove.keeps_statusOk {s t : State} (h : EngineMove s t) (hs : statusOk s.status) :
    statusOk t.status := by
  cases h with
  | ended code info => exact statusOk_completed code hs
  | solveDone => exact statusOk_completed .noError (st := (solveUpdate s).status) hs
  | linePass p _ _ _ _ _ ht => rwa [(linePassStep_control ht).status]
  | rowPass y p _ _ _ _ _ ht => rwa [(rowPassStep_control ht).status]
  | columnPass x p _ _ _ _ _ ht => rwa [(columnPassStep_control ht).status]
  | _ => exact hs

/-- Every move of the host keeps the flags consistent. -/
theorem HostMove.keeps_statusOk {h : HostStep} {s t : State} (hm : HostMove h s t) (hs : statusOk s.status) :
    statusOk t.status := by
  rcases hm.status_cases with e | ⟨_, e⟩ | ⟨_, e⟩ | ⟨w, e⟩ <;> rw [e]
  · exact hs
  · exact statusOk_accepted _
  · exact statusOk_overrun hs
  · exact statusOk_written w hs

/-! ### The engine does not read the parameter registers (10_state.md R28) -/

/-- The state with other values in the parameter registers. -/
def withParams (ps : Params) (s : State) : State := { s with params := ps }

/-! Every operation of the engine commutes with `withParams`: what it reads of a state, the latched copy of the
parameters among it, is the same in both, and it passes the parameter registers on. -/

section WithParams

variable (ps : Params) (s : State)

theorem portRead_withParams (a : Nat) {k k' : Word → State} (hk : ∀ v, k' v = withParams ps (k v)) :
    portRead a (withParams ps s) k' = mapNext (withParams ps) (portRead a s k) := by
  rw [portRead, portRead, show (withParams ps s).platform = s.platform from rfl,
    show (withParams ps s).mem = s.mem from rfl, hk]
  split
  · rfl
  · split
    · rfl
    · split <;> rfl

theorem portWrite_withParams (a : Nat) (v : Word) {k : State → State}
    (hk : ∀ s, k (withParams ps s) = withParams ps (k s)) :
    portWrite a v (withParams ps s) k = mapNext (withParams ps) (portWrite a v s k) := by
  rw [portWrite, portWrite, show (withParams ps s).platform = s.platform from rfl,
    show storeWord a v (withParams ps s) = withParams ps (storeWord a v s) from rfl, hk]
  split
  · rfl
  · split
    · rfl
    · split <;> rfl

theorem checkStep_withParams (code : ErrCode) (goOn : Result) :
    checkStep code (withParams ps s) (mapNext (withParams ps) goOn) =
      mapNext (withParams ps) (checkStep code s goOn) := by
  rw [checkStep, checkStep, show (withParams ps s).abortReq = s.abortReq from rfl]
  split
  · split <;> rfl
  · rfl

theorem abortPoint_withParams (goOn : Result) :
    abortPoint (withParams ps s) (mapNext (withParams ps) goOn) =
      mapNext (withParams ps) (abortPoint s goOn) := by
  rw [abortPoint, abortPoint, show (withParams ps s).abortReq = s.abortReq from rfl]
  split <;> rfl

theorem passOn_withParams (n channels : Nat) (p : LinePos) (inPass : LinePos → Progress) (after : Progress) :
    passOn n channels p inPass after (withParams ps s) = withParams ps (passOn n channels p inPass after s) := by
  unfold passOn
  split <;> rfl

theorem lineNext_withParams (p : LinePos) : lineNext p (withParams ps s) = withParams ps (lineNext p s) :=
  passOn_withParams ps s ..

theorem rowNext_withParams (y : Nat) (p : LinePos) :
    rowNext y p (withParams ps s) = withParams ps (rowNext y p s) := passOn_withParams ps s ..

theorem columnNext_withParams (x : Nat) (p : LinePos) :
    columnNext x p (withParams ps s) = withParams ps (columnNext x p s) := passOn_withParams ps s ..

theorem linePassStep_withParams (p : LinePos) :
    linePassStep p (withParams ps s) = mapNext (withParams ps) (linePassStep p s) := by
  unfold linePassStep
  split
  · exact portRead_withParams ps s _ fun v =>
      lineNext_withParams ps (forwardSample (opChannels s.latched) p v s) p
  · exact portRead_withParams ps s _ fun v =>
      lineNext_withParams ps (backwardSample (opWidth s.latched) (opChannels s.latched) p v s) p
  · exact portWrite_withParams ps s _ _ fun u => lineNext_withParams ps u p

theorem rowPassStep_withParams (y : Nat) (p : LinePos) :
    rowPassStep y p (withParams ps s) = mapNext (withParams ps) (rowPassStep y p s) := by
  unfold rowPassStep
  split
  · exact portRead_withParams ps s _ fun v =>
      rowNext_withParams ps (forwardSample (opChannels s.latched) p v s) y p
  · exact portRead_withParams ps s _ fun v =>
      rowNext_withParams ps (backwardSample (opWidth s.latched) (opChannels s.latched) p v s) y p
  · exact congrArg Host.Outcome.next (rowNext_withParams ps (cacheStore y p s) y p)

theorem columnPassStep_withParams (x : Nat) (p : LinePos) :
    columnPassStep x p (withParams ps s) = mapNext (withParams ps) (columnPassStep x p s) := by
  unfold columnPassStep
  split
  · exact congrArg Host.Outcome.next (columnNext_withParams ps (forwardSample _ p (cacheLoad x p s) s) x p)
  · exact congrArg Host.Outcome.next (columnNext_withParams ps (backwardSample _ _ p (cacheLoad x p s) s) x p)
  · exact portWrite_withParams ps s _ _ fun u => columnNext_withParams ps u x p

theorem execNop_withParams : execNop (withParams ps s) = mapNext (withParams ps) (execNop s) := by
  rw [execNop, execNop, show (withParams ps s).progress = s.progress from rfl]
  split
  · exact checkStep_withParams ps s .noError (.next (complete .noError 0#32 s))
  · rfl

theorem execSolve_withParams : execSolve (withParams ps s) = mapNext (withParams ps) (execSolve s) := by
  rw [execSolve, execSolve, show (withParams ps s).progress = s.progress from rfl]
  split
  · exact checkStep_withParams ps s .noError (.next (goTo .solve s))
  · exact abortPoint_withParams ps s (.next (complete .noError 0#32 (solveUpdate s)))
  · rfl

theorem execLine_withParams : execLine (withParams ps s) = mapNext (withParams ps) (execLine s) := by
  rw [execLine, execLine, show (withParams ps s).progress = s.progress from rfl]
  split
  · exact checkStep_withParams ps s (lineCheck s) (.next (goTo (.lpass passStart) s))
  · rw [linePassStep_withParams]; exact abortPoint_withParams ps s _
  all_goals rfl

theorem execBlur2d_withParams : execBlur2d (withParams ps s) = mapNext (withParams ps) (execBlur2d s) := by
  rw [execBlur2d, execBlur2d, show (withParams ps s).progress = s.progress from rfl]
  split
  · exact checkStep_withParams ps s (blurCheck s) (.next (goTo .solve s))
  · exact abortPoint_withParams ps s (.next (goTo (.hpass 0 passStart) (solveUpdate s)))
  · rw [rowPassStep_withParams]; exact abortPoint_withParams ps s _
  · rw [columnPassStep_withParams]; exact abortPoint_withParams ps s _
  all_goals rfl

theorem exec_withParams (i : Instr) : exec i (withParams ps s) = mapNext (withParams ps) (exec i s) := by
  cases i with
  | nop => exact execNop_withParams ps s
  | solve => exact execSolve_withParams ps s
  | line => exact execLine_withParams ps s
  | blur2d => exact execBlur2d_withParams ps s

theorem illegalStep_withParams : illegalStep (withParams ps s) = mapNext (withParams ps) (illegalStep s) := by
  rw [illegalStep, illegalStep, show (withParams ps s).progress = s.progress from rfl]
  split <;> rfl

/-- The engine's step on other parameter registers is its step, with those registers in the next state. -/
theorem engineStep_withParams : engineStep (withParams ps s) = mapNext (withParams ps) (engineStep s) := by
  rw [engineStep, engineStep, show (withParams ps s).status = s.status from rfl,
    show fetchCommand (withParams ps s) = fetchCommand s from rfl]
  split
  · split
    · exact exec_withParams ps s _
    · exact illegalStep_withParams ps s
  · rfl

end WithParams

/-! ### The statements -/

/-- Settles O5. -/
theorem identificationRegistersAreConstant : Obligations.IdentificationRegistersAreConstant := by
  intro s
  obtain ⟨hchannels, hversion, hreserved⟩ := capWord_fields
  exact ⟨rfl, (congrArg BitVec.toNat hchannels).trans toNat_maxChannels,
    ⟨Config.four_le_maxChannels, Config.maxChannels_le⟩, hversion, hreserved, toNat_workWords⟩

/-- Settles O6: reading is by the words of the fields, writing by the bits that each field takes. -/
theorem reservedBitsReadZeroAndIgnoreWrites : Obligations.ReservedBitsReadZeroAndIgnoreWrites := by
  intro s w
  refine ⟨⟨ctrlWord_reserved _, statusWord_reserved _, capWord_reserved, setWidth_and_high s.params.width,
    setWidth_and_high s.params.height, setWidth_and_high s.params.channels, rfl, rfl, rfl⟩,
    ⟨?ctrl, ?status, ?width, ?height, ?channels⟩, ?ignored, ?whole, setWidth_extractLsb'_low 16 w,
    setWidth_extractLsb'_low 16 w, setWidth_extractLsb'_low 8 w⟩
  case ctrl => simp [writeReg, writeCtrl]
  case status => simp [writeReg, writeStatus, statusWritten]
  case width =>
    exact congrArg (fun v => { s with params := { s.params with width := v } })
      (extractLsb'_and_low 16 (by decide) w).symm
  case height =>
    exact congrArg (fun v => { s with params := { s.params with height := v } })
      (extractLsb'_and_low 16 (by decide) w).symm
  case channels =>
    exact congrArg (fun v => { s with params := { s.params with channels := v } })
      (extractLsb'_and_low 8 (by decide) w).symm
  case ignored => intro r hr; fin_cases hr <;> rfl
  case whole => intro r hr; fin_cases hr <;> rfl

/-- Settles O13: the engine's moves keep the parameter registers and do not read them, and a host write of one is seen
in that register only. -/
theorem runningCommandIgnoresParameterRegisters : Obligations.RunningCommandIgnoresParameterRegisters := by
  refine ⟨fun s w r hr => ?_, fun s w => ⟨rfl, rfl⟩, fun s t h hne => ?_, fun s ps => engineStep_withParams ps s⟩
  · refine ⟨{ s with params := writeParam r w s.params }, ?_, readReg_writeParam_same hr w s,
      fun r' hr' => readReg_writeParam_ne hr' w s, hostStep_read r _⟩
    rw [hostStep_write, writeReg_param hr]
  · rcases step_moves h with ⟨_, hm⟩ | ⟨hs, rest, ha, hm⟩ | ⟨rest, ha, _⟩
    · exact absurd hm.keeps.params hne
    · rcases hm.params_cases with e | ⟨r, w, rfl, e⟩
      · exact absurd e hne
      · exact ⟨rest, .inr ⟨r, w, ha, e⟩⟩
    · exact ⟨rest, .inl ha⟩

/-- Settles O44: the flags are consistent after reset, and every move keeps them so. -/
theorem statusFlagsStayConsistent : Obligations.StatusFlagsStayConsistent := by
  refine ⟨statusOk_zeroStatus, fun s t hs h => ?_⟩
  rcases step_moves h with ⟨_, hm⟩ | ⟨_, _, _, hm⟩ | ⟨_, _, rfl⟩
  · exact hm.keeps_statusOk hs
  · exact hm.keeps_statusOk hs
  · exact statusOk_zeroStatus

/-- Settles O50: of all moves only the two that perform step SOLVE, and a reset, change a coefficient register. -/
theorem coefficientsChangeOnlyAtUpdates : Obligations.CoefficientsChangeOnlyAtUpdates := by
  refine ⟨fun s t h hne => ?_, fun i s hi hp ha => ?_⟩
  · rcases step_moves h with ⟨hev, hm⟩ | ⟨_, _, _, hm⟩ | ⟨rest, ha, _⟩
    · rcases hm.coefs_cases with e | ⟨hb, hp, ha, ⟨hi, rfl⟩ | ⟨hi, rfl⟩⟩
      · exact absurd e hne
      · exact .inr ⟨hev, hb, hp, ha, rfl, rfl, .inl ⟨hi, rfl, rfl⟩⟩
      · exact .inr ⟨hev, hb, hp, ha, rfl, rfl, .inr hi⟩
    · exact absurd hm.coefs hne
    · exact .inl (by simp [nextEvent, ha])
  · rcases hi with rfl | rfl
    · refine ⟨complete .noError 0#32 (solveUpdate s), ?_, rfl, rfl, fun _ => ⟨rfl, rfl, rfl⟩⟩
      simp [exec, execSolve, hp, ha]
    · refine ⟨goTo (.hpass 0 passStart) (solveUpdate s), ?_, rfl, rfl, nofun⟩
      simp [exec, execBlur2d, hp, ha]

/-- Settles O53: an accepted CMD write is the only move, besides a reset, that changes CMD. -/
theorem cmdHoldsTheLastAcceptedWord : Obligations.CmdHoldsTheLastAcceptedWord := by
  refine ⟨fun s w => ⟨fun hb => ⟨hostStep_cmd_idle w hb, rfl⟩, fun hb => ⟨_, hostStep_cmd_busy w hb, rfl, rfl⟩⟩,
    fun s t h hne => ?_, hostStep_read .cmd⟩
  rcases step_moves h with ⟨_, hm⟩ | ⟨_, rest, ha, hm⟩ | ⟨rest, ha, _⟩
  · exact absurd hm.keeps.cmd hne
  · rcases hm.cmd_cases with e | ⟨w, rfl, hb, e⟩
    · exact absurd e hne
    · exact ⟨rest, .inr ⟨w, ha, hb, e⟩⟩
  · exact ⟨rest, .inl ha⟩

end Sys2Proof.Machine

namespace Sys2Proof

/-! PROOFS about command words (30_encoding.md): which words the encoder makes, in terms of their fields and of the
decoder, then what becomes of a word that it does not make. -/

/-! ### Encoder and decoder (30_encoding.md R69, R70) -/

/-- Every command and its word have the form of 30_encoding.md R69. -/
theorem commandWordOk_statement (i : Instr) : Laws.CommandWordOk.Statement i := by
  cases i with
  | nop => exact Laws.CommandWordOk.nop
  | solve => exact Laws.CommandWordOk.solve
  | line => exact Laws.CommandWordOk.line
  | blur2d => exact Laws.CommandWordOk.blur2d

@[simp] theorem decode_encode (i : Instr) : decode (encode i) = .ok i := by cases i <;> rfl

/-- What the decoder can answer: the command whose word it was given, or the error on a word that is no command's. -/
theorem decode_cases (w : Word) :
    (∃ i, w = encode i) ∨ (∀ i, w ≠ encode i) ∧ decode w = .error .illegalCommand := by
  by_cases h : ∃ i, w = encode i
  · exact .inl h
  · have hne : ∀ i, w ≠ encode i := not_exists.mp h
    refine .inr ⟨hne, ?_⟩
    rw [decode, if_neg (show w ≠ 0#32 from hne .nop), if_neg (show w ≠ 1#32 from hne .solve),
      if_neg (show w ≠ 2#32 from hne .line), if_neg (show w ≠ 3#32 from hne .blur2d)]

/-- The decoder selects a command on its own word only. -/
theorem decode_eq_ok_iff (w : Word) (i : Instr) : decode w = .ok i ↔ w = encode i := by
  refine ⟨fun h => ?_, fun h => h ▸ decode_encode i⟩
  rcases decode_cases w with ⟨j, rfl⟩ | ⟨_, he⟩
  · rw [decode_encode] at h
    cases h
    rfl
  · rw [he] at h
    cases h

/-- The decoder refuses exactly the words that are no command's. -/
theorem decode_eq_error_iff (w : Word) : decode w = .error .illegalCommand ↔ ∀ i, w ≠ encode i := by
  rcases decode_cases w with ⟨i, rfl⟩ | ⟨hne, he⟩
  · exact iff_of_false (by simp) fun hne => hne i rfl
  · exact iff_of_true he hne

/-- A command's word by its fields: OP at most 3 and bits 31:4 zero. -/
theorem exists_encode_iff (w : Word) : (∃ i, w = encode i) ↔ (opField w).toNat < 4 ∧ mbzField w = 0#28 := by
  constructor
  · rintro ⟨i, rfl⟩
    obtain ⟨-, -, hmbz, hop⟩ := commandWordOk_statement i
    exact ⟨Nat.lt_succ_of_le hop, hmbz⟩
  · rintro ⟨hop, hmbz⟩
    have hw : w = commandWord 0#28 (opField w) := by rw [← hmbz, commandWord_fields]
    have hops : opField w = 0#4 ∨ opField w = 1#4 ∨ opField w = 2#4 ∨ opField w = 3#4 := by bv_omega
    rcases hops with h | h | h | h <;> rw [h] at hw
    · exact ⟨.nop, hw⟩
    · exact ⟨.solve, hw⟩
    · exact ⟨.line, hw⟩
    · exact ⟨.blur2d, hw⟩

/-- A word is illegal when OP is 0x4 to 0xF or a bit of 31:4 is set (30_encoding.md R72). -/
theorem decode_eq_error_iff_fields (w : Word) :
    decode w = .error .illegalCommand ↔ 4 ≤ (opField w).toNat ∨ mbzField w ≠ 0#28 := by
  rw [decode_eq_error_iff, ← not_exists, exists_encode_iff, not_and_or, Nat.not_lt]

namespace Machine

/-! ### The CHECK step of an illegal word (30_encoding.md R72, 60_exceptions.md R107) -/

/-- A completion with an error other than BUS_ERROR (60_exceptions.md R108). -/
theorem complete_eq_endedWith {code : ErrCode} (h0 : code ≠ .noError) (hbus : code ≠ .busError) (info : Word)
    (s : State) : complete code info s = endedWith (errBits code) s := by
  simp [complete, endedWith, statusCompleted, h0, hbus]

/-- The engine ends an illegal word with ILLEGAL_CMD at its CHECK step; it does not look at the abort request. -/
theorem engineStep_of_illegal {s : State} (hb : s.status.busy = true) (hp : s.progress = .check)
    (hd : fetchCommand s = .error .illegalCommand) : engineStep s = .next (endedWith 1#4 s) := by
  have hstep : engineStep s = .next (complete .illegalCmd 0#32 s) := by
    simp [engineStep, illegalStep, hb, hp, hd]
  exact hstep.trans (congrArg _ (complete_eq_endedWith (by decide) (by decide) _ s))

/-! ### The statements -/

/-- Settles O1: the decoder answers on the four words by evaluation, and elsewhere by comparing with them. -/
theorem decoderComparesTheWholeWord : Obligations.DecoderComparesTheWholeWord :=
  ⟨rfl, rfl, rfl, rfl, rfl, rfl, rfl, rfl, decode_eq_ok_iff,
    fun w hop => (decode_eq_error_iff_fields w).mpr (.inl hop)⟩

/-- Settles O2: an accepted word is latched whole, so that its CHECK step is that of an illegal word. -/
theorem illegalWordEndsWithIllegalCmd : Obligations.IllegalWordEndsWithIllegalCmd := by
  refine ⟨decode_eq_error_iff_fields, fun w s hd hb => ?_, fun s => engineStep_of_illegal⟩
  have hfetch : fetchCommand (accept w s) = .error .illegalCommand := (fetchCommand_accept w s).trans hd
  exact ⟨hostStep_cmd_idle w hb, rfl, rfl, engineStep_of_illegal rfl rfl hfetch⟩

end Machine

end Sys2Proof

namespace Sys2Proof.Machine

/-! PROOFS about the coefficient solver (40_coefficient_solver.md): first the comparison of finite words as the
comparison of their values, then the floor on sigma, then the statements. -/

/-! ### The order of the words and of the values (00_scope.md R9) -/

/-- The magnitude, in units of 2^-149, of the exponent-and-fraction code of a word. -/
def codeMag (code : Nat) : Nat :=
  if code / 2 ^ 23 = 0 then code % 2 ^ 23 else (2 ^ 23 + code % 2 ^ 23) * 2 ^ (code / 2 ^ 23 - 1)

theorem fMag_eq_codeMag (a : F32) : fMag a = codeMag (a.extractLsb' 0 31).toNat := by
  have hexp : fExp a = (a.extractLsb' 0 31).toNat / 2 ^ 23 := by
    rw [fExp_eq, BitVec.extractLsb'_toNat, Nat.shiftRight_zero]; omega
  have hfrac : fFrac a = (a.extractLsb' 0 31).toNat % 2 ^ 23 := by
    rw [fFrac_eq, BitVec.extractLsb'_toNat, Nat.shiftRight_zero]; omega
  rw [fMag, codeMag, hexp, hfrac]

/-- The next code has the next significand, or the least significand of the next exponent. -/
theorem codeMag_lt_succ (c : Nat) : codeMag c < codeMag (c + 1) := by
  by_cases hcarry : c % 2 ^ 23 + 1 < 2 ^ 23
  · have hexp : (c + 1) / 2 ^ 23 = c / 2 ^ 23 := by omega
    have hfrac : (c + 1) % 2 ^ 23 = c % 2 ^ 23 + 1 := by omega
    rw [codeMag, codeMag, hexp, hfrac]
    split
    · exact Nat.lt_succ_self _
    · exact Nat.mul_lt_mul_of_pos_right (by omega) (by positivity)
  · have hexp : (c + 1) / 2 ^ 23 = c / 2 ^ 23 + 1 := by omega
    have hfrac : (c + 1) % 2 ^ 23 = 0 := by omega
    have hlast : c % 2 ^ 23 = 2 ^ 23 - 1 := by omega
    rw [codeMag, codeMag, hexp, hfrac, hlast]
    cases c / 2 ^ 23 with
    | zero => decide
    | succ e =>
      have hpos : 0 < 2 ^ e := by positivity
      simp only [Nat.succ_ne_zero, if_false, Nat.add_sub_cancel, pow_succ 2 e]
      omega

theorem codeMag_strictMono : StrictMono codeMag := strictMono_nat_of_lt_succ codeMag_lt_succ

/-- The place of a word orders the words as their values do; both put -0 and +0 together. -/
theorem fInt_le_fInt_iff (a b : F32) : fInt b ≤ fInt a ↔ fKey b ≤ fKey a := by
  have hle := codeMag_strictMono.le_iff_le (a := (b.extractLsb' 0 31).toNat) (b := (a.extractLsb' 0 31).toNat)
  have hge := codeMag_strictMono.le_iff_le (a := (a.extractLsb' 0 31).toNat) (b := (b.extractLsb' 0 31).toNat)
  have hzero (c : Nat) : codeMag c ≤ 0 ↔ c ≤ 0 := codeMag_strictMono.le_iff_le (b := 0)
  have ha := hzero (a.extractLsb' 0 31).toNat
  have hb := hzero (b.extractLsb' 0 31).toNat
  rw [fInt, fInt, fKey, fKey, fMag_eq_codeMag, fMag_eq_codeMag]
  cases fSign a <;> cases fSign b <;> simp only [if_true, if_false, Bool.false_eq_true]
  all_goals omega

theorem fRat_le_fRat_iff (a b : F32) : fRat b ≤ fRat a ↔ fKey b ≤ fKey a := by
  rw [fRat, fRat, div_le_div_iff_of_pos_right (by positivity), Int.cast_le, fInt_le_fInt_iff]

/-- On finite words the comparison of R75 is that of the values. -/
theorem fge_iff_fRat_le {a b : F32} (ha : fIsFinite a = true) (hb : fIsFinite b = true) :
    fge a b = true ↔ fRat b ≤ fRat a := by
  simp [fge, (fIsFinite_excludes ha).1, (fIsFinite_excludes hb).1, fRat_le_fRat_iff]

/-- The place of a word, from the word's number. -/
theorem fKey_eq (a : F32) :
    fKey a = if 2 ^ 31 ≤ a.toNat then -((a.toNat % 2 ^ 31 : ℕ) : ℤ) else ((a.toNat % 2 ^ 31 : ℕ) : ℤ) := by
  simp only [fKey, fSign_eq, BitVec.extractLsb'_toNat, Nat.shiftRight_zero, decide_eq_true_eq]

/-- A word that is no zero is known by its place in the order. -/
theorem eq_of_fKey_eq {a b : F32} (hb : fKey b ≠ 0) (h : fKey a = fKey b) : a = b := by
  rw [fKey_eq b] at hb h
  rw [fKey_eq a] at h
  have := a.isLt
  have := b.isLt
  exact BitVec.eq_of_toNat_eq (by omega)

/-- A word that is no zero is known by its value. -/
theorem eq_of_fRat_eq {a b : F32} (hb : fKey b ≠ 0) (h : fRat a = fRat b) : a = b :=
  eq_of_fKey_eq hb (le_antisymm ((fRat_le_fRat_iff b a).1 h.le) ((fRat_le_fRat_iff a b).1 h.ge))

/-! ### The floor on sigma (40_coefficient_solver.md R75) -/

theorem fRat_fHalf : fRat fHalf = 1 / 2 := by
  have h : fInt fHalf = 2 ^ 148 := by decide +kernel
  rw [fRat, h]; norm_num

theorem clampSigma_of_nan {sigma : F32} (h : fIsNaN sigma = true) : clampSigma sigma = fHalf := by
  simp [clampSigma, fge, h]

theorem clampSigma_of_finite {sigma : F32} (h : fIsFinite sigma = true) :
    clampSigma sigma = if (1 / 2 : ℚ) ≤ fRat sigma then sigma else fHalf := by
  simp only [clampSigma, fge_iff_fRat_le h (show fIsFinite fHalf = true from rfl), fRat_fHalf]

theorem clampSigma_negInf : clampSigma 0xFF800000#32 = fHalf := by decide

theorem clampSigma_posInf : clampSigma 0x7F800000#32 = 0x7F800000#32 := by decide

/-- At 0.5 itself the floor keeps the word, and there is one word of that value. -/
theorem clampSigma_of_le_half {sigma : F32} (h : fIsFinite sigma = true) (hle : fRat sigma ≤ 1 / 2) :
    clampSigma sigma = fHalf := by
  rw [clampSigma_of_finite h]
  split
  next hge => exact eq_of_fRat_eq (by decide) ((le_antisymm hle hge).trans fRat_fHalf.symm)
  next => rfl

/-- The coefficients depend on sigma through its floor only (R78). -/
theorem coefWith_eq_of_clampSigma_eq (f : F32 → F32) {x y : F32} (h : clampSigma x = clampSigma y) :
    coefWith f x = coefWith f y := by
  simp only [coefWith, h]

/-! ### The statements -/

/-- Settles O21. -/
theorem sigmaFloor : Obligations.SigmaFloor :=
  fun _ => ⟨clampSigma_of_nan, clampSigma_of_finite, clampSigma_posInf, clampSigma_negInf⟩

/-- Settles O22: in each of the three cases the floor is the word of 0.5, which is its own floor. -/
theorem solveBelowTheFloor : Obligations.SolveBelowTheFloor := by
  intro f sigma h
  have hfloor : clampSigma sigma = fHalf := by
    rcases h with hnan | rfl | ⟨hfin, hle⟩
    · exact clampSigma_of_nan hnan
    · exact clampSigma_negInf
    · exact clampSigma_of_le_half hfin hle
  exact coefWith_eq_of_clampSigma_eq f (hfloor.trans (clampSigma_of_le_half rfl fRat_fHalf.le).symm)

end Sys2Proof.Machine

namespace Sys2Proof.Machine

/-! PROOFS about control (43_control.md): first what each register's write does and what each read delivers, then which
moves start a command and which clear OVR, then the statements. -/

/-! ### What a host write does (43_control.md R103) -/

/-- CTRL: IE takes bit 0, and bit 1 adds an abort request while busy. -/
theorem writeCtrl_eq (w : Word) (s : State) :
    writeCtrl w s =
      { s with ie := w.getLsbD 0, abortReq := s.abortReq || (w.getLsbD 1 && s.status.busy) } := by
  simp [writeCtrl, Bool.or_comm]

/-- STATUS: bits 1, 2 and 3 clear DONE, ERR with ERRCODE, and OVR. -/
theorem writeStatus_eq (w : Word) (s : State) :
    writeStatus w s =
      { s with status :=
        { s.status with
          done := s.status.done && !w.getLsbD 1
          err := s.status.err && !w.getLsbD 2
          errcode := if w.getLsbD 2 then 0#4 else s.status.errcode
          ovr := s.status.ovr && !w.getLsbD 3 } } := by
  simp [writeStatus, statusWritten, Bool.and_comm]

/-! ### What a host read delivers (43_control.md R102) -/

/-- The number of a word put together from two parts. -/
theorem toNat_append_eq_add {m n : ℕ} (x : BitVec m) (y : BitVec n) :
    (x ++ y).toNat = 2 ^ n * x.toNat + y.toNat := by
  rw [BitVec.toNat_append, Nat.shiftLeft_eq, Nat.mul_comm, ← Nat.two_pow_add_eq_or_of_lt y.isLt]

/-- STATUS as a number: the flags in bits 0 to 4 and ERRCODE from bit 8 on (10_state.md R23). -/
theorem toNat_statusWord (st : Status) :
    (statusWord st).toNat = st.busy.toNat + 2 * st.done.toNat + 4 * st.err.toNat + 8 * st.ovr.toNat +
      16 * st.coefValid.toNat + 256 * st.errcode.toNat := by
  simp only [statusWord, toNat_append_eq_add, BitVec.toNat_ofBool, BitVec.toNat_ofNat]
  omega

theorem statusWord_eq_ofNat (st : Status) :
    statusWord st = BitVec.ofNat 32 (st.busy.toNat + 2 * st.done.toNat + 4 * st.err.toNat + 8 * st.ovr.toNat +
      16 * st.coefValid.toNat + 256 * st.errcode.toNat) := by
  rw [← toNat_statusWord, BitVec.ofNat_toNat, BitVec.setWidth_eq]

theorem ctrlWord_eq (ie : Bool) : ctrlWord ie = if ie then 1#32 else 0#32 := by cases ie <;> rfl

/-! ### How a command starts (43_control.md R97) -/

/-- While idle the engine changes nothing (60_exceptions.md R121). -/
theorem EngineMove.eq_of_idle {s t : State} (h : EngineMove s t) (hb : s.status.busy = false) : t = s := by
  cases h with
  | idle => rfl
  | _ => exact absurd (hb.symm.trans ‹s.status.busy = true›) Bool.false_ne_true

/-- The host sets BUSY by an accepted CMD write only. -/
theorem HostMove.accept_of_busy {h : HostStep} {s t : State} (hm : HostMove h s t) (hb : s.status.busy = false)
    (ht : t.status.busy = true) : ∃ w, h = .wr 0x14 4 w ∧ t = accept w s := by
  cases hm with
  | write r w hh =>
    rcases writeReg_cases r w s with ⟨rfl, _, e⟩ | ⟨_, hb', _⟩ | ⟨_, e⟩ | ⟨_, e⟩ | ⟨_, _, _, e⟩
    case inl => exact ⟨w, hh, e⟩
    case inr.inl => exact absurd (hb.symm.trans hb') Bool.false_ne_true
    all_goals
      rw [e] at ht
      simp [hb] at ht
  | _ => simp [hb] at ht

/-- The engine's step of a busy block that has latched a command is a step of that command. -/
theorem engineStep_of_latched {s : State} {i : Instr} (hb : s.status.busy = true) (hi : fetchCommand s = .ok i) :
    engineStep s = exec i s := by
  simp [engineStep, hb, hi]

/-! ### How OVR is cleared (43_control.md R98) -/

/-- No move of the engine changes OVR. -/
theorem EngineMove.ovr {s t : State} (h : EngineMove s t) : t.status.ovr = s.status.ovr := by
  cases h with
  | linePass p _ _ _ _ _ ht => rw [(linePassStep_control ht).status]
  | rowPass y p _ _ _ _ _ ht => rw [(rowPassStep_control ht).status]
  | columnPass x p _ _ _ _ _ ht => rw [(columnPassStep_control ht).status]
  | _ => rfl

/-- The host clears OVR by a STATUS write with bit 3 only. -/
theorem HostMove.status_write_of_ovr {h : HostStep} {s t : State} (hm : HostMove h s t) (hs : s.status.ovr = true)
    (ht : t.status.ovr = false) : ∃ w, w.getLsbD 3 = true ∧ h = .wr 0x10 4 w := by
  cases hm with
  | write r w hh =>
    rcases writeReg_cases r w s with ⟨_, _, e⟩ | ⟨_, _, e⟩ | ⟨_, e⟩ | ⟨rfl, e⟩ | ⟨_, _, _, e⟩
    case inr.inr.inr.inl =>
      rw [e] at ht
      exact ⟨w, by simpa [hs] using ht, hh⟩
    all_goals
      rw [e] at ht
      simp [hs] at ht
  | _ => simp [hs] at ht

/-! ### The statements -/

/-- Settles O7: every write is that of the register at its offset, and the words without a writable field ignore it. -/
theorem hostWriteEffects : Obligations.HostWriteEffects := by
  intro s w
  obtain ⟨-, -, hignored, -⟩ := reservedBitsReadZeroAndIgnoreWrites s w
  exact ⟨fun r hr => (hostStep_write r w s).trans (congrArg _ (hignored r hr)),
    (hostStep_write .ctrl w s).trans (congrArg _ (writeCtrl_eq w s)),
    (hostStep_write .status w s).trans (congrArg _ (writeStatus_eq w s)),
    hostStep_cmd_idle w, hostStep_cmd_busy w, hostStep_write .sigma w s, hostStep_write .src w s,
    hostStep_write .dst w s, hostStep_write .width w s, hostStep_write .height w s, hostStep_write .channels w s,
    hostStep_write .stride w s, hostStep_write .srcStep w s, hostStep_write .dstStep w s⟩

/-- Settles O8: the value of every register by its word, and only the record of reads grows. -/
theorem hostReadsHaveNoSideEffect : Obligations.HostReadsHaveNoSideEffect := by
  intro s r
  refine ⟨hostStep_read r s, ?_⟩
  cases r
  case ctrl => exact ctrlWord_eq s.ie
  case status => exact statusWord_eq_ofNat s.status
  case width | height | channels => exact (BitVec.ofNat_toNat 32 _).symm
  all_goals rfl

/-- Settles O10: the accepted word is the one the engine then fetches; and of the moves from an idle block only the
host's accepted CMD write leads to a busy one. -/
theorem acceptanceStartsTheCommand : Obligations.AcceptanceStartsTheCommand := by
  refine ⟨fun w s hb => ⟨hostStep_cmd_idle w hb, Bool.and_false _, fun i hi => ?_, fun hd => ?_⟩,
    fun s t h hb ht => ?_⟩
  · exact engineStep_of_latched rfl ((fetchCommand_accept w s).trans hi)
  · exact engineStep_of_illegal rfl rfl ((fetchCommand_accept w s).trans hd)
  · rcases step_moves h with ⟨_, hm⟩ | ⟨_, rest, ha, hm⟩ | ⟨_, _, rfl⟩
    · rw [hm.eq_of_idle hb] at ht
      exact absurd (hb.symm.trans ht) Bool.false_ne_true
    · obtain ⟨w, rfl, rfl⟩ := hm.accept_of_busy hb ht
      exact ⟨w, rest, ha, rfl⟩
    · exact absurd ht Bool.false_ne_true

/-- Settles O11: of all moves only a STATUS write with bit 3 and a reset make OVR fall. -/
theorem cmdWriteWhileBusyIsDropped : Obligations.CmdWriteWhileBusyIsDropped := by
  refine ⟨fun w s => hostStep_cmd_busy w, fun s t h hs ht => ?_⟩
  rcases step_moves h with ⟨_, hm⟩ | ⟨_, rest, ha, hm⟩ | ⟨rest, ha, _⟩
  · exact absurd (ht.symm.trans (hm.ovr.trans hs)) Bool.false_ne_true
  · obtain ⟨w, hw, rfl⟩ := hm.status_write_of_ovr hs ht
    exact ⟨rest, .inl ⟨w, hw, ha⟩⟩
  · exact ⟨rest, .inr ha⟩

end Sys2Proof.Machine

namespace Sys2Proof.Machine

/-! PROOFS about completion and the interrupt (60_exceptions.md): first what each operation makes of the interrupt output,
then which moves set DONE, then the statement. -/

/-! ### The interrupt output after each operation (60_exceptions.md R112) -/

/-- Completion raises the interrupt where IE lets it through. -/
theorem irq_complete (code : ErrCode) (info : Word) (s : State) : irq (complete code info s) = s.ie := by
  rw [irq, complete_ie, complete_status, statusCompleted_done, Bool.and_true]

theorem irq_accept (w : Word) (s : State) : irq (accept w s) = false := by
  rw [irq, accept_status, statusAccepted_done, Bool.and_false]

/-- A STATUS write with bit 1 clears DONE, and the interrupt with it. -/
theorem irq_writeStatus {w : Word} (s : State) (h : w.getLsbD 1 = true) : irq (writeStatus w s) = false := by
  rw [irq, writeStatus_status, statusWritten_done, if_pos h, Bool.and_false]

/-- A CTRL write with IE = 0 masks the interrupt. -/
theorem irq_writeCtrl {w : Word} (s : State) (h : w.getLsbD 0 = false) : irq (writeCtrl w s) = false := by
  rw [irq, writeCtrl_ie, h, Bool.false_and]

/-! ### How DONE is set (60_exceptions.md R108, R112) -/

/-- A move of the engine leaves DONE, or ends the running command. -/
theorem EngineMove.done_cases {s t : State} (h : EngineMove s t) :
    t.status.done = s.status.done ∨ (s.status.busy = true ∧ t.status.busy = false) := by
  cases h with
  | ended _ _ hb => exact .inr ⟨hb, rfl⟩
  | solveDone hb => exact .inr ⟨hb, rfl⟩
  | linePass p _ _ _ _ _ ht => exact .inl (by rw [(linePassStep_control ht).status])
  | rowPass y p _ _ _ _ _ ht => exact .inl (by rw [(rowPassStep_control ht).status])
  | columnPass x p _ _ _ _ _ ht => exact .inl (by rw [(columnPassStep_control ht).status])
  | _ => exact .inl rfl

/-- No move of the host sets DONE: acceptance and a STATUS write can only clear it. -/
theorem HostMove.done_eq_false {h : HostStep} {s t : State} (hm : HostMove h s t) (hs : s.status.done = false) :
    t.status.done = false := by
  rcases hm.status_cases with e | ⟨_, e⟩ | ⟨_, e⟩ | ⟨w, e⟩ <;> rw [e]
  · exact hs
  · exact statusAccepted_done _
  · exact hs
  · rw [statusWritten_done, hs, ite_self]

/-! ### The statement -/

/-- Settles O14: the interrupt is read off each operation; and of all moves only those of the engine that end the running
command set DONE, since a host move keeps it at 0 and a reset clears it. -/
theorem interruptIsLevelOfDone : Obligations.InterruptIsLevelOfDone := by
  refine ⟨fun s => rfl, fun s code info => irq_complete code info s, fun s w => ⟨irq_accept w s, irq_writeStatus s⟩,
    fun s w hw => ⟨irq_writeCtrl s hw, rfl⟩, fun s t h hs ht => ?_⟩
  rcases step_moves h with ⟨hev, hm⟩ | ⟨_, _, _, hm⟩ | ⟨_, _, rfl⟩
  · rcases hm.done_cases with e | hended
    · exact absurd ((e.trans hs).symm.trans ht) Bool.false_ne_true
    · exact ⟨hev, hended⟩
  · exact absurd ((hm.done_eq_false hs).symm.trans ht) Bool.false_ne_true
  · exact absurd ht Bool.false_ne_true

end Sys2Proof.Machine

namespace Sys2Proof.Machine

/-! PROOFS about reset (70_reset_and_hazards.md): first what the state right after reset and a reset step have in common,
then the statement. -/

/-! ### The state a reset leaves (70_reset_and_hazards.md R122) -/

/-- A reset step right after reset changes nothing, so what holds after every reset step holds of `State.reset` too. -/
theorem resetBlock_reset : resetBlock State.reset = State.reset := rfl

/-- STATUS right after reset reads 0. -/
theorem statusWord_zeroStatus : statusWord zeroStatus = 0#32 := statusWord_eq_ofNat zeroStatus

/-- Every register but the three identification registers reads 0 after a reset step. -/
theorem readReg_resetBlock_eq_zero {r : Reg} (s : State) (hid : r ≠ .id) (hcap : r ≠ .cap) (hwork : r ≠ .workWords) :
    readReg r (resetBlock s) = 0#32 := by
  cases r
  case id => exact absurd rfl hid
  case cap => exact absurd rfl hcap
  case workWords => exact absurd rfl hwork
  case ctrl => exact ctrlWord_eq false
  case status => exact statusWord_zeroStatus
  all_goals rfl

/-- A reset masks the interrupt: IE is 0. -/
theorem irq_resetBlock (s : State) : irq (resetBlock s) = false := Bool.false_and _

/-- After a reset step the first CMD write is accepted (43_control.md R97). -/
theorem hostStep_cmd_resetBlock (s : State) (w : Word) :
    hostStep (.wr 0x14 4 w) (resetBlock s) = .next (accept w (resetBlock s)) := hostStep_cmd_idle w rfl

/-! ### The statement -/

/-- Settles O15: both states are the result of a reset step, whose registers and hidden bits are read off, and an idle
block accepts. -/
theorem resetLeavesTheResetValues : Obligations.ResetLeavesTheResetValues := by
  intro s t ht
  obtain ⟨u, rfl⟩ : ∃ u, t = resetBlock u := ht.elim (fun h => ⟨_, h.trans resetBlock_reset.symm⟩) (fun h => ⟨s, h⟩)
  exact ⟨rfl, rfl, toNat_workWords, fun _ => readReg_resetBlock_eq_zero u, rfl, rfl, rfl, rfl, irq_resetBlock u,
    resetBlock_mem s, hostStep_cmd_resetBlock u⟩

end Sys2Proof.Machine

namespace Sys2Proof.Machine

/-! PROOFS about single engine steps: first what the engine does at each progress, one lemma per place, then the
statements about the steps of the four commands. -/

/-! ### Completion (60_exceptions.md R108) -/

/-- A completion without an error. -/
theorem complete_noError (info : Word) (s : State) : complete .noError info s = endedClean s := by
  simp [complete, endedClean, statusCompleted]

/-- A pending abort request ends the command with ABORTED (60_exceptions.md R110). -/
theorem complete_aborted (s : State) : complete .aborted 0#32 s = endedWith 10#4 s :=
  complete_eq_endedWith (by decide) (by decide) _ s

/-- A bus error ends the command with BUS_ERROR and the address of the access (60_exceptions.md R109). -/
theorem complete_busError (a : Word) (s : State) :
    complete .busError a s = { endedWith 9#4 s with errAddr := a } := by
  simp [complete, endedWith, statusCompleted, errBits]

/-! ### The engine at each progress -/

section Places

variable {s : State}

theorem exec_nop_check (hp : s.progress = .check) (ha : s.abortReq = false) : exec .nop s = .next (endedClean s) := by
  simp [exec, execNop, hp, checkStep, ha, complete_noError]

theorem exec_nop_check_abort (hp : s.progress = .check) (ha : s.abortReq = true) :
    exec .nop s = .next (endedWith 10#4 s) := by
  simp [exec, execNop, hp, checkStep, ha, complete_aborted]

theorem exec_solve_check (hp : s.progress = .check) (ha : s.abortReq = false) :
    exec .solve s = .next (goTo .solve s) := by
  simp [exec, execSolve, hp, checkStep, ha]

theorem exec_solve_check_abort (hp : s.progress = .check) (ha : s.abortReq = true) :
    exec .solve s = .next (endedWith 10#4 s) := by
  simp [exec, execSolve, hp, checkStep, ha, complete_aborted]

theorem exec_solve_solve (hp : s.progress = .solve) (ha : s.abortReq = false) :
    exec .solve s = .next (endedClean (solveUpdate s)) := by
  simp [exec, execSolve, hp, ha, complete_noError]

theorem exec_solve_solve_abort (hp : s.progress = .solve) (ha : s.abortReq = true) :
    exec .solve s = .next (endedWith 10#4 s) := by
  simp [exec, execSolve, hp, ha, complete_aborted]

theorem exec_line_check (hp : s.progress = .check) :
    exec .line s = checkStep (lineCheck s) s (.next (goTo (.lpass passStart) s)) := by
  simp [exec, execLine, hp]

theorem exec_blur_check (hp : s.progress = .check) :
    exec .blur2d s = checkStep (blurCheck s) s (.next (goTo .solve s)) := by
  simp [exec, execBlur2d, hp]

theorem exec_line_lpass {p : LinePos} (hp : s.progress = .lpass p) (ha : s.abortReq = false) :
    exec .line s = linePassStep p s := by
  simp [exec, execLine, hp, ha]

theorem exec_blur_solve (hp : s.progress = .solve) (ha : s.abortReq = false) :
    exec .blur2d s = .next (goTo (.hpass 0 passStart) (solveUpdate s)) := by
  simp [exec, execBlur2d, hp, ha]

theorem exec_blur_hpass {y : Nat} {p : LinePos} (hp : s.progress = .hpass y p) (ha : s.abortReq = false) :
    exec .blur2d s = rowPassStep y p s := by
  simp [exec, execBlur2d, hp, ha]

theorem exec_blur_vpass {x : Nat} {p : LinePos} (hp : s.progress = .vpass x p) (ha : s.abortReq = false) :
    exec .blur2d s = columnPassStep x p s := by
  simp [exec, execBlur2d, hp, ha]

theorem exec_line_finish (hp : s.progress = .finish) : exec .line s = .next (endedClean s) := by
  simp [exec, execLine, hp, complete_noError]

theorem exec_blur_finish (hp : s.progress = .finish) : exec .blur2d s = .next (endedClean s) := by
  simp [exec, execBlur2d, hp, complete_noError]

theorem exec_line_busError {a : Word} (hp : s.progress = .busError a) :
    exec .line s = .next { endedWith 9#4 s with errAddr := a } := by
  simp [exec, execLine, hp, complete_busError]

theorem exec_blur_busError {a : Word} (hp : s.progress = .busError a) :
    exec .blur2d s = .next { endedWith 9#4 s with errAddr := a } := by
  simp [exec, execBlur2d, hp, complete_busError]

end Places

/-- The first condition of a pre-check, with an error other than BUS_ERROR, which no pre-check gives. -/
theorem checkStep_ite {P : Prop} [Decidable P] {e code : ErrCode} {s : State} {goOn : Result} (h0 : e ≠ .noError)
    (hbus : e ≠ .busError) :
    checkStep (if P then e else code) s goOn =
      if P then .next (endedWith (errBits e) s) else checkStep code s goOn := by
  split
  · rw [checkStep, if_neg h0, complete_eq_endedWith h0 hbus]
  · rfl

/-- A CHECK step that found no error takes a pending abort request, or goes on. -/
theorem checkStep_noError (s : State) (goOn : Result) :
    checkStep .noError s goOn = if s.abortReq = true then .next (endedWith 10#4 s) else goOn := by
  rw [checkStep, if_pos rfl, complete_aborted]

/-! ### The next place in a line pass (41_line_filter.md R88) -/

theorem nextPos_forward (n channels i c : Nat) :
    nextPos n channels ⟨.forward, i, c⟩ = some
      (if c + 1 < channels then ⟨.forward, i, c + 1⟩
       else if i + 1 < n then ⟨.forward, i + 1, 0⟩ else ⟨.backward, n - 1, 0⟩) := by
  simp only [nextPos]
  split
  · rfl
  · split <;> rfl

theorem nextPos_backward (n channels i c : Nat) :
    nextPos n channels ⟨.backward, i, c⟩ = some
      (if c + 1 < channels then ⟨.backward, i, c + 1⟩ else ⟨.deliver, i, 0⟩) := by
  simp only [nextPos]
  split <;> rfl

theorem nextPos_deliver (n channels i c : Nat) :
    nextPos n channels ⟨.deliver, i, c⟩ =
      if c + 1 < channels then some ⟨.deliver, i, c + 1⟩
      else if i = 0 then none else some ⟨.backward, i - 1, 0⟩ := rfl

theorem passOn_some {n channels : Nat} {p q : LinePos} (h : nextPos n channels p = some q)
    (inPass : LinePos → Progress) (after : Progress) (s : State) :
    passOn n channels p inPass after s = goTo (inPass q) s := by
  simp only [passOn, h]

theorem passOn_none {n channels : Nat} {p : LinePos} (h : nextPos n channels p = none)
    (inPass : LinePos → Progress) (after : Progress) (s : State) :
    passOn n channels p inPass after s = goTo after (countLine s) := by
  simp only [passOn, h]

/-- The end of a deliver step, its three outcomes written out. -/
theorem passOn_deliver (n channels i c : Nat) (inPass : LinePos → Progress) (after : Progress) (s : State) :
    passOn n channels ⟨.deliver, i, c⟩ inPass after s =
      if c + 1 < channels then goTo (inPass ⟨.deliver, i, c + 1⟩) s
      else if i = 0 then goTo after (countLine s) else goTo (inPass ⟨.backward, i - 1, 0⟩) s := by
  have h := nextPos_deliver n channels i c
  by_cases hc : c + 1 < channels
  · rw [if_pos hc] at h ⊢
    exact passOn_some h ..
  · rw [if_neg hc] at h ⊢
    by_cases hi : i = 0
    · rw [if_pos hi] at h ⊢
      exact passOn_none h ..
    · rw [if_neg hi] at h ⊢
      exact passOn_some h ..

/-! ### The steps of the passes on samples that answer -/

section PassSteps

variable {s : State} {p : LinePos}

theorem linePassStep_forward (hph : p.phase = .forward)
    (hok : portAddressOk (lineSrcAddress s.latched p.i p.c) = true)
    (h : readAnswers s.platform (lineSrcAddress s.latched p.i p.c)) :
    linePassStep p s = .next (lineNext p (forwardSample (opChannels s.latched) p
      (readWord s.mem (lineSrcAddress s.latched p.i p.c)) s)) := by
  simp only [linePassStep, hph]
  exact portRead_answers _ hok h

theorem linePassStep_backward (hph : p.phase = .backward)
    (hok : portAddressOk (lineSrcAddress s.latched p.i p.c) = true)
    (h : readAnswers s.platform (lineSrcAddress s.latched p.i p.c)) :
    linePassStep p s = .next (lineNext p (backwardSample (opWidth s.latched) (opChannels s.latched) p
      (readWord s.mem (lineSrcAddress s.latched p.i p.c)) s)) := by
  simp only [linePassStep, hph]
  exact portRead_answers _ hok h

theorem linePassStep_deliver (hph : p.phase = .deliver)
    (hok : portAddressOk (lineDstAddress s.latched p.i p.c) = true)
    (h : writeAnswers s.platform (lineDstAddress s.latched p.i p.c)) :
    linePassStep p s = .next (lineNext p (storeWord (lineDstAddress s.latched p.i p.c)
      (passResult (opChannels s.latched) p s) s)) := by
  simp only [linePassStep, hph]
  exact portWrite_answers _ _ hok h

theorem rowPassStep_forward {y : Nat} (hph : p.phase = .forward)
    (hok : portAddressOk (blurSrcAddress s.latched y p.i p.c) = true)
    (h : readAnswers s.platform (blurSrcAddress s.latched y p.i p.c)) :
    rowPassStep y p s = .next (rowNext y p (forwardSample (opChannels s.latched) p
      (readWord s.mem (blurSrcAddress s.latched y p.i p.c)) s)) := by
  simp only [rowPassStep, hph]
  exact portRead_answers _ hok h

theorem rowPassStep_backward {y : Nat} (hph : p.phase = .backward)
    (hok : portAddressOk (blurSrcAddress s.latched y p.i p.c) = true)
    (h : readAnswers s.platform (blurSrcAddress s.latched y p.i p.c)) :
    rowPassStep y p s = .next (rowNext y p (backwardSample (opWidth s.latched) (opChannels s.latched) p
      (readWord s.mem (blurSrcAddress s.latched y p.i p.c)) s)) := by
  simp only [rowPassStep, hph]
  exact portRead_answers _ hok h

theorem rowPassStep_deliver {y : Nat} (hph : p.phase = .deliver) :
    rowPassStep y p s = .next (rowNext y p (cacheStore y p s)) := by
  simp only [rowPassStep, hph]

theorem columnPassStep_forward {x : Nat} (hph : p.phase = .forward) :
    columnPassStep x p s =
      .next (columnNext x p (forwardSample (opChannels s.latched) p (cacheLoad x p s) s)) := by
  simp only [columnPassStep, hph]

theorem columnPassStep_backward {x : Nat} (hph : p.phase = .backward) :
    columnPassStep x p s = .next (columnNext x p
      (backwardSample (opHeight s.latched) (opChannels s.latched) p (cacheLoad x p s) s)) := by
  simp only [columnPassStep, hph]

theorem columnPassStep_deliver {x : Nat} (hph : p.phase = .deliver)
    (hok : portAddressOk (blurDstAddress s.latched p.i x p.c) = true)
    (h : writeAnswers s.platform (blurDstAddress s.latched p.i x p.c)) :
    columnPassStep x p s = .next (columnNext x p (storeWord (blurDstAddress s.latched p.i x p.c)
      (passResult (opChannels s.latched) p s) s)) := by
  simp only [columnPassStep, hph]
  exact portWrite_answers _ _ hok h

end PassSteps

/-! ### Bytes around a stored word (20_memory.md R49) -/

/-- A store of `n` bytes leaves every other byte. -/
theorem sameBytesOutside_writeBytes (m : List Host.Cell) (a : Nat) (v : Word) (n : Nat) :
    sameBytesOutside a n m (writeBytes m a v n) :=
  fun _ hb => readByte_writeBytes_other m a v n hb

/-- A word store leaves every other byte. -/
theorem sameBytesOutside_writeWord (m : List Host.Cell) (a : Nat) (v : Word) :
    sameBytesOutside a 4 m (writeWord m a v) := sameBytesOutside_writeBytes m a v 4

/-! ### A sample that does not answer (60_exceptions.md R109, 20_memory.md R55) -/

/-- What a reading step answers where its sample fails or has side effects. -/
theorem readStops_portRead {s : State} {a : Nat} (hn : nextAccess s = some (.read a)) (k : Word → State) :
    readStops s a (portRead a s k) := by
  refine ⟨hn, fun hok hf => ?_, fun hok hf hs => ?_⟩
  · simp [portRead, hok, hf, goTo]
  · simp [portRead, hok, hf, hs]

/-- What a writing step answers where its sample fails or has side effects. -/
theorem writeStops_portWrite {s : State} {a : Nat} (hn : nextAccess s = some (.write a)) (v : Word)
    (k : State → State) : writeStops s a (portWrite a v s k) := by
  refine ⟨hn, fun hok hf => ?_, fun hok hf hs => ?_⟩
  · refine ⟨_, ?_, readWord_writeWord_same s.mem a _, sameBytesOutside_writeWord s.mem a _⟩
    simp only [portWrite, hok, hf, if_true, Bool.true_eq_false, if_false]
    rfl
  · simp [portWrite, hok, hf, hs]

/-! ### The pre-checks (60_exceptions.md R107) -/

/-- No pre-check of LINE gives BUS_ERROR. -/
theorem checkLine_ne_busError (m w : Nat) (cv : Bool) (l : Latched) : checkLine m w cv l ≠ .busError := by
  unfold checkLine
  repeat' split
  all_goals decide

/-- No pre-check of BLUR2D gives BUS_ERROR. -/
theorem checkBlur_ne_busError (m w : Nat) (l : Latched) : checkBlur m w l ≠ .busError := by
  unfold checkBlur
  repeat' split
  all_goals decide

theorem misaligned_or_iff (a b : Nat) : (misaligned a || misaligned b) = true ↔ a % 4 ≠ 0 ∨ b % 4 ≠ 0 := by
  simp [misaligned]

/-- The overlap condition of LINE: the ranges intersect and the lines are not the same (20_memory.md R59). -/
theorem overlap_iff (l : Latched) (a b c d : Nat) :
    (rangesIntersect a b c d && !sameLine l) = true ↔
      (a < d ∧ c < b) ∧ ¬ (opSrc l = opDst l ∧ opSrcStep l = opDstStep l) := by
  simp only [rangesIntersect, sameLine, Bool.and_eq_true, decide_eq_true_eq, Bool.not_eq_true', ← Bool.not_eq_true,
    beq_iff_eq]

/-! ### The statements: NOP and SOLVE -/

/-- Settles O19. -/
theorem nopCompletes : Obligations.NopCompletes := by
  refine ⟨rfl, fun s => ⟨exec_nop_check rfl rfl, exec_nop_check_abort rfl rfl⟩, fun s => exec_nop_check,
    _, exec_nop_check rfl rfl, rfl⟩

/-- Settles O20: the two steps by the engine's progress, and the run is one after the other. -/
theorem solveCompletes : Obligations.SolveCompletes := by
  intro s
  refine ⟨exec_solve_check, exec_solve_solve, ?_, ?_, fun _ => rfl,
    fun f sigma => ⟨rfl, rfl, rfl, rfl, rfl, rfl, rfl, rfl, rfl, rfl, rfl, rfl⟩⟩
  · rintro (hp | hp) ha
    · exact exec_solve_check_abort hp ha
    · exact exec_solve_solve_abort hp ha
  · have hcheck := exec_solve_check (s := accept (encode .solve) s) rfl rfl
    have hsolve := exec_solve_solve (s := goTo .solve (accept (encode .solve) s)) rfl rfl
    simp only [execN, hcheck, hsolve]
    rfl

/-! ### The statements: the CHECK steps -/

/-- Settles O25: the pre-check's conditions one by one. -/
theorem lineCheckStep : Obligations.LineCheckStep := by
  intro s hp N C src dst ss ds srcEnd dstEnd
  rw [exec_line_check hp, lineCheck, checkLine]
  simp only [misaligned_or_iff, overlap_iff]
  rw [checkStep_ite, checkStep_ite, checkStep_ite, checkStep_ite, checkStep_ite, checkStep_ite, checkStep_ite,
    checkStep_noError]
  · rfl
  all_goals decide

/-- Settles O26: the pre-check's conditions one by one. -/
theorem blurCheckStep : Obligations.BlurCheckStep := by
  intro s hp W H C src dst st
  rw [exec_blur_check hp, blurCheck, checkBlur]
  simp only [misaligned_or_iff]
  rw [checkStep_ite, checkStep_ite, checkStep_ite, checkStep_ite, checkStep_ite, checkStep_noError]
  · rfl
  all_goals decide

/-! ### The statements: the steps of LINE -/

/-- Settles O27. -/
theorem lineForwardStep : Obligations.LineForwardStep := by
  intro s i c hp ha hok h v prev acc
  rw [exec_line_lpass hp ha, linePassStep_forward (p := ⟨.forward, i, c⟩) rfl hok h,
    lineNext, passOn_some (nextPos_forward ..)]
  rfl

/-- Settles O28. -/
theorem lineBackwardStep : Obligations.LineBackwardStep := by
  intro s i c hp ha hok h v prev acc k
  rw [exec_line_lpass hp ha, linePassStep_backward (p := ⟨.backward, i, c⟩) rfl hok h,
    lineNext, passOn_some (nextPos_backward ..)]
  rfl

/-- Settles O29: the stored word is read back, whichever place comes next. -/
theorem lineDeliverStep : Obligations.LineDeliverStep := by
  intro s i c hp ha hok h a v
  have hmem : (lineNext ⟨.deliver, i, c⟩ (storeWord a v s)).mem = writeWord s.mem a v := (passOn_stores ..).1
  refine ⟨lineNext ⟨.deliver, i, c⟩ (storeWord a v s),
    (exec_line_lpass hp ha).trans (linePassStep_deliver (p := ⟨.deliver, i, c⟩) rfl hok h),
    hmem ▸ readWord_writeWord_same .., hmem ▸ sameBytesOutside_writeWord _ _ _, ?_⟩
  rw [hmem, lineNext, passOn_deliver]
  rfl

/-! ### The statements: the steps of BLUR2D -/

/-- Settles O30. -/
theorem blurSolveStep : Obligations.BlurSolveStep := fun _ hp ha => exec_blur_solve hp ha

/-- Settles O31. -/
theorem blurRowReadSteps : Obligations.BlurRowReadSteps := by
  intro s y i c ha hok h v k
  constructor
  · intro hp acc
    rw [exec_blur_hpass hp ha, rowPassStep_forward (p := ⟨.forward, i, c⟩) rfl hok h, rowNext,
      passOn_some (nextPos_forward ..)]
    rfl
  · intro hp acc
    rw [exec_blur_hpass hp ha, rowPassStep_backward (p := ⟨.backward, i, c⟩) rfl hok h, rowNext,
      passOn_some (nextPos_backward ..)]
    rfl

/-- Settles O32. -/
theorem blurRowDeliverStep : Obligations.BlurRowDeliverStep := by
  intro s y i c ha hp C H S s'
  rw [exec_blur_hpass hp ha, rowPassStep_deliver (p := ⟨.deliver, i, c⟩) rfl, rowNext, passOn_deliver]
  rfl

/-- Settles O33. -/
theorem blurColumnSteps : Obligations.BlurColumnSteps := by
  intro s x i c ha C H v k
  constructor
  · intro hp acc
    rw [exec_blur_vpass hp ha, columnPassStep_forward (p := ⟨.forward, i, c⟩) rfl, columnNext,
      passOn_some (nextPos_forward ..)]
    rfl
  · intro hp acc
    rw [exec_blur_vpass hp ha, columnPassStep_backward (p := ⟨.backward, i, c⟩) rfl, columnNext,
      passOn_some (nextPos_backward ..)]
    rfl

/-- Settles O34: the stored word is read back, whichever place comes next. -/
theorem blurColumnDeliverStep : Obligations.BlurColumnDeliverStep := by
  intro s x i c ha hp hok h a C
  have hmem : (columnNext x ⟨.deliver, i, c⟩ (storeWord a (readCell s.work (i * C + c)) s)).mem =
      writeWord s.mem a (readCell s.work (i * C + c)) := (passOn_stores ..).1
  refine ⟨columnNext x ⟨.deliver, i, c⟩ (storeWord a (readCell s.work (i * C + c)) s),
    (exec_blur_vpass hp ha).trans (columnPassStep_deliver (p := ⟨.deliver, i, c⟩) rfl hok h),
    hmem ▸ readWord_writeWord_same .., hmem ▸ sameBytesOutside_writeWord _ _ _, ?_⟩
  rw [hmem, columnNext, passOn_deliver]
  rfl

/-- Settles O35. -/
theorem passesComplete : Obligations.PassesComplete := fun _ hp => ⟨exec_line_finish hp, exec_blur_finish hp⟩

/-! ### The statements: errors and aborts during a command -/

/-- Settles O36: each of the four kinds of access, by what the memory port answers; then the completion. -/
theorem busErrorEndsTheCommand : Obligations.BusErrorEndsTheCommand := by
  refine ⟨fun s i c ha => ⟨?_, fun hp => ?_, ?_, fun x hp => ?_⟩,
    fun s a hp => ⟨exec_line_busError hp, exec_blur_busError hp⟩⟩
  · rintro ph hph hp
    have hn : nextAccess s = some (.read (lineSrcAddress s.latched i c)) := by
      rcases hph with rfl | rfl <;> simp [nextAccess, ha, hp]
    rw [exec_line_lpass hp ha, linePassStep]
    rcases hph with rfl | rfl <;> exact readStops_portRead hn _
  · have hn : nextAccess s = some (.write (lineDstAddress s.latched i c)) := by simp [nextAccess, ha, hp]
    rw [exec_line_lpass hp ha]
    exact writeStops_portWrite hn _ _
  · rintro y ph hph hp
    have hn : nextAccess s = some (.read (blurSrcAddress s.latched y i c)) := by
      rcases hph with rfl | rfl <;> simp [nextAccess, ha, hp]
    rw [exec_blur_hpass hp ha, rowPassStep]
    rcases hph with rfl | rfl <;> exact readStops_portRead hn _
  · have hn : nextAccess s = some (.write (blurDstAddress s.latched i x c)) := by simp [nextAccess, ha, hp]
    rw [exec_blur_vpass hp ha]
    exact writeStops_portWrite hn _ _

/-- Settles O37. -/
theorem abortPointsEndTheCommand : Obligations.AbortPointsEndTheCommand := by
  intro s ha
  refine ⟨fun p hp => ?_, fun y p hp => ?_, fun x p hp => ?_, fun hp => ⟨?_, exec_solve_solve_abort hp ha⟩⟩
  · simp [exec, execLine, hp, ha, complete_aborted]
  all_goals simp [exec, execBlur2d, hp, ha, complete_aborted]

end Sys2Proof.Machine

namespace Sys2Proof.Machine

/-! PROOFS about the order of the agents' steps, host accesses and host scripts (20_memory.md, 30_encoding.md): first the
step by the agenda, then the register offsets, then bytes and footprints, then the statements. -/

/-! ### The step by the agenda (20_memory.md R61) -/

theorem step_nil {s : State} (h : s.agenda = []) : step s = engineStep s := by
  simp only [step, h]

theorem step_cons {s : State} {e : Event} {rest : List Event} (h : s.agenda = e :: rest) :
    step s = eventStep e { s with agenda := rest } := by
  simp only [step, h]

/-- While idle the engine changes nothing (60_exceptions.md R121). -/
theorem engineStep_idle {s : State} (hb : s.status.busy = false) : engineStep s = .next s := by
  simp [engineStep, hb]

/-- A register write that heads the agenda is performed and taken off it. -/
theorem step_write {s : State} {r : Reg} {w : Word} {rest : List Event}
    (h : s.agenda = .host (wrStep r w) :: rest) : step s = .next (writeReg r w { s with agenda := rest }) :=
  (step_cons h).trans (hostStep_write r w _)

/-- A word that the table decodes is issued: it is accepted, with the agenda empty. -/
theorem withFetchWord_of_decode {s : State} {n w : Nat} {i : Instr} (h : decodeTableWord n w = some i) :
    ∃ v, decode v = .ok i ∧ s.withFetchWord n w = { accept v s with agenda := [] } := by
  unfold decodeTableWord at h
  split at h
  next => cases h
  next v hv =>
    split at h
    next j hj =>
      cases h
      exact ⟨v, hj, by simp only [State.withFetchWord, issueWord, hv]⟩
    next => cases h

/-! ### Registers by offset (10_state.md R17) -/

theorem regOffset_lt (r : Reg) : regOffset r < 0x80 := by cases r <;> decide

theorem regOffset_aligned (r : Reg) : regOffset r % 4 = 0 := by cases r <;> decide

/-- Every aligned offset in the block is a register's. -/
theorem exists_regOffset {offset : Nat} (hlt : offset < 0x80) (h4 : offset % 4 = 0) :
    ∃ r, regOffset r = offset := by
  have hall : ∀ k : Fin 32, ∃ r ∈ allRegs, regOffset r = 4 * k.val := by decide
  obtain ⟨r, -, hr⟩ := hall ⟨offset / 4, by omega⟩
  exact ⟨r, by simp only [hr]; omega⟩

/-- An access in the block that is not 32 bits wide and aligned is refused (20_memory.md R50). -/
theorem registerAccess_malformed {offset size : Nat} (access : Reg → State) (hlt : offset < 0x80)
    (h : size ≠ 4 ∨ offset % 4 ≠ 0) :
    registerAccess offset size access = .refused (.malformedRegisterAccess offset size) := by
  have hin : inRegisterBlock offset = true := by simp [inRegisterBlock, hlt]
  have hbad : registerAccessOk offset size = false := by
    simp only [registerAccessOk, Bool.and_eq_false_iff, beq_eq_false_iff_ne]
    exact h
  simp [registerAccess, hin, hbad]

/-! ### Bytes of memory (20_memory.md R49) -/

/-- The bytes of a store read back. -/
theorem readByte_writeBytes_same (m : List Host.Cell) (a : Nat) (v : Word) {n k : Nat} (hk : k < n) :
    readByte (writeBytes m a v n) (a + k) = byteOf v k := by
  rw [readByte_writeBytes, if_pos (by omega), Nat.add_sub_cancel_left]

/-- A byte put below a number, in a word: the byte, and the number eight bits up. -/
theorem setWidth_append_byte {k : Nat} (x : BitVec k) (b : Byte) :
    (x ++ b).setWidth 32 = b.setWidth 32 ||| (x.setWidth 32 <<< 8) := by
  apply BitVec.eq_of_getLsbD_eq
  intro i hi
  by_cases h : i < 8
  · simp [BitVec.getLsbD_append, hi, h]
  · simp [BitVec.getLsbD_append, hi, h, BitVec.getLsbD_of_ge b i (by omega)]

/-- Four loaded bytes are the word. -/
theorem loadBytes_four (m : List Host.Cell) (a : Nat) : loadBytes m a 4 = readWord m a := by
  have hword : readWord m a = (readWord m a).setWidth 32 := (BitVec.setWidth_eq _).symm
  rw [hword, readWord, wordOfBytes, setWidth_append_byte, setWidth_append_byte, setWidth_append_byte]
  simp [loadBytes, BitVec.shiftLeft_or_distrib, BitVec.or_assoc]

/-! ### The footprint (20_memory.md R58) -/

/-- Some byte of the access belongs to a sample. -/
theorem touchesSample_iff (l : Latched) (a n : Nat) :
    touchesSample l a n = true ↔ ∃ k, k < n ∧ (isSourceByte l (a + k) = true ∨ isDestByte l (a + k) = true) := by
  induction n with
  | zero => simp [touchesSample]
  | succ n ih =>
    simp only [touchesSample, Bool.or_eq_true, ih, Nat.lt_succ_iff_lt_or_eq, or_and_right, exists_or,
      exists_eq_left, or_assoc]

/-- The bytes of a line of LINE. -/
theorem inSamples_line_iff (base n step channels a : Nat) :
    inSamples base step n channels a = true ↔
      ∃ i c k, i < n ∧ c < channels ∧ k < 4 ∧ a = sampleAddress base (i * step + c) + k := inSamples_iff

/-- The bytes of a plane of BLUR2D: sample j of a row is channel j % C of pixel j / C. -/
theorem inSamples_plane_iff (base stride h w channels a : Nat) :
    inSamples base stride h (w * channels) a = true ↔
      ∃ y x c k, y < h ∧ x < w ∧ c < channels ∧ k < 4 ∧
        a = sampleAddress base (y * stride + x * channels + c) + k := by
  rw [inSamples_iff]
  constructor
  · rintro ⟨y, j, k, hy, hj, hk, rfl⟩
    have hpos : 0 < channels := Nat.pos_of_ne_zero fun h0 => by simp [h0] at hj
    refine ⟨y, j / channels, j % channels, k, hy, Nat.div_lt_of_lt_mul (by rwa [mul_comm] at hj),
      Nat.mod_lt _ hpos, hk, ?_⟩
    rw [add_assoc, Nat.div_add_mod']
  · rintro ⟨y, x, c, k, hy, hx, hc, hk, rfl⟩
    refine ⟨y, x * channels + c, k, hy, ?_, hk, by rw [add_assoc]⟩
    calc x * channels + c < (x + 1) * channels := by rw [Nat.succ_mul]; omega
      _ ≤ w * channels := Nat.mul_le_mul_right _ hx

/-- The footprint of a latched LINE. -/
theorem isDestByte_line {s : State} (h : latchedIs .line s) (a : Nat) :
    isDestByte s.latched a =
      inSamples (opDst s.latched) (opDstStep s.latched) (opWidth s.latched) (opChannels s.latched) a := by
  have hd : decode (latchedWord s.latched) = .ok .line := h
  simp only [isDestByte, hd]

theorem isSourceByte_line {s : State} (h : latchedIs .line s) (a : Nat) :
    isSourceByte s.latched a =
      inSamples (opSrc s.latched) (opSrcStep s.latched) (opWidth s.latched) (opChannels s.latched) a := by
  have hd : decode (latchedWord s.latched) = .ok .line := h
  simp only [isSourceByte, hd]

/-- The footprint of a latched BLUR2D. -/
theorem isDestByte_blur {s : State} (h : latchedIs .blur2d s) (a : Nat) :
    isDestByte s.latched a = inSamples (opDst s.latched) (opStride s.latched) (opHeight s.latched)
      (opWidth s.latched * opChannels s.latched) a := by
  have hd : decode (latchedWord s.latched) = .ok .blur2d := h
  simp only [isDestByte, hd]

theorem isSourceByte_blur {s : State} (h : latchedIs .blur2d s) (a : Nat) :
    isSourceByte s.latched a = inSamples (opSrc s.latched) (opStride s.latched) (opHeight s.latched)
      (opWidth s.latched * opChannels s.latched) a := by
  have hd : decode (latchedWord s.latched) = .ok .blur2d := h
  simp only [isSourceByte, hd]

/-- Any other latched word has no samples. -/
theorem footprint_empty {s : State} (hl : ¬ latchedIs .line s) (hb : ¬ latchedIs .blur2d s) (a : Nat) :
    isDestByte s.latched a = false ∧ isSourceByte s.latched a = false := by
  unfold latchedIs fetchCommand at hl hb
  unfold isDestByte isSourceByte
  split <;> simp_all

/-! ### The statements -/

/-- Settles O3: the agenda says whose step it is, and the latched word which command's. -/
theorem stepRunsTheFetchedCommand : Obligations.StepRunsTheFetchedCommand := by
  refine ⟨fun s i hb hi => ⟨fun ha => ?_, fun rest ha => ?_⟩, fun s => ⟨step_nil, fun rest => step_cons⟩,
    fun s hb hp hd => ⟨fun ha => ?_, fun rest ha => ?_⟩, fun s hb => ⟨fun ha => ?_, fun rest ha => ?_⟩,
    fun s rest => ⟨fun h => step_cons, step_cons⟩, fun s w i hi => ?_⟩
  · exact (step_nil ha).trans (engineStep_of_latched hb hi)
  · exact (step_cons ha).trans (engineStep_of_latched (s := { s with agenda := rest }) hb hi)
  · exact (step_nil ha).trans (engineStep_of_illegal hb hp hd)
  · exact (step_cons ha).trans (engineStep_of_illegal (s := { s with agenda := rest }) hb hp hd)
  · exact (step_nil ha).trans (engineStep_idle hb)
  · exact (step_cons ha).trans (engineStep_idle (s := { s with agenda := rest }) hb)
  · obtain ⟨v, hv, hs⟩ := withFetchWord_of_decode (s := s) hi
    rw [hs]
    exact (step_nil rfl).trans (engineStep_of_latched (s := { accept v s with agenda := [] }) rfl
      ((fetchCommand_accept v s).trans hv))

/-- Settles O4: the table by evaluation, and what reads 0 after a reset step reads 0 right after reset. -/
theorem registerMapAfterReset : Obligations.RegisterMapAfterReset := by
  refine ⟨by decide, fun r => ⟨regAt_regOffset r, regOffset_aligned r, regOffset_lt r⟩,
    fun _ _ => regOffset_of_regAt, fun offset hlt h4 => ?_, rfl, fun r => readReg_resetBlock_eq_zero State.reset⟩
  obtain ⟨r, rfl⟩ := exists_regOffset hlt h4
  exact ⟨r, regAt_regOffset r, rfl⟩

/-- Settles O9. -/
theorem malformedRegisterAccessIsRefused : Obligations.MalformedRegisterAccessIsRefused := by
  intro offset size w s hlt
  refine ⟨fun h => ⟨registerAccess_malformed _ hlt h, registerAccess_malformed _ hlt h⟩, fun hsize h4 => ?_⟩
  obtain ⟨r, rfl⟩ := exists_regOffset hlt h4
  exact ⟨r, rfl, hsize ▸ hostStep_write r w s, hsize ▸ hostStep_read r s⟩

/-- Settles O16: a store's bytes by the read-after-write law of a byte. -/
theorem wordsAreLittleEndian : Obligations.WordsAreLittleEndian := by
  intro m a v
  have hbyte {k : Nat} (hk : k < 4) : readByte (writeWord m a v) (a + k) = byteOf v k :=
    readByte_writeBytes_same m a v hk
  exact ⟨hbyte (k := 0) (by decide), hbyte (k := 1) (by decide), hbyte (k := 2) (by decide),
    hbyte (k := 3) (by decide), rfl, readWord_writeWord_same m a v, sameBytesOutside_writeWord m a v,
    fun n _ => ⟨sameBytesOutside_writeBytes m a v n, fun k hk => readByte_writeBytes_same m a v hk⟩⟩

/-- Settles O17. -/
theorem hostMemoryAccesses : Obligations.HostMemoryAccesses := by
  intro s a width v
  refine ⟨fun hlt => ?_, fun hle hse => ?_, fun hle hse => ?_⟩
  · have hout : a + widthBytes width > Config.addressLimit := hlt
    simp [hostStep, hostLoad, hostStore, hout]
  all_goals have hin : ¬ a + widthBytes width > Config.addressLimit := Nat.not_lt.2 hle
  · simp [hostStep, hostLoad, hostStore, hin, hse]
  · refine ⟨by simp [hostStep, hostLoad, hin, hse, deliverRead], loadBytes_four s.mem a, ?_, ?_⟩
    all_goals rw [← touchesSample_iff, ← Bool.and_eq_true]; intro h
    · simp only [hostStep, hostStore, hin, hse, h, if_true, if_false, Bool.false_eq_true]
    · simp only [hostStep, hostStore, hin, hse, h, if_false, Bool.false_eq_true]

/-- Settles O18: the runs of `inSamples` are the line's positions, or the plane's rows. -/
theorem footprintIsTheSamples : Obligations.FootprintIsTheSamples := by
  intro s a
  refine ⟨fun h => ?_, fun h => ?_, fun hl hb => footprint_empty hl hb a⟩
  · rw [isDestByte_line h, isSourceByte_line h]
    exact ⟨inSamples_line_iff .., inSamples_line_iff ..⟩
  · rw [isDestByte_blur h, isSourceByte_blur h]
    exact ⟨inSamples_plane_iff .., inSamples_plane_iff ..⟩

/-- Settles O60: each statement is one host step, and a wait's poll is split on BUSY. -/
theorem scriptStatements : Obligations.ScriptStatements := by
  intro s rest
  refine ⟨fun h => ?_, fun h hb => ?_, fun h hb => ?_, fun h hb => ?_, fun h hb => ?_, fun i h hb => ?_⟩
  · rw [step_write h]
    simp [writeReg, writeStatus, statusWritten]
  · rw [step_write h]
    simp [writeReg, writeCtrl, hb]
  · rw [step_write h]
    simp [writeReg, writeCtrl, hb]
  · rw [step_cons h, eventStep, hostStep, hostWait, if_neg (Bool.eq_false_iff.1 hb)]
    rfl
  · rw [step_cons h, eventStep, hostStep, hostWait, if_pos hb]
    rfl
  · rw [step_write h]
    simp [writeReg, writeCmd, hb]

end Sys2Proof.Machine

namespace Sys2Proof.Machine

/-! PROOFS about what single steps keep (10_state.md, 43_control.md): which moves end a command, and which change
ERR_ADDR, LINE_COUNT and COEF_VALID. -/

/-! ### What a move of the engine changes -/

/-- A move of the engine from a busy block leaves it busy, or ends the command: DONE 1 and idle. -/
theorem EngineMove.busy_cases {s t : State} (h : EngineMove s t) (hb : s.status.busy = true) :
    t.status.busy = true ∨ (t.status.done = true ∧ t.progress = .idle) := by
  cases h with
  | ended => exact .inr ⟨rfl, rfl⟩
  | solveDone => exact .inr ⟨rfl, rfl⟩
  | linePass p _ _ _ _ _ ht => exact .inl ((linePassStep_control ht).status ▸ hb)
  | rowPass y p _ _ _ _ _ ht => exact .inl ((rowPassStep_control ht).status ▸ hb)
  | columnPass x p _ _ _ _ _ ht => exact .inl ((columnPassStep_control ht).status ▸ hb)
  | _ => exact .inl hb

/-- A command ends with BUS_ERROR only after a failed access, whose address is its info word. -/
theorem EndReason.progress_of_busError {s : State} {info : Word} (h : EndReason s .busError info) :
    s.progress = .busError info := by
  generalize hcode : ErrCode.busError = code at h
  cases h with
  | line => exact (checkLine_ne_busError _ _ _ _ hcode.symm).elim
  | blur => exact (checkBlur_ne_busError _ _ _ hcode.symm).elim
  | busError a hp => exact hp
  | _ => cases hcode

/-- The only move of the engine that changes ERR_ADDR is the completion with BUS_ERROR (60_exceptions.md R109). -/
theorem EngineMove.errAddr_cases {s t : State} (h : EngineMove s t) :
    t.errAddr = s.errAddr ∨
      (s.progress = .busError t.errAddr ∧ t.status.errcode = 9#4 ∧ t.status.done = true) := by
  cases h with
  | ended code info _ hr =>
    by_cases hcode : code = .busError
    · subst hcode
      exact .inr ⟨hr.progress_of_busError, rfl, rfl⟩
    · exact .inl (if_neg hcode)
  | linePass p _ _ _ _ _ ht => exact .inl (linePassStep_control ht).errAddr
  | rowPass y p _ _ _ _ _ ht => exact .inl (rowPassStep_control ht).errAddr
  | columnPass x p _ _ _ _ _ ht => exact .inl (columnPassStep_control ht).errAddr
  | _ => exact .inl rfl

/-- Going on in a line pass counts the line exactly after its last deliver step. -/
theorem passOn_lineCount (n channels : Nat) (p : LinePos) (inPass : LinePos → Progress) (after : Progress)
    (s : State) :
    (passOn n channels p inPass after s).lineCount = s.lineCount ∨
      ((passOn n channels p inPass after s).lineCount = s.lineCount + 1#32 ∧
        ∃ c, channels ≤ c + 1 ∧ p = ⟨.deliver, 0, c⟩) := by
  rcases passOn_cases n channels p inPass after s with ⟨q, _, e⟩ | ⟨hn, e⟩
  · exact .inl (e ▸ rfl)
  · obtain ⟨ph, i, c⟩ := p
    obtain ⟨rfl, hc, rfl⟩ := (nextPos_eq_none_iff n channels ⟨ph, i, c⟩).1 hn
    exact .inr ⟨e ▸ rfl, c, hc, rfl⟩

theorem linePassStep_lineCount {p : LinePos} {s t : State} (h : linePassStep p s = .next t) :
    t.lineCount = s.lineCount ∨
      (t.lineCount = s.lineCount + 1#32 ∧ ∃ c, opChannels s.latched ≤ c + 1 ∧ p = ⟨.deliver, 0, c⟩) := by
  rcases linePassStep_next h with ⟨_, _, rfl⟩ | ⟨_, _, rfl⟩ | ⟨_, _, rfl⟩ | ⟨_, _, rfl | rfl⟩
  · exact .inl rfl
  · exact passOn_lineCount ..
  · exact passOn_lineCount ..
  · exact .inl rfl
  · exact passOn_lineCount ..

theorem rowPassStep_lineCount {y : Nat} {p : LinePos} {s t : State} (h : rowPassStep y p s = .next t) :
    t.lineCount = s.lineCount ∨
      (t.lineCount = s.lineCount + 1#32 ∧ ∃ c, opChannels s.latched ≤ c + 1 ∧ p = ⟨.deliver, 0, c⟩) := by
  rcases rowPassStep_next h with ⟨_, _, rfl⟩ | ⟨_, _, rfl⟩ | ⟨_, _, rfl⟩ | ⟨_, rfl⟩
  · exact .inl rfl
  · exact passOn_lineCount ..
  · exact passOn_lineCount ..
  · exact passOn_lineCount ..

theorem columnPassStep_lineCount {x : Nat} {p : LinePos} {s t : State} (h : columnPassStep x p s = .next t) :
    t.lineCount = s.lineCount ∨
      (t.lineCount = s.lineCount + 1#32 ∧ ∃ c, opChannels s.latched ≤ c + 1 ∧ p = ⟨.deliver, 0, c⟩) := by
  rcases columnPassStep_next h with ⟨_, rfl⟩ | ⟨_, rfl⟩ | ⟨_, _, rfl | rfl⟩
  · exact passOn_lineCount ..
  · exact passOn_lineCount ..
  · exact .inl rfl
  · exact passOn_lineCount ..

/-- The only moves of the engine that change LINE_COUNT are the last deliver steps of the line passes. -/
theorem EngineMove.lineCount_cases {s t : State} (h : EngineMove s t) :
    t.lineCount = s.lineCount ∨ (t.lineCount = s.lineCount + 1#32 ∧ ∃ c, opChannels s.latched ≤ c + 1 ∧
      (s.progress = .lpass ⟨.deliver, 0, c⟩ ∨ (∃ y, s.progress = .hpass y ⟨.deliver, 0, c⟩) ∨
        ∃ x, s.progress = .vpass x ⟨.deliver, 0, c⟩)) := by
  cases h with
  | linePass p _ _ hp _ _ ht =>
    exact (linePassStep_lineCount ht).imp_right fun ⟨e, c, hc, hpos⟩ => ⟨e, c, hc, .inl (hpos ▸ hp)⟩
  | rowPass y p _ _ hp _ _ ht =>
    exact (rowPassStep_lineCount ht).imp_right fun ⟨e, c, hc, hpos⟩ => ⟨e, c, hc, .inr (.inl ⟨y, hpos ▸ hp⟩)⟩
  | columnPass x p _ _ hp _ _ ht =>
    exact (columnPassStep_lineCount ht).imp_right fun ⟨e, c, hc, hpos⟩ => ⟨e, c, hc, .inr (.inr ⟨x, hpos ▸ hp⟩)⟩
  | _ => exact .inl rfl

/-- A move of the engine leaves COEF_VALID, or performs step SOLVE, which sets it. -/
theorem EngineMove.coefValid_cases {s t : State} (h : EngineMove s t) :
    (t.status.coefValid = s.status.coefValid ∧ t.coefs = s.coefs) ∨
      (t.status.coefValid = true ∧ s.progress = .solve ∧ t.coefs = coef s.latched.params.sigma) := by
  cases h with
  | solveDone _ hp => exact .inr ⟨rfl, hp, rfl⟩
  | blurSolve _ hp => exact .inr ⟨rfl, hp, rfl⟩
  | linePass p _ _ _ _ _ ht =>
    exact .inl ⟨by rw [(linePassStep_control ht).status], (linePassStep_control ht).coefs⟩
  | rowPass y p _ _ _ _ _ ht =>
    exact .inl ⟨by rw [(rowPassStep_control ht).status], (rowPassStep_control ht).coefs⟩
  | columnPass x p _ _ _ _ _ ht =>
    exact .inl ⟨by rw [(columnPassStep_control ht).status], (columnPassStep_control ht).coefs⟩
  | _ => exact .inl ⟨rfl, rfl⟩

/-! ### What a move of the host changes -/

/-- A host step on a busy block leaves it busy, with the same latched set and CMD (43_control.md R98, R99). -/
theorem HostMove.running {h : HostStep} {s t : State} (hm : HostMove h s t) (hb : s.status.busy = true) :
    t.latched = s.latched ∧ t.cmd = s.cmd ∧ t.status.busy = true := by
  cases hm with
  | write r w =>
    rcases writeReg_cases r w s with ⟨_, hidle, _⟩ | ⟨_, _, e⟩ | ⟨_, e⟩ | ⟨_, e⟩ | ⟨_, _, _, e⟩
    case inl => exact absurd (hidle.symm.trans hb) Bool.false_ne_true
    all_goals exact e ▸ ⟨rfl, rfl, hb⟩
  | _ => exact ⟨rfl, rfl, hb⟩

/-- A host step leaves ERR_ADDR and LINE_COUNT, or is an accepted CMD write, which clears both. -/
theorem HostMove.record_cases {h : HostStep} {s t : State} (hm : HostMove h s t) :
    (t.errAddr = s.errAddr ∧ t.lineCount = s.lineCount) ∨
      (t.errAddr = 0#32 ∧ t.lineCount = 0#32 ∧ ∃ w, h = .wr 0x14 4 w) := by
  cases hm with
  | write r w hh =>
    rcases writeReg_cases r w s with ⟨rfl, _, e⟩ | ⟨_, _, e⟩ | ⟨_, e⟩ | ⟨_, e⟩ | ⟨_, _, _, e⟩
    case inl => exact .inr (e ▸ ⟨rfl, rfl, w, hh⟩)
    all_goals exact .inl (e ▸ ⟨rfl, rfl⟩)
  | _ => exact .inl ⟨rfl, rfl⟩

/-- No host step changes COEF_VALID. -/
theorem HostMove.coefValid {h : HostStep} {s t : State} (hm : HostMove h s t) :
    t.status.coefValid = s.status.coefValid := by
  rcases hm.status_cases with e | ⟨_, e⟩ | ⟨_, e⟩ | ⟨w, e⟩ <;> rw [e] <;> rfl

/-! ### The statements -/

/-- Settles O12: the moves of the engine and of the host keep the latched set and CMD of a busy block. -/
theorem oneCommandRunsToCompletion : Obligations.OneCommandRunsToCompletion := by
  intro s t h hb hev
  rcases step_moves h with ⟨he, hm⟩ | ⟨_, _, _, hm⟩ | ⟨_, ha, _⟩
  · exact ⟨hm.keeps.latched, hm.keeps.cmd, (hm.busy_cases hb).imp_right fun ⟨hd, hp⟩ => ⟨hd, hp, he⟩⟩
  · obtain ⟨hlatched, hcmd, hbusy⟩ := hm.running hb
    exact ⟨hlatched, hcmd, .inl hbusy⟩
  · exact absurd (by simp [nextEvent, ha]) hev

/-- Settles O51: of all moves only the two that perform step SOLVE, and a reset, change COEF_VALID. -/
theorem coefValidIsClearedByResetOnly : Obligations.CoefValidIsClearedByResetOnly := by
  refine ⟨⟨rfl, rfl⟩, fun s t h => ?_, fun _ _ => ⟨rfl, rfl⟩, fun s hp hv => ?_⟩
  · rcases step_moves h with ⟨hev, hm⟩ | ⟨_, _, _, hm⟩ | ⟨_, ha, rfl⟩
    · rcases hm.coefValid_cases with ⟨hv, hc⟩ | ⟨hv, hp, hc⟩
      · exact ⟨fun hs ht => absurd (ht.symm.trans (hv.trans hs)) Bool.false_ne_true,
          fun hs ht => absurd ((hv.trans hs).symm.trans ht) Bool.false_ne_true,
          fun hz ht => hc.trans (hz (hv.symm.trans ht))⟩
      · exact ⟨fun _ ht => absurd (ht.symm.trans hv) Bool.false_ne_true, fun _ _ => ⟨hev, hp, hc⟩,
          fun _ ht => absurd (ht.symm.trans hv) Bool.false_ne_true⟩
    · exact ⟨fun hs ht => absurd (ht.symm.trans (hm.coefValid.trans hs)) Bool.false_ne_true,
        fun hs ht => absurd ((hm.coefValid.trans hs).symm.trans ht) Bool.false_ne_true,
        fun hz ht => hm.coefs.trans (hz (hm.coefValid.symm.trans ht))⟩
    · exact ⟨fun _ _ => by simp [nextEvent, ha], fun _ ht => absurd ht Bool.false_ne_true, fun _ _ => rfl⟩
  · exact (lineCheckStep s hp).trans (if_pos hv)

/-- Settles O52. -/
theorem errAddrRecordsBusErrors : Obligations.ErrAddrRecordsBusErrors := by
  intro s t h hne
  rcases step_moves h with ⟨hev, hm⟩ | ⟨_, rest, ha, hm⟩ | ⟨rest, ha, rfl⟩
  · exact .inr ⟨hev, hm.errAddr_cases.resolve_left hne⟩
  · rcases hm.record_cases with ⟨e, _⟩ | ⟨e, _, w, rfl⟩
    · exact absurd e hne
    · exact .inl ⟨e, rest, .inr ⟨w, ha⟩⟩
  · exact .inl ⟨rfl, rest, .inl ha⟩

/-- Settles O54. -/
theorem lineCountCountsFinishedPasses : Obligations.LineCountCountsFinishedPasses := by
  intro s t h hne
  rcases step_moves h with ⟨hev, hm⟩ | ⟨_, rest, ha, hm⟩ | ⟨rest, ha, rfl⟩
  · exact .inr ⟨hev, hm.lineCount_cases.resolve_left hne⟩
  · rcases hm.record_cases with ⟨_, e⟩ | ⟨_, e, w, rfl⟩
    · exact absurd e hne
    · exact .inl ⟨e, rest, .inr ⟨w, ha⟩⟩
  · exact .inl ⟨rfl, rest, .inl ha⟩

end Sys2Proof.Machine

namespace Sys2Proof.Machine

/-! PROOFS about the invariant of reachable states (10_state.md, 20_memory.md, 70_reset_and_hazards.md): first what the
pre-checks guarantee of the operands, then that the moves keep the invariant, then that the engine cannot fault, stays
inside its destination and ends every command. -/

/-! ### What the pre-checks guarantee (60_exceptions.md R107) -/

/-- What holds of the operands of a LINE that passed its pre-check. -/
structure LineOk (l : Latched) : Prop where
  width_pos : 0 < opWidth l
  channels_pos : 0 < opChannels l
  channels_le : opChannels l ≤ Config.maxChannels
  srcStep_ge : opChannels l ≤ opSrcStep l
  dstStep_ge : opChannels l ≤ opDstStep l
  src_aligned : opSrc l % 4 = 0
  dst_aligned : opDst l % 4 = 0
  srcEnd_le : lineSrcEnd l ≤ 2 ^ 32
  dstEnd_le : lineDstEnd l ≤ 2 ^ 32
  apart_or_same : (opSrc l < lineDstEnd l ∧ opDst l < lineSrcEnd l) →
    opSrc l = opDst l ∧ opSrcStep l = opDstStep l
  capacity : opWidth l * opChannels l ≤ Config.workWords

/-- What holds of the operands of a BLUR2D that passed its pre-check. -/
structure BlurOk (l : Latched) : Prop where
  width_pos : 0 < opWidth l
  height_pos : 0 < opHeight l
  channels_pos : 0 < opChannels l
  channels_le : opChannels l ≤ Config.maxChannels
  stride_ge : opWidth l * opChannels l ≤ opStride l
  src_aligned : opSrc l % 4 = 0
  dst_aligned : opDst l % 4 = 0
  srcEnd_le : blurSrcEnd l ≤ 2 ^ 32
  dstEnd_le : blurDstEnd l ≤ 2 ^ 32
  capacity : scratchWords l + cacheWords l ≤ Config.workWords

/-- A first condition that did not hold, in a pre-check that found no error. -/
theorem ite_eq_noError {P : Prop} [Decidable P] {e code : ErrCode} (h0 : e ≠ .noError)
    (h : (if P then e else code) = .noError) : ¬ P ∧ code = .noError := by
  split at h
  next => exact absurd h h0
  next hP => exact ⟨hP, h⟩

theorem lineOk_of_check {s : State} (h : lineCheck s = .noError) :
    s.status.coefValid = true ∧ LineOk s.latched := by
  rw [lineCheck, checkLine] at h
  simp only [misaligned_or_iff, overlap_iff] at h
  obtain ⟨hvalid, h⟩ := ite_eq_noError (by decide) h
  obtain ⟨hdim, h⟩ := ite_eq_noError (by decide) h
  obtain ⟨hstride, h⟩ := ite_eq_noError (by decide) h
  obtain ⟨halign, h⟩ := ite_eq_noError (by decide) h
  obtain ⟨hrange, h⟩ := ite_eq_noError (by decide) h
  obtain ⟨hoverlap, h⟩ := ite_eq_noError (by decide) h
  obtain ⟨hcap, -⟩ := ite_eq_noError (by decide) h
  simp only [Config.addressLimit] at hrange
  exact ⟨by simpa using hvalid, by omega, by omega, by omega, by omega, by omega, by omega, by omega, by omega,
    by omega, by tauto, by omega⟩

theorem blurOk_of_check {s : State} (h : blurCheck s = .noError) : BlurOk s.latched := by
  rw [blurCheck, checkBlur] at h
  simp only [misaligned_or_iff] at h
  obtain ⟨hdim, h⟩ := ite_eq_noError (by decide) h
  obtain ⟨hstride, h⟩ := ite_eq_noError (by decide) h
  obtain ⟨halign, h⟩ := ite_eq_noError (by decide) h
  obtain ⟨hrange, h⟩ := ite_eq_noError (by decide) h
  obtain ⟨hcap, -⟩ := ite_eq_noError (by decide) h
  simp only [Config.addressLimit] at hrange
  exact ⟨by omega, by omega, by omega, by omega, by omega, by omega, by omega, by omega, by omega, by omega⟩

/-! ### Addresses and indices inside their bounds (20_memory.md R51, 42_separable_blur.md R92) -/

/-- Place (i, c) of n rows of `m` lies below n*m. -/
theorem row_index_lt {i n c m : Nat} (hi : i < n) (hc : c < m) : i * m + c < n * m := by
  calc i * m + c < (i + 1) * m := by rw [Nat.succ_mul]; omega
    _ ≤ n * m := Nat.mul_le_mul_right _ hi

theorem scratchIndex_lt {n channels i c : Nat} (hi : i < n) (hc : c < channels) :
    scratchIndex channels i c < n * channels := row_index_lt hi hc

/-- The scratch line of either pass fits the scratch buffer (42_separable_blur.md R92). -/
theorem width_le_scratchWords (l : Latched) : opWidth l * opChannels l ≤ scratchWords l :=
  Nat.mul_le_mul_right _ (le_max_left _ _)

theorem height_le_scratchWords (l : Latched) : opHeight l * opChannels l ≤ scratchWords l :=
  Nat.mul_le_mul_right _ (le_max_right _ _)

theorem cacheIndex_eq (l : Latched) (x y c : Nat) :
    cacheIndex l x y c = scratchWords l + ((x * opHeight l + y) * opChannels l + c) := by
  rw [cacheIndex]; ring

/-- The transpose cache lies after the scratch line and inside the two together. -/
theorem cacheIndex_bounds {l : Latched} {x y c : Nat} (hx : x < opWidth l) (hy : y < opHeight l)
    (hc : c < opChannels l) :
    scratchWords l ≤ cacheIndex l x y c ∧ cacheIndex l x y c < scratchWords l + cacheWords l := by
  have := row_index_lt (row_index_lt hx hy) hc
  rw [cacheIndex_eq, cacheWords]
  omega

/-- A sample of a run that ends in the address space is a word of the memory port. -/
theorem portAddressOk_sample {base k bound : Nat} (halign : base % 4 = 0) (hk : k < bound)
    (hend : base + 4 * bound ≤ 2 ^ 32) : portAddressOk (sampleAddress base k) = true := by
  rw [portAddressOk_iff, sampleAddress]
  omega

/-- The last row of a run bounds the places of all rows. -/
theorem row_offset_lt {i n step c m : Nat} (hi : i < n) (hc : c < m) : i * step + c < (n - 1) * step + m :=
  add_lt_add_of_le_of_lt (Nat.mul_le_mul_right _ (by omega)) hc

theorem LineOk.src_port {l : Latched} (h : LineOk l) {i c : Nat} (hi : i < opWidth l) (hc : c < opChannels l) :
    portAddressOk (lineSrcAddress l i c) = true :=
  portAddressOk_sample h.src_aligned (row_offset_lt hi hc) h.srcEnd_le

theorem LineOk.dst_port {l : Latched} (h : LineOk l) {i c : Nat} (hi : i < opWidth l) (hc : c < opChannels l) :
    portAddressOk (lineDstAddress l i c) = true :=
  portAddressOk_sample h.dst_aligned (row_offset_lt hi hc) h.dstEnd_le

theorem BlurOk.src_port {l : Latched} (h : BlurOk l) {y x c : Nat} (hy : y < opHeight l) (hx : x < opWidth l)
    (hc : c < opChannels l) : portAddressOk (blurSrcAddress l y x c) = true := by
  rw [blurSrcAddress, add_assoc]
  exact portAddressOk_sample h.src_aligned (row_offset_lt hy (row_index_lt hx hc)) h.srcEnd_le

theorem BlurOk.dst_port {l : Latched} (h : BlurOk l) {y x c : Nat} (hy : y < opHeight l) (hx : x < opWidth l)
    (hc : c < opChannels l) : portAddressOk (blurDstAddress l y x c) = true := by
  rw [blurDstAddress, add_assoc]
  exact portAddressOk_sample h.dst_aligned (row_offset_lt hy (row_index_lt hx hc)) h.dstEnd_le

/-! ### The progress stays the running command's (10_state.md R46) -/

theorem goTo_self {s : State} {p : Progress} (h : s.progress = p) : goTo p s = s := by
  rw [← h, goTo]

/-- After a completion the block is idle. -/
theorem progressOk_complete (code : ErrCode) (info : Word) (s : State) : progressOk (complete code info s) := rfl

/-- Going on in the line pass of LINE. -/
theorem progressOk_lineNext {p : LinePos} {s : State} (h : progressOk (goTo (.lpass p) s)) :
    progressOk (lineNext p s) := by
  obtain ⟨hb, hlc, hi, hcheck, hin⟩ := h
  rcases passOn_cases (opWidth s.latched) (opChannels s.latched) p .lpass .finish s with ⟨q, hq, e⟩ | ⟨_, e⟩ <;>
    rw [lineNext, e]
  · exact ⟨hb, hlc, hi, hcheck, nextPos_inside hin.1 hin.2 hq⟩
  · refine ⟨hb, (lineOk_of_check hcheck).1, .inl ⟨hi, ?_⟩⟩
    rw [goTo_lineCount, countLine_lineCount, show s.lineCount = 0#32 from hlc]
    rfl

/-- One more finished line pass (10_state.md R27). -/
theorem ofNat_succ (n : Nat) : BitVec.ofNat 32 n + 1#32 = BitVec.ofNat 32 (n + 1) := (BitVec.ofNat_add n 1).symm

/-- Going on in the horizontal pass of BLUR2D. -/
theorem progressOk_rowNext {y : Nat} {p : LinePos} {s : State} (h : progressOk (goTo (.hpass y p) s)) :
    progressOk (rowNext y p s) := by
  obtain ⟨hb, hlc, hi, hcheck, hvalid, hy, hin⟩ := h
  have hok := blurOk_of_check hcheck
  have hcount : (countLine s).lineCount = BitVec.ofNat 32 (y + 1) := by
    rw [countLine_lineCount, show s.lineCount = BitVec.ofNat 32 y from hlc, ofNat_succ]
  have hy' : y < opHeight s.latched := hy
  rcases passOn_cases (opWidth s.latched) (opChannels s.latched) p (.hpass y) (afterRow s.latched y) s with
    ⟨q, hq, e⟩ | ⟨_, e⟩ <;> rw [rowNext, e]
  · exact ⟨hb, hlc, hi, hcheck, hvalid, hy, nextPos_inside hin.1 hin.2 hq⟩
  · unfold afterRow
    split
    next hlt => exact ⟨hb, hcount, hi, hcheck, hvalid, hlt, hok.width_pos, hok.channels_pos⟩
    next hge =>
      refine ⟨hb, ?_, hi, hcheck, hvalid, hok.width_pos, hok.height_pos, hok.channels_pos⟩
      rw [show y + 1 = opHeight s.latched + 0 by omega] at hcount
      exact hcount

/-- Going on in the vertical pass of BLUR2D. -/
theorem progressOk_columnNext {x : Nat} {p : LinePos} {s : State} (h : progressOk (goTo (.vpass x p) s)) :
    progressOk (columnNext x p s) := by
  obtain ⟨hb, hlc, hi, hcheck, hvalid, hx, hin⟩ := h
  have hok := blurOk_of_check hcheck
  have hcount : (countLine s).lineCount = BitVec.ofNat 32 (opHeight s.latched + (x + 1)) := by
    rw [countLine_lineCount, show s.lineCount = BitVec.ofNat 32 (opHeight s.latched + x) from hlc, ofNat_succ, add_assoc]
  have hx' : x < opWidth s.latched := hx
  rcases passOn_cases (opHeight s.latched) (opChannels s.latched) p (.vpass x) (afterColumn s.latched x) s with
    ⟨q, hq, e⟩ | ⟨_, e⟩ <;> rw [columnNext, e]
  · exact ⟨hb, hlc, hi, hcheck, hvalid, hx, nextPos_inside hin.1 hin.2 hq⟩
  · unfold afterColumn
    split
    next hlt => exact ⟨hb, hcount, hi, hcheck, hvalid, hlt, hok.height_pos, hok.channels_pos⟩
    next hge =>
      refine ⟨hb, hvalid, .inr ⟨hi, ?_⟩⟩
      rw [show x + 1 = opWidth s.latched by omega] at hcount
      exact hcount

/-- A bus error in a line pass of LINE. -/
theorem progressOk_busError_line {p : LinePos} {s : State} (h : progressOk (goTo (.lpass p) s)) (a : Word) :
    progressOk (goTo (.busError a) s) := by
  obtain ⟨hb, _, hi, hcheck, _⟩ := h
  exact ⟨hb, (lineOk_of_check hcheck).1, .inl hi⟩

/-- A bus error in the horizontal pass of BLUR2D. -/
theorem progressOk_busError_row {y : Nat} {p : LinePos} {s : State} (h : progressOk (goTo (.hpass y p) s)) (a : Word) :
    progressOk (goTo (.busError a) s) := by
  obtain ⟨hb, _, hi, _, hvalid, _⟩ := h
  exact ⟨hb, hvalid, .inr hi⟩

/-- A bus error in the vertical pass of BLUR2D. -/
theorem progressOk_busError_column {x : Nat} {p : LinePos} {s : State} (h : progressOk (goTo (.vpass x p) s))
    (a : Word) : progressOk (goTo (.busError a) s) := by
  obtain ⟨hb, _, hi, _, hvalid, _⟩ := h
  exact ⟨hb, hvalid, .inr hi⟩

theorem linePassStep_progressOk {p : LinePos} {s t : State} (hs : progressOk (goTo (.lpass p) s))
    (h : linePassStep p s = .next t) : progressOk t := by
  rcases linePassStep_next h with ⟨_, _, rfl⟩ | ⟨_, _, rfl⟩ | ⟨_, _, rfl⟩ | ⟨_, _, rfl | rfl⟩
  · exact progressOk_busError_line hs _
  · exact progressOk_lineNext hs
  · exact progressOk_lineNext hs
  · exact progressOk_busError_line (s := failedWrite _ s) hs _
  · exact progressOk_lineNext hs

theorem rowPassStep_progressOk {y : Nat} {p : LinePos} {s t : State} (hs : progressOk (goTo (.hpass y p) s))
    (h : rowPassStep y p s = .next t) : progressOk t := by
  rcases rowPassStep_next h with ⟨_, _, rfl⟩ | ⟨_, _, rfl⟩ | ⟨_, _, rfl⟩ | ⟨_, rfl⟩
  · exact progressOk_busError_row hs _
  · exact progressOk_rowNext hs
  · exact progressOk_rowNext hs
  · exact progressOk_rowNext hs

theorem columnPassStep_progressOk {x : Nat} {p : LinePos} {s t : State} (hs : progressOk (goTo (.vpass x p) s))
    (h : columnPassStep x p s = .next t) : progressOk t := by
  rcases columnPassStep_next h with ⟨_, rfl⟩ | ⟨_, rfl⟩ | ⟨_, _, rfl | rfl⟩
  · exact progressOk_columnNext hs
  · exact progressOk_columnNext hs
  · exact progressOk_busError_column (s := failedWrite _ s) hs _
  · exact progressOk_columnNext hs

/-! ### The stores stay within their sizes (10_state.md R43, R44, 20_memory.md R48) -/

theorem storageOk_passOn {s : State} (h : storageOk s) (n channels : Nat) (p : LinePos)
    (inPass : LinePos → Progress) (after : Progress) : storageOk (passOn n channels p inPass after s) := by
  obtain ⟨hmem, hwork, hacc, _⟩ := passOn_stores n channels p inPass after s
  unfold storageOk
  rwa [hmem, hwork, hacc]

theorem storageOk_forwardSample {channels : Nat} {p : LinePos} {s : State} (h : storageOk s)
    (hk : scratchIndex channels p.i p.c < Config.workWords) (hc : p.c < Config.maxChannels) (v : F32) :
    storageOk (forwardSample channels p v s) :=
  ⟨h.1, cellsWf_writeCell _ hk h.2.1, cellsWf_writeCell _ hc h.2.2⟩

theorem storageOk_backwardSample {n channels : Nat} {p : LinePos} {s : State} (h : storageOk s)
    (hk : scratchIndex channels p.i p.c < Config.workWords) (hc : p.c < Config.maxChannels) (v : F32) :
    storageOk (backwardSample n channels p v s) :=
  ⟨h.1, cellsWf_writeCell _ hk h.2.1, cellsWf_writeCell _ hc h.2.2⟩

theorem storageOk_storeWord {a : Nat} {s : State} (h : storageOk s) (ha : portAddressOk a = true) (v : Word) :
    storageOk (storeWord a v s) :=
  ⟨Memory_wf_writeWord v ((portAddressOk_iff a).1 ha).2 h.1, h.2⟩

theorem storageOk_failedWrite {a : Nat} {s : State} (h : storageOk s) (ha : portAddressOk a = true) :
    storageOk (failedWrite a s) :=
  ⟨Memory_wf_writeWord _ ((portAddressOk_iff a).1 ha).2 h.1, h.2⟩

theorem storageOk_cacheStore {y : Nat} {p : LinePos} {s : State} (h : storageOk s)
    (hk : cacheIndex s.latched p.i y p.c < Config.workWords) : storageOk (cacheStore y p s) :=
  ⟨h.1, cellsWf_writeCell _ hk h.2.1, h.2.2⟩

theorem linePassStep_storageOk {p : LinePos} {s t : State} (hs : storageOk s)
    (hp : progressOk (goTo (.lpass p) s)) (h : linePassStep p s = .next t) : storageOk t := by
  obtain ⟨_, _, _, hcheck, hi, hc⟩ := hp
  have hok := (lineOk_of_check hcheck).2
  have hk := lt_of_lt_of_le (scratchIndex_lt hi hc) hok.capacity
  have hcm := lt_of_lt_of_le hc hok.channels_le
  rcases linePassStep_next h with ⟨_, _, rfl⟩ | ⟨_, _, rfl⟩ | ⟨_, _, rfl⟩ | ⟨_, ha, rfl | rfl⟩
  · exact hs
  · exact storageOk_passOn (storageOk_forwardSample hs hk hcm _) ..
  · exact storageOk_passOn (storageOk_backwardSample hs hk hcm _) ..
  · exact storageOk_failedWrite hs ha
  · exact storageOk_passOn (storageOk_storeWord hs ha _) ..

theorem rowPassStep_storageOk {y : Nat} {p : LinePos} {s t : State} (hs : storageOk s)
    (hp : progressOk (goTo (.hpass y p) s)) (h : rowPassStep y p s = .next t) : storageOk t := by
  obtain ⟨_, _, _, hcheck, _, hy, hi, hc⟩ := hp
  have hok := blurOk_of_check hcheck
  have hcap : scratchWords s.latched + cacheWords s.latched ≤ Config.workWords := hok.capacity
  have hk := lt_of_lt_of_le (scratchIndex_lt hi hc)
    (le_trans (width_le_scratchWords s.latched) (le_trans (Nat.le_add_right _ _) hcap))
  have hcm := lt_of_lt_of_le hc hok.channels_le
  rcases rowPassStep_next h with ⟨_, _, rfl⟩ | ⟨_, _, rfl⟩ | ⟨_, _, rfl⟩ | ⟨_, rfl⟩
  · exact hs
  · exact storageOk_passOn (storageOk_forwardSample hs hk hcm _) ..
  · exact storageOk_passOn (storageOk_backwardSample hs hk hcm _) ..
  · exact storageOk_passOn (storageOk_cacheStore hs (lt_of_lt_of_le (cacheIndex_bounds hi hy hc).2 hcap)) ..

theorem columnPassStep_storageOk {x : Nat} {p : LinePos} {s t : State} (hs : storageOk s)
    (hp : progressOk (goTo (.vpass x p) s)) (h : columnPassStep x p s = .next t) : storageOk t := by
  obtain ⟨_, _, _, hcheck, _, hx, hi, hc⟩ := hp
  have hok := blurOk_of_check hcheck
  have hcap : scratchWords s.latched + cacheWords s.latched ≤ Config.workWords := hok.capacity
  have hk := lt_of_lt_of_le (scratchIndex_lt hi hc)
    (le_trans (height_le_scratchWords s.latched) (le_trans (Nat.le_add_right _ _) hcap))
  have hcm := lt_of_lt_of_le hc hok.channels_le
  rcases columnPassStep_next h with ⟨_, rfl⟩ | ⟨_, rfl⟩ | ⟨_, ha, rfl | rfl⟩
  · exact storageOk_passOn (storageOk_forwardSample hs hk hcm _) ..
  · exact storageOk_passOn (storageOk_backwardSample hs hk hcm _) ..
  · exact storageOk_failedWrite hs ha
  · exact storageOk_passOn (storageOk_storeWord hs ha _) ..

/-! ### Every move keeps the invariant -/

/-- Every move of the engine keeps the progress the running command's. -/
theorem EngineMove.keeps_progressOk {s t : State} (h : EngineMove s t) (hs : progressOk s) : progressOk t := by
  cases h with
  | idle => exact hs
  | ended => exact progressOk_complete ..
  | solveDone => exact progressOk_complete ..
  | lineStart hb hp hi hc ha =>
    have hok := (lineOk_of_check hc).2
    rw [progressOk, hp] at hs
    exact ⟨hb, hs.2, hi, hc, hok.width_pos, hok.channels_pos⟩
  | solveStart hb hp hi ha =>
    rw [progressOk, hp] at hs
    exact ⟨hb, hs.2, hi⟩
  | blurSolve hb hp hi ha =>
    rw [progressOk, hp] at hs
    obtain ⟨_, hlc, hcmd⟩ := hs
    have hc : blurCheck s = .noError := hcmd.elim (fun hsolve => by cases hsolve.symm.trans hi) And.right
    have hok := blurOk_of_check hc
    exact ⟨hb, hlc, hi, hc, rfl, hok.height_pos, hok.width_pos, hok.channels_pos⟩
  | linePass p _ _ hp _ _ ht => exact linePassStep_progressOk (goTo_self hp ▸ hs) ht
  | rowPass y p _ _ hp _ _ ht => exact rowPassStep_progressOk (goTo_self hp ▸ hs) ht
  | columnPass x p _ _ hp _ _ ht => exact columnPassStep_progressOk (goTo_self hp ▸ hs) ht

/-- Every move of the engine keeps the stores within their sizes. -/
theorem EngineMove.keeps_storageOk {s t : State} (h : EngineMove s t) (hp : progressOk s) (hs : storageOk s) :
    storageOk t := by
  cases h with
  | linePass p _ _ hpr _ _ ht => exact linePassStep_storageOk hs (goTo_self hpr ▸ hp) ht
  | rowPass y p _ _ hpr _ _ ht => exact rowPassStep_storageOk hs (goTo_self hpr ▸ hp) ht
  | columnPass x p _ _ hpr _ _ ht => exact columnPassStep_storageOk hs (goTo_self hpr ▸ hp) ht
  | _ => exact hs

/-- A move of the engine leaves an abort request pending only on an idle block, which does not move. -/
theorem EngineMove.abortReq_cases {s t : State} (h : EngineMove s t) : t = s ∨ t.abortReq = false := by
  cases h with
  | idle => exact .inl rfl
  | linePass p _ _ _ _ ha ht => exact .inr ((linePassStep_control ht).abortReq.trans ha)
  | rowPass y p _ _ _ _ ha ht => exact .inr ((rowPassStep_control ht).abortReq.trans ha)
  | columnPass x p _ _ _ _ ha ht => exact .inr ((columnPassStep_control ht).abortReq.trans ha)
  | lineStart _ _ _ _ ha => exact .inr ha
  | solveStart _ _ _ ha => exact .inr ha
  | blurSolve _ _ _ ha => exact .inr ha
  | _ => exact .inr rfl

/-- The engine leaves a command running only where it was, with ERR_ADDR as it was. -/
theorem EngineMove.of_busy {s t : State} (h : EngineMove s t) (hb : t.status.busy = true) :
    s.status.busy = true ∧ t.errAddr = s.errAddr := by
  cases h with
  | idle => exact ⟨hb, rfl⟩
  | ended => exact absurd hb Bool.false_ne_true
  | solveDone => exact absurd hb Bool.false_ne_true
  | linePass p _ hs _ _ _ ht => exact ⟨hs, (linePassStep_control ht).errAddr⟩
  | rowPass y p _ hs _ _ _ ht => exact ⟨hs, (rowPassStep_control ht).errAddr⟩
  | columnPass x p _ hs _ _ _ ht => exact ⟨hs, (columnPassStep_control ht).errAddr⟩
  | _ => exact ⟨‹_›, rfl⟩

/-- Every move of the engine keeps the invariant. -/
theorem EngineMove.keeps_inv {s t : State} (h : EngineMove s t) (hs : MachineInv s) : MachineInv t := by
  obtain ⟨hstatus, hprogress, hstorage, habort, hrun, hcoefs⟩ := hs
  refine ⟨h.keeps_statusOk hstatus, h.keeps_progressOk hprogress, h.keeps_storageOk hprogress hstorage,
    fun ha => ?_, fun hb => ?_, fun hv => ?_⟩
  · rcases h.abortReq_cases with rfl | ha'
    · exact habort ha
    · exact absurd (ha'.symm.trans ha) Bool.false_ne_true
  · obtain ⟨hsb, herr⟩ := h.of_busy hb
    obtain ⟨hcmd, hzero⟩ := hrun hsb
    exact ⟨by rw [h.keeps.cmd, h.keeps.latched, hcmd], herr.trans hzero⟩
  · rcases h.coefValid_cases with ⟨e, ec⟩ | ⟨e, _⟩
    · exact ec.trans (hcoefs (e.symm.trans hv))
    · exact absurd (hv.symm.trans e) Bool.false_ne_true

/-- The progress after a host step that starts no command. -/
theorem progressOk_of_fields {s t : State} (hs : progressOk s) (hp : t.progress = s.progress)
    (hb : t.status.busy = s.status.busy) (hv : t.status.coefValid = s.status.coefValid)
    (hl : t.latched = s.latched) (hc : t.lineCount = s.lineCount) : progressOk t := by
  unfold progressOk latchedIs fetchCommand lineCheck blurCheck at *
  rw [hp, hb, hv, hl, hc]
  exact hs

/-- Every move of the host keeps the invariant. -/
theorem HostMove.keeps_inv {h : HostStep} {s t : State} (hm : HostMove h s t) (hs : MachineInv s) :
    MachineInv t := by
  have hstatus := hm.keeps_statusOk hs.1
  obtain ⟨-, hprogress, hstorage, habort, hrun, hcoefs⟩ := hs
  cases hm with
  | write r w =>
    rcases writeReg_cases r w s with ⟨_, _, e⟩ | ⟨_, _, e⟩ | ⟨_, e⟩ | ⟨_, e⟩ | ⟨_, _, _, e⟩ <;> rw [e] at hstatus ⊢
    · exact ⟨hstatus, ⟨rfl, rfl⟩, hstorage, nofun, fun _ => ⟨(latchedWord_latch w s.params).symm, rfl⟩, hcoefs⟩
    · exact ⟨hstatus, progressOk_of_fields hprogress rfl rfl rfl rfl rfl, hstorage, habort, hrun, hcoefs⟩
    · refine ⟨hstatus, progressOk_of_fields hprogress rfl rfl rfl rfl rfl, hstorage, fun ha => ?_, hrun, hcoefs⟩
      rw [writeCtrl_eq] at ha
      simp only [Bool.or_eq_true, Bool.and_eq_true] at ha
      exact ha.elim habort And.right
    · exact ⟨hstatus, progressOk_of_fields hprogress rfl rfl rfl rfl rfl, hstorage, habort, hrun, hcoefs⟩
    · exact ⟨hstatus, progressOk_of_fields hprogress rfl rfl rfl rfl rfl, hstorage, habort, hrun, hcoefs⟩
  | store a n v ha =>
    exact ⟨hstatus, progressOk_of_fields hprogress rfl rfl rfl rfl rfl,
      ⟨Memory_wf_writeBytes v n ha hstorage.1, hstorage.2⟩, habort, hrun, hcoefs⟩
  | _ => exact ⟨hstatus, progressOk_of_fields hprogress rfl rfl rfl rfl rfl, hstorage, habort, hrun, hcoefs⟩

/-- Reset meets the invariant, whatever memory it keeps. -/
theorem machineInv_resetBlock {s : State} (h : Memory.wf s.mem = true) : MachineInv (resetBlock s) :=
  ⟨statusOk_zeroStatus, rfl, ⟨h, rfl, rfl⟩, nofun, nofun, fun _ => rfl⟩

/-- The invariant does not speak of the agenda. -/
theorem machineInv_agenda {s : State} (h : MachineInv s) (es : List Event) : MachineInv { s with agenda := es } :=
  ⟨h.1, progressOk_of_fields h.2.1 rfl rfl rfl rfl rfl, h.2.2⟩

/-- Settles O46: a reset step right after reset changes nothing. -/
theorem resetMeetsTheInvariant : Obligations.ResetMeetsTheInvariant := machineInv_resetBlock (s := State.reset) rfl

/-- Settles O45: the moves of the engine, the moves of the host, and a reset. -/
theorem stepKeepsTheInvariant : Obligations.StepKeepsTheInvariant := by
  intro s t hs h
  rcases step_moves h with ⟨_, hm⟩ | ⟨_, _, _, hm⟩ | ⟨_, _, rfl⟩
  · exact hm.keeps_inv (machineInv_agenda hs _)
  · exact hm.keeps_inv (machineInv_agenda hs _)
  · obtain ⟨-, -, ⟨hmem, -⟩, -⟩ := hs
    exact machineInv_resetBlock hmem

end Sys2Proof.Machine

namespace Sys2Proof.Machine

/-! PROOFS about the progress of a command (20_memory.md, 70_reset_and_hazards.md): that the engine cannot fault, how many
steps it has left, and that it writes its destination samples only. -/

/-! ### What an engine step answers (20_memory.md R51, R55) -/

/-- The answer is a next state, or the refusal of an access to memory with side effects. -/
def Answers (pf : List Region) (r : Result) : Prop :=
  (∃ t, r = .next t) ∨ ∃ a, r = .refused (.sideEffectMemory a) ∧ hasSideEffects pf a 4 = true

theorem answers_next (pf : List Region) (t : State) : Answers pf (.next t) := .inl ⟨t, rfl⟩

theorem Answers.ne_fault {pf : List Region} {r : Result} (h : Answers pf r) (f : Fault) : r ≠ .fault f := by
  rcases h with ⟨t, rfl⟩ | ⟨a, rfl, _⟩ <;> nofun

/-- Without side effects anywhere, the answer is a next state. -/
theorem Answers.exists_next {pf : List Region} {r : Result} (h : Answers pf r)
    (hpf : ∀ g ∈ pf, g.sideEffects = false) : ∃ t, r = .next t := by
  refine h.resolve_right ?_
  rintro ⟨a, _, hse⟩
  obtain ⟨g, hg, hside⟩ := List.any_eq_true.1 hse
  simp [hpf g hg] at hside

theorem answers_portRead {a : Nat} {s : State} (ha : portAddressOk a = true) (k : Word → State) :
    Answers s.platform (portRead a s k) := by
  rw [portRead, if_neg (by simp [ha])]
  split
  · exact answers_next ..
  · split
    next hse => exact .inr ⟨a, rfl, hse⟩
    next => exact answers_next ..

theorem answers_portWrite {a : Nat} {s : State} (ha : portAddressOk a = true) (v : Word) (k : State → State) :
    Answers s.platform (portWrite a v s k) := by
  rw [portWrite, if_neg (by simp [ha])]
  split
  · exact answers_next ..
  · split
    next hse => exact .inr ⟨a, rfl, hse⟩
    next => exact answers_next ..

theorem answers_checkStep {code : ErrCode} {s : State} {goOn : Result} {pf : List Region} (h : Answers pf goOn) :
    Answers pf (checkStep code s goOn) := by
  unfold checkStep
  split
  · split
    · exact answers_next ..
    · exact h
  · exact answers_next ..

theorem answers_abortPoint {s : State} {goOn : Result} {pf : List Region} (h : Answers pf goOn) :
    Answers pf (abortPoint s goOn) := by
  unfold abortPoint
  split
  · exact answers_next ..
  · exact h

theorem answers_linePassStep {p : LinePos} {s : State} (h : progressOk (goTo (.lpass p) s)) :
    Answers s.platform (linePassStep p s) := by
  obtain ⟨_, _, _, hcheck, hi, hc⟩ := h
  have hok : LineOk s.latched := (lineOk_of_check hcheck).2
  unfold linePassStep
  split
  · exact answers_portRead (hok.src_port hi hc) _
  · exact answers_portRead (hok.src_port hi hc) _
  · exact answers_portWrite (hok.dst_port hi hc) _ _

theorem answers_rowPassStep {y : Nat} {p : LinePos} {s : State} (h : progressOk (goTo (.hpass y p) s)) :
    Answers s.platform (rowPassStep y p s) := by
  obtain ⟨_, _, _, hcheck, _, hy, hi, hc⟩ := h
  have hok : BlurOk s.latched := blurOk_of_check hcheck
  unfold rowPassStep
  split
  · exact answers_portRead (hok.src_port hy hi hc) _
  · exact answers_portRead (hok.src_port hy hi hc) _
  · exact answers_next ..

theorem answers_columnPassStep {x : Nat} {p : LinePos} {s : State} (h : progressOk (goTo (.vpass x p) s)) :
    Answers s.platform (columnPassStep x p s) := by
  obtain ⟨_, _, _, hcheck, _, hx, hi, hc⟩ := h
  have hok : BlurOk s.latched := blurOk_of_check hcheck
  unfold columnPassStep
  split
  · exact answers_next ..
  · exact answers_next ..
  · exact answers_portWrite (hok.dst_port hi hx hc) _ _

/-- The CHECK step of every command answers. -/
theorem answers_check {s : State} (i : Instr) (hp : s.progress = .check) : Answers s.platform (exec i s) := by
  cases i with
  | nop =>
    simp only [exec, execNop, hp]
    exact answers_checkStep (answers_next ..)
  | solve =>
    simp only [exec, execSolve, hp]
    exact answers_checkStep (answers_next ..)
  | line => exact exec_line_check hp ▸ answers_checkStep (answers_next ..)
  | blur2d => exact exec_blur_check hp ▸ answers_checkStep (answers_next ..)

/-- The engine never faults where its progress is the running command's. -/
theorem answers_engineStep {s : State} (h : progressOk s) : Answers s.platform (engineStep s) := by
  cases hb : s.status.busy
  case false => exact engineStep_idle hb ▸ answers_next ..
  have hexec {i : Instr} (hi : latchedIs i s) (he : Answers s.platform (exec i s)) :
      Answers s.platform (engineStep s) := engineStep_of_latched hb hi ▸ he
  have hs := h
  unfold progressOk at hs
  split at hs
  case h_1 => exact absurd (hs.symm.trans hb) Bool.false_ne_true
  case h_2 hp =>
    rcases decode_cases (latchedWord s.latched) with ⟨i, hi⟩ | ⟨_, hd⟩
    · exact hexec ((decode_eq_ok_iff _ i).2 hi) (answers_check i hp)
    · exact engineStep_of_illegal hb hp hd ▸ answers_next ..
  case h_3 hp =>
    obtain ⟨_, _, hi | ⟨hi, _⟩⟩ := hs <;> refine hexec hi ?_
    · simp only [exec, execSolve, hp]
      exact answers_abortPoint (answers_next ..)
    · simp only [exec, execBlur2d, hp]
      exact answers_abortPoint (answers_next ..)
  case h_4 p hp =>
    refine hexec hs.2.2.1 ?_
    simp only [exec, execLine, hp]
    exact answers_abortPoint (answers_linePassStep (goTo_self hp ▸ h))
  case h_5 y p hp =>
    refine hexec hs.2.2.1 ?_
    simp only [exec, execBlur2d, hp]
    exact answers_abortPoint (answers_rowPassStep (goTo_self hp ▸ h))
  case h_6 x p hp =>
    refine hexec hs.2.2.1 ?_
    simp only [exec, execBlur2d, hp]
    exact answers_abortPoint (answers_columnPassStep (goTo_self hp ▸ h))
  case h_7 hp =>
    obtain ⟨_, _, ⟨hi, _⟩ | ⟨hi, _⟩⟩ := hs <;> refine hexec hi ?_
    · exact exec_line_finish hp ▸ answers_next ..
    · exact exec_blur_finish hp ▸ answers_next ..
  case h_8 a hp =>
    obtain ⟨_, _, hi | hi⟩ := hs <;> refine hexec hi ?_
    · exact exec_line_busError hp ▸ answers_next ..
    · exact exec_blur_busError hp ▸ answers_next ..

/-! ### How many steps are left (70_reset_and_hazards.md R126) -/

/-- The steps from place `p` to the end of its line pass, its own step counted: three for every sample. -/
def passLeft (n channels : Nat) (p : LinePos) : Nat :=
  match p.phase with
  | .forward => 3 * (n * channels) - (p.i * channels + p.c)
  | .backward => 2 * (p.i * channels) + 2 * channels - p.c
  | .deliver => 2 * (p.i * channels) + channels - p.c

theorem passLeft_passStart (n channels : Nat) : passLeft n channels passStart = 3 * (n * channels) := by
  simp [passLeft, passStart]

/-- Every step of a line pass leaves one step fewer, and the last leaves none. -/
theorem passLeft_step {n channels : Nat} {p : LinePos} (hp : linePosOk n channels p) :
    (∃ q, nextPos n channels p = some q ∧ passLeft n channels p = passLeft n channels q + 1) ∨
      (nextPos n channels p = none ∧ passLeft n channels p = 1) := by
  obtain ⟨ph, i, c⟩ := p
  obtain ⟨hi, hc⟩ : i < n ∧ c < channels := hp
  have hin : i * channels + c < n * channels := row_index_lt hi hc
  cases ph with
  | forward =>
    refine .inl ⟨_, nextPos_forward .., ?_⟩
    by_cases hc' : c + 1 < channels
    · rw [if_pos hc']
      simp only [passLeft]
      omega
    · rw [if_neg hc']
      by_cases hi' : i + 1 < n
      · rw [if_pos hi']
        simp only [passLeft, Nat.succ_mul]
        omega
      · rw [if_neg hi']
        obtain rfl : n = i + 1 := by omega
        simp only [passLeft, Nat.succ_mul, Nat.add_sub_cancel]
        omega
  | backward =>
    refine .inl ⟨_, nextPos_backward .., ?_⟩
    split <;> simp only [passLeft] <;> omega
  | deliver =>
    by_cases hc' : c + 1 < channels
    · exact .inl ⟨_, (nextPos_deliver ..).trans (if_pos hc'), by simp only [passLeft]; omega⟩
    · cases i with
      | zero =>
        refine .inr ⟨(nextPos_deliver ..).trans (by rw [if_neg hc', if_pos rfl]), ?_⟩
        simp only [passLeft]
        omega
      | succ i =>
        refine .inl ⟨_, (nextPos_deliver ..).trans (by rw [if_neg hc', if_neg (Nat.succ_ne_zero i)]), ?_⟩
        simp only [passLeft, Nat.succ_mul, Nat.add_sub_cancel]
        omega

/-- The steps to the end of the command from a progress, where nothing stops it: exact within the passes and at their
completion, a bound at CHECK and SOLVE. -/
def stepsLeft (l : Latched) (p : Progress) : Nat :=
  match p with
  | .idle => 0
  | .check => commandBound l
  | .solve => 6 * (opWidth l * opHeight l * opChannels l) + 2
  | .lpass p => passLeft (opWidth l) (opChannels l) p + 1
  | .hpass y p =>
    passLeft (opWidth l) (opChannels l) p + 3 * (opWidth l * opChannels l) * (opHeight l - 1 - y) +
      3 * (opWidth l * opHeight l * opChannels l) + 1
  | .vpass x p =>
    passLeft (opHeight l) (opChannels l) p + 3 * (opHeight l * opChannels l) * (opWidth l - 1 - x) + 1
  | .finish => 1
  | .busError _ => 1

/-- The steps of `n` passes of equal length, the first taken apart. -/
theorem steps_of_passes (a n : Nat) (hn : 0 < n) : 3 * a + 3 * a * (n - 1) = 3 * (n * a) := by
  obtain ⟨m, rfl⟩ := Nat.exists_eq_succ_of_ne_zero hn.ne'
  simp only [Nat.succ_eq_add_one, Nat.add_sub_cancel]
  ring

theorem stepsLeft_vpass_start {l : Latched} (hw : 0 < opWidth l) :
    stepsLeft l (.vpass 0 passStart) = 3 * (opWidth l * opHeight l * opChannels l) + 1 := by
  rw [stepsLeft, passLeft_passStart, Nat.sub_zero, steps_of_passes _ _ hw, mul_assoc]

theorem stepsLeft_hpass_start {l : Latched} (hh : 0 < opHeight l) :
    stepsLeft l (.hpass 0 passStart) = 6 * (opWidth l * opHeight l * opChannels l) + 1 := by
  rw [stepsLeft, passLeft_passStart, Nat.sub_zero, steps_of_passes _ _ hh]
  ring

theorem stepsLeft_lpass_start (l : Latched) :
    stepsLeft l (.lpass passStart) = 3 * (opWidth l * opChannels l) + 1 := by
  rw [stepsLeft, passLeft_passStart]

theorem stepsLeft_lineNext {p : LinePos} {s : State} (hp : linePosOk (opWidth s.latched) (opChannels s.latched) p) :
    stepsLeft s.latched (.lpass p) = stepsLeft s.latched (lineNext p s).progress + 1 := by
  rcases passLeft_step hp with ⟨q, hq, e⟩ | ⟨hq, e⟩
  · rw [lineNext, passOn_some hq, goTo_progress, stepsLeft, stepsLeft, e]
  · rw [lineNext, passOn_none hq, goTo_progress, stepsLeft, stepsLeft, e]

theorem stepsLeft_rowNext {y : Nat} {p : LinePos} {s : State} (hy : y < opHeight s.latched)
    (hw : 0 < opWidth s.latched) (hp : linePosOk (opWidth s.latched) (opChannels s.latched) p) :
    stepsLeft s.latched (.hpass y p) = stepsLeft s.latched (rowNext y p s).progress + 1 := by
  rcases passLeft_step hp with ⟨q, hq, e⟩ | ⟨hq, e⟩
  · rw [rowNext, passOn_some hq, goTo_progress, stepsLeft, stepsLeft, e]
    omega
  · rw [rowNext, passOn_none hq, goTo_progress, stepsLeft, e, afterRow]
    split
    next hlt =>
      rw [stepsLeft, passLeft_passStart, show opHeight s.latched - 1 - y = opHeight s.latched - 1 - (y + 1) + 1 by omega,
        Nat.mul_succ]
      omega
    next hge =>
      rw [stepsLeft_vpass_start hw, show opHeight s.latched - 1 - y = 0 by omega]
      omega

theorem stepsLeft_columnNext {x : Nat} {p : LinePos} {s : State} (hx : x < opWidth s.latched)
    (hp : linePosOk (opHeight s.latched) (opChannels s.latched) p) :
    stepsLeft s.latched (.vpass x p) = stepsLeft s.latched (columnNext x p s).progress + 1 := by
  rcases passLeft_step hp with ⟨q, hq, e⟩ | ⟨hq, e⟩
  · rw [columnNext, passOn_some hq, goTo_progress, stepsLeft, stepsLeft, e]
    omega
  · rw [columnNext, passOn_none hq, goTo_progress, stepsLeft, e, afterColumn]
    split
    next hlt =>
      rw [stepsLeft, passLeft_passStart, show opWidth s.latched - 1 - x = opWidth s.latched - 1 - (x + 1) + 1 by omega,
        Nat.mul_succ]
      omega
    next hge =>
      rw [stepsLeft, show opWidth s.latched - 1 - x = 0 by omega]
      omega

/-! ### Every engine step of a running command leaves fewer steps -/

/-- A place of a pass has a step of its own left. -/
theorem passLeft_pos {n channels : Nat} {p : LinePos} (hp : linePosOk n channels p) : 0 < passLeft n channels p := by
  rcases passLeft_step hp with ⟨q, _, e⟩ | ⟨_, e⟩ <;> omega

theorem SameControl.refl (s : State) : SameControl s s := by constructor <;> rfl

theorem lineNext_latched (p : LinePos) (s : State) : (lineNext p s).latched = s.latched :=
  (passOn_control (SameControl.refl s)).latched

theorem rowNext_latched (y : Nat) (p : LinePos) (s : State) : (rowNext y p s).latched = s.latched :=
  (passOn_control (SameControl.refl s)).latched

theorem columnNext_latched (x : Nat) (p : LinePos) (s : State) : (columnNext x p s).latched = s.latched :=
  (passOn_control (SameControl.refl s)).latched

theorem linePassStep_stepsLeft {p : LinePos} {s t : State} (hs : progressOk (goTo (.lpass p) s))
    (h : linePassStep p s = .next t) : stepsLeft t.latched t.progress < stepsLeft s.latched (.lpass p) := by
  obtain ⟨_, _, _, _, hin⟩ := hs
  have hfail : 1 < stepsLeft s.latched (.lpass p) := Nat.succ_lt_succ (passLeft_pos hin)
  have hnext {u : State} (hl : u.latched = s.latched) :
      stepsLeft (lineNext p u).latched (lineNext p u).progress < stepsLeft s.latched (.lpass p) := by
    rw [lineNext_latched, ← hl, stepsLeft_lineNext (hl ▸ hin)]
    exact Nat.lt_succ_self _
  rcases linePassStep_next h with ⟨_, _, rfl⟩ | ⟨_, _, rfl⟩ | ⟨_, _, rfl⟩ | ⟨_, _, rfl | rfl⟩
  · exact hfail
  · exact hnext rfl
  · exact hnext rfl
  · exact hfail
  · exact hnext rfl

theorem rowPassStep_stepsLeft {y : Nat} {p : LinePos} {s t : State} (hs : progressOk (goTo (.hpass y p) s))
    (h : rowPassStep y p s = .next t) : stepsLeft t.latched t.progress < stepsLeft s.latched (.hpass y p) := by
  obtain ⟨_, _, _, hcheck, _, hy, hin⟩ := hs
  have hok : BlurOk s.latched := blurOk_of_check hcheck
  have hfail : 1 < stepsLeft s.latched (.hpass y p) := by
    have := passLeft_pos hin
    simp only [goTo_latched] at this
    rw [stepsLeft]
    omega
  have hnext {u : State} (hl : u.latched = s.latched) :
      stepsLeft (rowNext y p u).latched (rowNext y p u).progress < stepsLeft s.latched (.hpass y p) := by
    rw [rowNext_latched, ← hl, stepsLeft_rowNext (hl ▸ hy) (hl ▸ hok.width_pos) (hl ▸ hin)]
    exact Nat.lt_succ_self _
  rcases rowPassStep_next h with ⟨_, _, rfl⟩ | ⟨_, _, rfl⟩ | ⟨_, _, rfl⟩ | ⟨_, rfl⟩
  · exact hfail
  · exact hnext rfl
  · exact hnext rfl
  · exact hnext rfl

theorem columnPassStep_stepsLeft {x : Nat} {p : LinePos} {s t : State} (hs : progressOk (goTo (.vpass x p) s))
    (h : columnPassStep x p s = .next t) : stepsLeft t.latched t.progress < stepsLeft s.latched (.vpass x p) := by
  obtain ⟨_, _, _, _, _, hx, hin⟩ := hs
  have hfail : 1 < stepsLeft s.latched (.vpass x p) := by
    have := passLeft_pos hin
    simp only [goTo_latched] at this
    rw [stepsLeft]
    omega
  have hnext {u : State} (hl : u.latched = s.latched) :
      stepsLeft (columnNext x p u).latched (columnNext x p u).progress < stepsLeft s.latched (.vpass x p) := by
    rw [columnNext_latched, ← hl, stepsLeft_columnNext (hl ▸ hx) (hl ▸ hin)]
    exact Nat.lt_succ_self _
  rcases columnPassStep_next h with ⟨_, rfl⟩ | ⟨_, rfl⟩ | ⟨_, _, rfl | rfl⟩
  · exact hnext rfl
  · exact hnext rfl
  · exact hfail
  · exact hnext rfl

/-- A step of the engine ends the running command, or leaves it running with fewer steps. -/
theorem EngineMove.ends_or_advances {s t : State} (h : EngineMove s t) (hb : s.status.busy = true)
    (hs : progressOk s) :
    (t.status.busy = false ∧ t.status.done = true) ∨
      (t.status.busy = true ∧ stepsLeft t.latched t.progress < stepsLeft s.latched s.progress) := by
  cases h with
  | idle hidle => exact absurd (hidle.symm.trans hb) Bool.false_ne_true
  | ended => exact .inl ⟨rfl, rfl⟩
  | solveDone => exact .inl ⟨rfl, rfl⟩
  | lineStart _ hp =>
    refine .inr ⟨hb, ?_⟩
    rw [goTo_latched, goTo_progress, stepsLeft_lpass_start, hp, stepsLeft, commandBound]
    omega
  | solveStart _ hp =>
    refine .inr ⟨hb, ?_⟩
    rw [goTo_latched, goTo_progress, stepsLeft, hp, stepsLeft, commandBound]
    omega
  | blurSolve _ hp hi =>
    unfold progressOk at hs
    rw [hp] at hs
    have hc : blurCheck s = .noError := hs.2.2.elim (fun hsolve => by cases hsolve.symm.trans hi) And.right
    refine .inr ⟨hb, ?_⟩
    rw [goTo_latched, goTo_progress, solveUpdate_latched, stepsLeft_hpass_start (blurOk_of_check hc).height_pos, hp,
      stepsLeft]
    omega
  | linePass p _ _ hp _ _ ht =>
    exact .inr ⟨(linePassStep_control ht).status ▸ hb, hp ▸ linePassStep_stepsLeft (goTo_self hp ▸ hs) ht⟩
  | rowPass y p _ _ hp _ _ ht =>
    exact .inr ⟨(rowPassStep_control ht).status ▸ hb, hp ▸ rowPassStep_stepsLeft (goTo_self hp ▸ hs) ht⟩
  | columnPass x p _ _ hp _ _ ht =>
    exact .inr ⟨(columnPassStep_control ht).status ▸ hb, hp ▸ columnPassStep_stepsLeft (goTo_self hp ▸ hs) ht⟩

theorem passLeft_le (n channels : Nat) {p : LinePos} (hp : linePosOk n channels p) :
    passLeft n channels p ≤ 3 * (n * channels) := by
  obtain ⟨ph, i, c⟩ := p
  obtain ⟨hi, hc⟩ : i < n ∧ c < channels := hp
  have hin : (i + 1) * channels ≤ n * channels := Nat.mul_le_mul_right _ hi
  rw [Nat.succ_mul] at hin
  cases ph <;> simp only [passLeft] <;> omega

/-- No progress of a command has more steps left than its CHECK step allows for. -/
theorem stepsLeft_le_commandBound {s : State} (hs : progressOk s) :
    stepsLeft s.latched s.progress ≤ commandBound s.latched := by
  unfold progressOk at hs
  split at hs
  case h_2 hp => rw [hp, stepsLeft]
  case h_4 p hp =>
    obtain ⟨_, _, _, _, hin⟩ := hs
    have := passLeft_le _ _ hin
    rw [hp, stepsLeft, commandBound]
    omega
  case h_5 y p hp =>
    obtain ⟨_, _, _, _, _, hy, hin⟩ := hs
    have hlt := passLeft_le _ _ hin
    have hrows : 3 * (opWidth s.latched * opChannels s.latched) * (opHeight s.latched - 1 - y) ≤
        3 * (opWidth s.latched * opChannels s.latched) * (opHeight s.latched - 1) :=
      Nat.mul_le_mul_left _ (Nat.sub_le _ _)
    have hall := steps_of_passes (opWidth s.latched * opChannels s.latched) (opHeight s.latched) (by omega)
    rw [show opHeight s.latched * (opWidth s.latched * opChannels s.latched) =
      opWidth s.latched * opHeight s.latched * opChannels s.latched by ring] at hall
    rw [hp, stepsLeft, commandBound]
    omega
  case h_6 x p hp =>
    obtain ⟨_, _, _, _, _, hx, hin⟩ := hs
    have hlt := passLeft_le _ _ hin
    have hcols : 3 * (opHeight s.latched * opChannels s.latched) * (opWidth s.latched - 1 - x) ≤
        3 * (opHeight s.latched * opChannels s.latched) * (opWidth s.latched - 1) :=
      Nat.mul_le_mul_left _ (Nat.sub_le _ _)
    have hall := steps_of_passes (opHeight s.latched * opChannels s.latched) (opWidth s.latched) (by omega)
    rw [← mul_assoc (opWidth s.latched)] at hall
    rw [hp, stepsLeft, commandBound]
    omega
  all_goals
    rename_i hp
    rw [hp, stepsLeft]
    simp only [commandBound]
    omega

/-! ### The engine alone (70_reset_and_hazards.md R126) -/

/-- With no event due and no memory with side effects a step of the machine is a move of the engine. -/
theorem exists_engine_step {s : State} (hs : progressOk s) (ha : s.agenda = [])
    (hpf : ∀ r ∈ s.platform, r.sideEffects = false) : ∃ t, step s = .next t ∧ EngineMove s t := by
  obtain ⟨t, ht⟩ := (answers_engineStep hs).exists_next hpf
  exact ⟨t, (step_nil ha).trans ht, engineStep_moves ht⟩

theorem runN_succ {s t : State} (h : step s = .next t) (n : Nat) : runN (n + 1) s = runN n t := by
  have hstep : Sys2Proof.core.step s = .next t := h
  simp only [runN, Host.Core.run, hstep]
  rfl

/-- A running command has a step left. -/
theorem stepsLeft_pos {s : State} (hs : progressOk s) (hb : s.status.busy = true) :
    0 < stepsLeft s.latched s.progress := by
  unfold progressOk at hs
  split at hs
  case h_1 => exact absurd (hs.symm.trans hb) Bool.false_ne_true
  all_goals
    rename_i hp
    rw [hp]
    exact Nat.succ_pos _

/-- The engine alone ends a running command within the steps it has left. -/
theorem exists_completion (k : Nat) :
    ∀ s : State, stepsLeft s.latched s.progress ≤ k → progressOk s → s.status.busy = true → s.agenda = [] →
      (∀ r ∈ s.platform, r.sideEffects = false) →
      ∃ n t, n ≤ k ∧ runN n s = .next t ∧ t.status.busy = false ∧ t.status.done = true := by
  induction k with
  | zero =>
    intro s hk hs hb ha hpf
    exact absurd (stepsLeft_pos hs hb) (Nat.not_lt.2 hk)
  | succ k ih =>
    intro s hk hs hb ha hpf
    obtain ⟨t, ht, hm⟩ := exists_engine_step hs ha hpf
    rcases hm.ends_or_advances hb hs with ⟨hidle, hdone⟩ | ⟨hbusy, hlt⟩
    · exact ⟨1, t, by omega, runN_succ ht 0, hidle, hdone⟩
    · obtain ⟨n, u, hn, hrun, hend⟩ := ih t (by omega) (hm.keeps_progressOk hs) hbusy (hm.keeps.agenda.trans ha)
        (hm.keeps.platform ▸ hpf)
      exact ⟨n + 1, u, by omega, (runN_succ ht n).trans hrun, hend⟩

/-! ### Bytes written by the engine (20_memory.md R58) -/

/-- A word store at an address leaves a byte that is none of its four. -/
theorem readByte_writeWord_of_not_mem {m : List Host.Cell} {a b : Nat} {v : Word}
    (h : ∀ k, k < 4 → b ≠ a + k) : readByte (writeWord m a v) b = readByte m b := by
  refine sameBytesOutside_writeWord m a v b ?_
  by_contra hin
  exact h (b - a) (by omega) (by omega)

/-- The four bytes of a destination sample of LINE are in its footprint. -/
theorem not_lineDst_of_not_isDestByte {s : State} (h : latchedIs .line s) {i c b : Nat} (hi : i < opWidth s.latched)
    (hc : c < opChannels s.latched) (hb : isDestByte s.latched b = false) :
    ∀ k, k < 4 → b ≠ lineDstAddress s.latched i c + k := by
  rintro k hk rfl
  rw [isDestByte_line h, ← Bool.not_eq_true, inSamples_line_iff] at hb
  exact hb ⟨i, c, k, hi, hc, hk, rfl⟩

/-- The four bytes of a destination sample of BLUR2D are in its footprint. -/
theorem not_blurDst_of_not_isDestByte {s : State} (h : latchedIs .blur2d s) {y x c b : Nat}
    (hy : y < opHeight s.latched) (hx : x < opWidth s.latched) (hc : c < opChannels s.latched)
    (hb : isDestByte s.latched b = false) : ∀ k, k < 4 → b ≠ blurDstAddress s.latched y x c + k := by
  rintro k hk rfl
  rw [isDestByte_blur h, ← Bool.not_eq_true, inSamples_plane_iff] at hb
  exact hb ⟨y, x, c, k, hy, hx, hc, hk, rfl⟩

/-- What a byte outside the destination reads after a move of the engine. -/
theorem EngineMove.readByte_eq {s t : State} (h : EngineMove s t) (hs : progressOk s) {b : Nat}
    (hb : isDestByte s.latched b = false) : readByte t.mem b = readByte s.mem b := by
  cases h with
  | linePass p _ _ hp hi _ ht =>
    unfold progressOk at hs
    rw [hp] at hs
    obtain ⟨_, _, _, _, hpi, hpc⟩ := hs
    have hout := not_lineDst_of_not_isDestByte hi hpi hpc hb
    rcases linePassStep_next ht with ⟨_, _, rfl⟩ | ⟨_, _, rfl⟩ | ⟨_, _, rfl⟩ | ⟨_, _, rfl | rfl⟩
    · rfl
    · rw [lineNext, (passOn_stores ..).1]
      rfl
    · rw [lineNext, (passOn_stores ..).1]
      rfl
    · exact readByte_writeWord_of_not_mem hout
    · rw [lineNext, (passOn_stores ..).1]
      exact readByte_writeWord_of_not_mem hout
  | rowPass y p _ _ _ _ _ ht =>
    rcases rowPassStep_next ht with ⟨_, _, rfl⟩ | ⟨_, _, rfl⟩ | ⟨_, _, rfl⟩ | ⟨_, rfl⟩
    · rfl
    all_goals
      rw [rowNext, (passOn_stores ..).1]
      rfl
  | columnPass x p _ _ hp hi _ ht =>
    unfold progressOk at hs
    rw [hp] at hs
    obtain ⟨_, _, _, _, _, hx, hpi, hpc⟩ := hs
    have hout := not_blurDst_of_not_isDestByte hi hpi hx hpc hb
    rcases columnPassStep_next ht with ⟨_, rfl⟩ | ⟨_, rfl⟩ | ⟨_, _, rfl | rfl⟩
    · rw [columnNext, (passOn_stores ..).1]
      rfl
    · rw [columnNext, (passOn_stores ..).1]
      rfl
    · exact readByte_writeWord_of_not_mem hout
    · rw [columnNext, (passOn_stores ..).1]
      exact readByte_writeWord_of_not_mem hout
  | _ => rfl

/-! ### The statements -/

/-- Settles O47: an engine step answers in every state of the invariant, and a reset always does. -/
theorem engineNeverFaults : Obligations.EngineNeverFaults := by
  intro s f hs hev hf
  cases ha : s.agenda with
  | nil => exact (answers_engineStep hs.2.1).ne_fault f ((step_nil ha).symm.trans hf)
  | cons e rest =>
    have hf' := (step_cons ha).symm.trans hf
    cases e with
    | engine => exact (answers_engineStep (machineInv_agenda hs rest).2.1).ne_fault f hf'
    | host h => exact hev h (by simp [nextEvent, ha])
    | reset => cases hf'

/-- Settles O48: the steps left go down with every step, and CHECK bounds them. -/
theorem everyCommandCompletes : Obligations.EveryCommandCompletes := by
  rintro s ⟨_, hs, _⟩ hb ha hpf
  exact exists_completion _ s (stepsLeft_le_commandBound hs) hs hb ha hpf

/-- Settles O55: of the moves of the engine only the writing steps change memory, and they write a destination sample. -/
theorem engineWritesOnlyDestinationSamples : Obligations.EngineWritesOnlyDestinationSamples := by
  intro s t a hs hev h hb
  rcases step_moves h with ⟨_, hm⟩ | ⟨_, _, ha, _⟩ | ⟨_, ha, _⟩
  · exact hm.readByte_eq (machineInv_agenda hs _).2.1 hb
  all_goals
    rw [nextEvent, ha] at hev
    cases hev

end Sys2Proof.Machine

namespace Sys2Proof.Machine

/-! PROOFS about the reference access order (20_memory.md R62): first the accesses that a line pass has still to make from
one of its places, then those of a command from its progress, then that no run makes others. -/

/-! ### The accesses left in a line pass -/

section PassOrder

variable (acc : LinePos → List Access) (n channels : Nat)

/-- The accesses of one loop over the channels, from channel `c` on. -/
def channelsOrder (ph : Phase) (i c : Nat) : List Access :=
  (List.range' c (channels - c)).flatMap fun c' => acc ⟨ph, i, c'⟩

/-- The accesses of the backward loop at position i: obtain again, then deliver. -/
def backwardOrder (i : Nat) : List Access :=
  channelsOrder acc channels .backward i 0 ++ channelsOrder acc channels .deliver i 0

/-- The accesses that a line pass makes from place `p` on, its own among them, when a place makes `acc` of it. -/
def passOrder (p : LinePos) : List Access :=
  match p.phase with
  | .forward =>
    channelsOrder acc channels .forward p.i p.c ++
      (List.range' (p.i + 1) (n - (p.i + 1))).flatMap (fun i => channelsOrder acc channels .forward i 0) ++
      (List.range n).reverse.flatMap (backwardOrder acc channels)
  | .backward =>
    channelsOrder acc channels .backward p.i p.c ++ channelsOrder acc channels .deliver p.i 0 ++
      (List.range p.i).reverse.flatMap (backwardOrder acc channels)
  | .deliver =>
    channelsOrder acc channels .deliver p.i p.c ++ (List.range p.i).reverse.flatMap (backwardOrder acc channels)

/-- A range taken apart at its first number. -/
theorem range'_flatMap_cons {α : Type} {a b : Nat} (h : a < b) (f : Nat → List α) :
    (List.range' a (b - a)).flatMap f = f a ++ (List.range' (a + 1) (b - (a + 1))).flatMap f := by
  rw [show b - a = (b - (a + 1)) + 1 by omega, List.range'_succ, List.flatMap_cons]

theorem range'_flatMap_nil {α : Type} {a b : Nat} (h : b ≤ a) (f : Nat → List α) :
    (List.range' a (b - a)).flatMap f = [] := by
  rw [show b - a = 0 by omega, List.range'_zero, List.flatMap_nil]

theorem channelsOrder_cons {ph : Phase} {i c : Nat} (h : c < channels) :
    channelsOrder acc channels ph i c = acc ⟨ph, i, c⟩ ++ channelsOrder acc channels ph i (c + 1) :=
  range'_flatMap_cons h _

theorem channelsOrder_nil {ph : Phase} {i c : Nat} (h : channels ≤ c) : channelsOrder acc channels ph i c = [] :=
  range'_flatMap_nil h _

/-- The numbers below i + 1 downwards: i first. -/
theorem range_reverse_flatMap_succ {α : Type} (i : Nat) (f : Nat → List α) :
    (List.range (i + 1)).reverse.flatMap f = f i ++ (List.range i).reverse.flatMap f := by
  rw [List.range_succ, List.reverse_append, List.reverse_singleton, List.singleton_append, List.flatMap_cons]

/-- A place makes its own access; the next place makes the rest. -/
theorem passOrder_step {n channels : Nat} {p : LinePos} (hp : linePosOk n channels p) :
    (∃ q, nextPos n channels p = some q ∧ passOrder acc n channels p = acc p ++ passOrder acc n channels q) ∨
      (nextPos n channels p = none ∧ passOrder acc n channels p = acc p) := by
  obtain ⟨ph, i, c⟩ := p
  obtain ⟨hi, hc⟩ : i < n ∧ c < channels := hp
  cases ph with
  | forward =>
    refine .inl ⟨_, nextPos_forward .., ?_⟩
    rw [passOrder, channelsOrder_cons acc channels (ph := .forward) (i := i) hc]
    by_cases hc' : c + 1 < channels
    · rw [if_pos hc']
      simp only [passOrder, List.append_assoc]
    · rw [if_neg hc', channelsOrder_nil acc channels (Nat.not_lt.1 hc')]
      by_cases hi' : i + 1 < n
      · rw [if_pos hi', range'_flatMap_cons hi']
        simp only [passOrder, List.append_nil, List.append_assoc]
      · rw [if_neg hi', range'_flatMap_nil (Nat.not_lt.1 hi')]
        obtain rfl : n = i + 1 := by omega
        simp only [passOrder, range_reverse_flatMap_succ, backwardOrder, Nat.add_sub_cancel, List.append_nil,
          List.append_assoc]
  | backward =>
    refine .inl ⟨_, nextPos_backward .., ?_⟩
    rw [passOrder, channelsOrder_cons acc channels (ph := .backward) (i := i) hc]
    by_cases hc' : c + 1 < channels
    · rw [if_pos hc']
      simp only [passOrder, List.append_assoc]
    · rw [if_neg hc', channelsOrder_nil acc channels (Nat.not_lt.1 hc')]
      simp only [passOrder, List.append_nil, List.append_assoc]
  | deliver =>
    rw [passOrder, channelsOrder_cons acc channels (ph := .deliver) (i := i) hc]
    by_cases hc' : c + 1 < channels
    · exact .inl ⟨_, (nextPos_deliver ..).trans (if_pos hc'), by simp only [passOrder, List.append_assoc]⟩
    · rw [channelsOrder_nil acc channels (Nat.not_lt.1 hc')]
      cases i with
      | zero =>
        refine .inr ⟨(nextPos_deliver ..).trans (by rw [if_neg hc', if_pos rfl]), ?_⟩
        simp only [List.range_zero, List.reverse_nil, List.flatMap_nil, List.append_nil]
      | succ i =>
        refine .inl ⟨_, (nextPos_deliver ..).trans (by rw [if_neg hc', if_neg (Nat.succ_ne_zero i)]), ?_⟩
        simp only [passOrder, range_reverse_flatMap_succ, backwardOrder, Nat.add_sub_cancel, List.append_nil,
          List.append_assoc]

/-- The accesses of a whole line pass. -/
theorem passOrder_passStart (hn : 0 < n) :
    passOrder acc n channels passStart =
      (List.range n).flatMap (fun i => channelsOrder acc channels .forward i 0) ++
        (List.range n).reverse.flatMap (backwardOrder acc channels) := by
  simp only [passOrder, passStart]
  rw [List.range_eq_range', ← Nat.sub_zero n, range'_flatMap_cons hn, Nat.sub_zero]

end PassOrder

/-- A loop over the channels in which every channel makes one access. -/
theorem channelsOrder_eq_map {acc : LinePos → List Access} {ph : Phase} {i : Nat} {f : Nat → Access} (channels : Nat)
    (h : ∀ c, acc ⟨ph, i, c⟩ = [f c]) : channelsOrder acc channels ph i 0 = (List.range channels).map f := by
  rw [channelsOrder, Nat.sub_zero, ← List.range_eq_range', List.map_eq_flatMap]
  simp only [h]

/-- A loop over the channels in which none makes an access. -/
theorem channelsOrder_eq_nil {acc : LinePos → List Access} {ph : Phase} {i : Nat} (channels : Nat)
    (h : ∀ c, acc ⟨ph, i, c⟩ = []) : channelsOrder acc channels ph i 0 = [] := by
  exact List.flatMap_eq_nil_iff.2 fun c _ => h c

/-! ### The accesses left of a command (20_memory.md R62) -/

/-- The access of a place of the line pass of LINE. -/
def lineAccess (l : Latched) (p : LinePos) : List Access :=
  match p.phase with
  | .forward | .backward => [.read (lineSrcAddress l p.i p.c)]
  | .deliver => [.write (lineDstAddress l p.i p.c)]

/-- The access of a place of row y of the horizontal pass. -/
def rowAccess (l : Latched) (y : Nat) (p : LinePos) : List Access :=
  match p.phase with
  | .forward | .backward => [.read (blurSrcAddress l y p.i p.c)]
  | .deliver => []

/-- The access of a place of column x of the vertical pass. -/
def columnAccess (l : Latched) (x : Nat) (p : LinePos) : List Access :=
  match p.phase with
  | .forward | .backward => []
  | .deliver => [.write (blurDstAddress l p.i x p.c)]

/-- The accesses of a whole row. -/
def rowOrder (l : Latched) (y : Nat) : List Access :=
  passOrder (rowAccess l y) (opWidth l) (opChannels l) passStart

/-- The accesses of a whole column. -/
def columnOrder (l : Latched) (x : Nat) : List Access :=
  passOrder (columnAccess l x) (opHeight l) (opChannels l) passStart

/-- The accesses that a LINE has still to make from a progress. -/
def lineOrderLeft (l : Latched) (p : Progress) : List Access :=
  match p with
  | .check => lineOrder l
  | .lpass p => passOrder (lineAccess l) (opWidth l) (opChannels l) p
  | _ => []

/-- The accesses that a BLUR2D has still to make from a progress. -/
def blurOrderLeft (l : Latched) (p : Progress) : List Access :=
  match p with
  | .check => blurOrder l
  | .solve => blurOrder l
  | .hpass y p =>
    passOrder (rowAccess l y) (opWidth l) (opChannels l) p ++
      (List.range' (y + 1) (opHeight l - (y + 1))).flatMap (rowOrder l) ++
      (List.range (opWidth l)).flatMap (columnOrder l)
  | .vpass x p =>
    passOrder (columnAccess l x) (opHeight l) (opChannels l) p ++
      (List.range' (x + 1) (opWidth l - (x + 1))).flatMap (columnOrder l)
  | _ => []

theorem lineOrderLeft_start {l : Latched} (hw : 0 < opWidth l) :
    lineOrderLeft l (.lpass passStart) = lineOrder l := by
  rw [lineOrderLeft, passOrder_passStart _ _ _ hw, lineOrder]
  congr 2
  · funext i
    exact channelsOrder_eq_map _ fun _ => rfl
  · funext i
    exact congrArg₂ _ (channelsOrder_eq_map _ fun _ => rfl) (channelsOrder_eq_map _ fun _ => rfl)

theorem rowOrder_eq {l : Latched} (hw : 0 < opWidth l) (y : Nat) :
    rowOrder l y =
      (List.range (opWidth l)).flatMap (fun x => (List.range (opChannels l)).map fun c => .read (blurSrcAddress l y x c)) ++
      (List.range (opWidth l)).reverse.flatMap
        (fun x => (List.range (opChannels l)).map fun c => .read (blurSrcAddress l y x c)) := by
  rw [rowOrder, passOrder_passStart _ _ _ hw]
  congr 2
  · funext i
    exact channelsOrder_eq_map _ fun _ => rfl
  · funext i
    rw [backwardOrder, channelsOrder_eq_nil (ph := .deliver) _ fun _ => rfl, List.append_nil]
    exact channelsOrder_eq_map _ fun _ => rfl

theorem columnOrder_eq {l : Latched} (hh : 0 < opHeight l) (x : Nat) :
    columnOrder l x = (List.range (opHeight l)).reverse.flatMap
      (fun y => (List.range (opChannels l)).map fun c => .write (blurDstAddress l y x c)) := by
  have hforward : (List.range (opHeight l)).flatMap
      (fun i => channelsOrder (columnAccess l x) (opChannels l) .forward i 0) = [] :=
    List.flatMap_eq_nil_iff.2 fun i _ => channelsOrder_eq_nil _ fun _ => rfl
  rw [columnOrder, passOrder_passStart _ _ _ hh, hforward, List.nil_append]
  congr 1
  funext i
  rw [backwardOrder, channelsOrder_eq_nil (ph := .backward) _ fun _ => rfl, List.nil_append]
  exact channelsOrder_eq_map _ fun _ => rfl

/-- The vertical pass starts with every column to come. -/
theorem blurOrderLeft_vpass_start {l : Latched} (hw : 0 < opWidth l) :
    blurOrderLeft l (.vpass 0 passStart) = (List.range (opWidth l)).flatMap (columnOrder l) := by
  rw [blurOrderLeft, List.range_eq_range', ← Nat.sub_zero (opWidth l), range'_flatMap_cons hw, Nat.sub_zero, columnOrder]

theorem blurOrderLeft_start {l : Latched} (hw : 0 < opWidth l) (hh : 0 < opHeight l) :
    blurOrderLeft l (.hpass 0 passStart) = blurOrder l := by
  have hrows : passOrder (rowAccess l 0) (opWidth l) (opChannels l) passStart ++
      (List.range' (0 + 1) (opHeight l - (0 + 1))).flatMap (rowOrder l) =
        (List.range (opHeight l)).flatMap (rowOrder l) := by
    rw [List.range_eq_range', ← Nat.sub_zero (opHeight l), range'_flatMap_cons hh, Nat.sub_zero, rowOrder]
  rw [blurOrderLeft, hrows, blurOrder, funext (rowOrder_eq hw), funext (columnOrder_eq hh)]

theorem lineOrderLeft_next {p : LinePos} {s : State} (hp : linePosOk (opWidth s.latched) (opChannels s.latched) p) :
    lineOrderLeft s.latched (.lpass p) =
      lineAccess s.latched p ++ lineOrderLeft s.latched (lineNext p s).progress := by
  rcases passOrder_step (lineAccess s.latched) hp with ⟨q, hq, e⟩ | ⟨hq, e⟩
  · rw [lineNext, passOn_some hq, goTo_progress, lineOrderLeft, lineOrderLeft, e]
  · rw [lineNext, passOn_none hq, goTo_progress, lineOrderLeft, e]
    exact (List.append_nil _).symm

theorem blurOrderLeft_rowNext {y : Nat} {p : LinePos} {s : State} (hw : 0 < opWidth s.latched)
    (hp : linePosOk (opWidth s.latched) (opChannels s.latched) p) :
    blurOrderLeft s.latched (.hpass y p) =
      rowAccess s.latched y p ++ blurOrderLeft s.latched (rowNext y p s).progress := by
  rcases passOrder_step (rowAccess s.latched y) hp with ⟨q, hq, e⟩ | ⟨hq, e⟩
  · rw [rowNext, passOn_some hq, goTo_progress, blurOrderLeft, blurOrderLeft, e]
    simp only [List.append_assoc]
  · rw [rowNext, passOn_none hq, goTo_progress, blurOrderLeft, e, afterRow]
    split
    next hlt =>
      rw [range'_flatMap_cons hlt, blurOrderLeft, rowOrder]
      simp only [List.append_assoc]
    next hge =>
      rw [range'_flatMap_nil (Nat.not_lt.1 hge), blurOrderLeft_vpass_start hw, List.append_nil]

theorem blurOrderLeft_columnNext {x : Nat} {p : LinePos} {s : State}
    (hp : linePosOk (opHeight s.latched) (opChannels s.latched) p) :
    blurOrderLeft s.latched (.vpass x p) =
      columnAccess s.latched x p ++ blurOrderLeft s.latched (columnNext x p s).progress := by
  rcases passOrder_step (columnAccess s.latched x) hp with ⟨q, hq, e⟩ | ⟨hq, e⟩
  · rw [columnNext, passOn_some hq, goTo_progress, blurOrderLeft, blurOrderLeft, e]
    simp only [List.append_assoc]
  · rw [columnNext, passOn_none hq, goTo_progress, blurOrderLeft, e, afterColumn]
    split
    next hlt => rw [range'_flatMap_cons hlt, blurOrderLeft, columnOrder]
    next hge =>
      rw [range'_flatMap_nil (Nat.not_lt.1 hge)]
      rfl

/-! ### The access of the next step is the first one left -/

theorem nextAccess_lpass {s : State} {p : LinePos} (hp : s.progress = .lpass p) (ha : s.abortReq = false) :
    (nextAccess s).toList = lineAccess s.latched p := by
  obtain ⟨ph, i, c⟩ := p
  cases ph <;> simp [nextAccess, lineAccess, hp, ha]

theorem nextAccess_hpass {s : State} {y : Nat} {p : LinePos} (hp : s.progress = .hpass y p)
    (ha : s.abortReq = false) : (nextAccess s).toList = rowAccess s.latched y p := by
  obtain ⟨ph, i, c⟩ := p
  cases ph <;> simp [nextAccess, rowAccess, hp, ha]

theorem nextAccess_vpass {s : State} {x : Nat} {p : LinePos} (hp : s.progress = .vpass x p)
    (ha : s.abortReq = false) : (nextAccess s).toList = columnAccess s.latched x p := by
  obtain ⟨ph, i, c⟩ := p
  cases ph <;> simp [nextAccess, columnAccess, hp, ha]

/-! ### No run makes another access (60_exceptions.md R109, R110) -/

/-- At step SOLVE of a BLUR2D the pre-check has passed; a progress inside a pass is a place of its line. -/
def placeOk (l : Latched) (p : Progress) : Prop :=
  match p with
  | .solve => BlurOk l
  | .lpass p => linePosOk (opWidth l) (opChannels l) p
  | .hpass _ p => 0 < opHeight l ∧ linePosOk (opWidth l) (opChannels l) p
  | .vpass _ p => linePosOk (opHeight l) (opChannels l) p
  | _ => True

theorem placeOk_lineNext {p : LinePos} {s : State} (h : placeOk s.latched (.lpass p)) :
    placeOk s.latched (lineNext p s).progress := by
  rcases passLeft_step h with ⟨q, hq, _⟩ | ⟨hq, _⟩
  · rw [lineNext, passOn_some hq]
    exact nextPos_inside h.1 h.2 hq
  · rw [lineNext, passOn_none hq]
    trivial

theorem placeOk_rowNext {y : Nat} {p : LinePos} {s : State} (h : placeOk s.latched (.hpass y p)) :
    placeOk s.latched (rowNext y p s).progress := by
  obtain ⟨hh, hi, hc⟩ := h
  rcases passLeft_step ⟨hi, hc⟩ with ⟨q, hq, _⟩ | ⟨hq, _⟩
  · rw [rowNext, passOn_some hq]
    exact ⟨hh, nextPos_inside hi hc hq⟩
  · rw [rowNext, passOn_none hq, goTo_progress, afterRow]
    split
    · exact ⟨hh, Nat.zero_lt_of_lt hi, Nat.zero_lt_of_lt hc⟩
    · exact ⟨hh, Nat.zero_lt_of_lt hc⟩

theorem placeOk_columnNext {x : Nat} {p : LinePos} {s : State} (h : placeOk s.latched (.vpass x p)) :
    placeOk s.latched (columnNext x p s).progress := by
  obtain ⟨hi, hc⟩ := h
  rcases passLeft_step ⟨hi, hc⟩ with ⟨q, hq, _⟩ | ⟨hq, _⟩
  · rw [columnNext, passOn_some hq]
    exact nextPos_inside hi hc hq
  · rw [columnNext, passOn_none hq, goTo_progress, afterColumn]
    split
    · exact ⟨Nat.zero_lt_of_lt hi, Nat.zero_lt_of_lt hc⟩
    · trivial

/-- A step from `s` to `t` makes its access, if any, and leaves no more than the order has after it. -/
def FollowsOrder (order : Latched → Progress → List Access) (s t : State) : Prop :=
  (nextAccess s).toList ++ order t.latched t.progress <+: order s.latched s.progress

/-- A step that makes no access and after which none is left. -/
theorem followsOrder_of_none {order : Latched → Progress → List Access} {s t : State} (hn : nextAccess s = none)
    (ht : order t.latched t.progress = []) : FollowsOrder order s t := by
  rw [FollowsOrder, hn, ht]
  exact List.nil_prefix

/-- A step that makes the first access left, after which none is left. -/
theorem followsOrder_of_last {order : Latched → Progress → List Access} {s t : State} {rest : List Access}
    (hs : order s.latched s.progress = (nextAccess s).toList ++ rest) (ht : order t.latched t.progress = []) :
    FollowsOrder order s t := by
  rw [FollowsOrder, hs, ht, List.append_nil]
  exact List.prefix_append _ _

/-- A step that makes the first access left. -/
theorem followsOrder_of_eq {order : Latched → Progress → List Access} {s t : State}
    (h : order s.latched s.progress = (nextAccess s).toList ++ order t.latched t.progress) :
    FollowsOrder order s t := by
  rw [FollowsOrder, h]

/-- A pending abort request is taken instead of an access (60_exceptions.md R110). -/
theorem nextAccess_abort {s : State} (ha : s.abortReq = true) : nextAccess s = none := by simp [nextAccess, ha]

theorem linePass_followsOrder {p : LinePos} {s t : State} (hp : s.progress = .lpass p) (ha : s.abortReq = false)
    (hok : placeOk s.latched (.lpass p)) (h : linePassStep p s = .next t) :
    placeOk t.latched t.progress ∧ FollowsOrder lineOrderLeft s t := by
  have hnext {u : State} (hl : u.latched = s.latched) :
      placeOk (lineNext p u).latched (lineNext p u).progress ∧ FollowsOrder lineOrderLeft s (lineNext p u) := by
    refine ⟨by rw [lineNext_latched]; exact placeOk_lineNext (hl ▸ hok), followsOrder_of_eq ?_⟩
    rw [nextAccess_lpass hp ha, lineNext_latched, hp, ← hl]
    exact lineOrderLeft_next (hl ▸ hok)
  have hlast := lineOrderLeft_next hok
  rw [← nextAccess_lpass hp ha, ← hp] at hlast
  rcases linePassStep_next h with ⟨_, _, rfl⟩ | ⟨_, _, rfl⟩ | ⟨_, _, rfl⟩ | ⟨_, _, rfl | rfl⟩
  · exact ⟨trivial, followsOrder_of_last hlast rfl⟩
  · exact hnext rfl
  · exact hnext rfl
  · exact ⟨trivial, followsOrder_of_last hlast rfl⟩
  · exact hnext rfl

theorem rowPass_followsOrder {y : Nat} {p : LinePos} {s t : State} (hp : s.progress = .hpass y p)
    (ha : s.abortReq = false) (hok : placeOk s.latched (.hpass y p)) (h : rowPassStep y p s = .next t) :
    placeOk t.latched t.progress ∧ FollowsOrder blurOrderLeft s t := by
  have hnext {u : State} (hl : u.latched = s.latched) :
      placeOk (rowNext y p u).latched (rowNext y p u).progress ∧ FollowsOrder blurOrderLeft s (rowNext y p u) := by
    obtain ⟨_, hi, hc⟩ := hl ▸ hok
    refine ⟨by rw [rowNext_latched]; exact placeOk_rowNext (hl ▸ hok), followsOrder_of_eq ?_⟩
    rw [nextAccess_hpass hp ha, rowNext_latched, hp, ← hl]
    exact blurOrderLeft_rowNext (Nat.zero_lt_of_lt hi) ⟨hi, hc⟩
  have hlast := blurOrderLeft_rowNext (y := y) (Nat.zero_lt_of_lt hok.2.1) hok.2
  rw [← nextAccess_hpass hp ha, ← hp] at hlast
  rcases rowPassStep_next h with ⟨_, _, rfl⟩ | ⟨_, _, rfl⟩ | ⟨_, _, rfl⟩ | ⟨_, rfl⟩
  · exact ⟨trivial, followsOrder_of_last hlast rfl⟩
  · exact hnext rfl
  · exact hnext rfl
  · exact hnext rfl

theorem columnPass_followsOrder {x : Nat} {p : LinePos} {s t : State} (hp : s.progress = .vpass x p)
    (ha : s.abortReq = false) (hok : placeOk s.latched (.vpass x p)) (h : columnPassStep x p s = .next t) :
    placeOk t.latched t.progress ∧ FollowsOrder blurOrderLeft s t := by
  have hnext {u : State} (hl : u.latched = s.latched) :
      placeOk (columnNext x p u).latched (columnNext x p u).progress ∧
        FollowsOrder blurOrderLeft s (columnNext x p u) := by
    refine ⟨by rw [columnNext_latched]; exact placeOk_columnNext (hl ▸ hok), followsOrder_of_eq ?_⟩
    rw [nextAccess_vpass hp ha, columnNext_latched, hp, ← hl]
    exact blurOrderLeft_columnNext (hl ▸ hok)
  have hlast := blurOrderLeft_columnNext (x := x) hok
  rw [← nextAccess_vpass hp ha, ← hp] at hlast
  rcases columnPassStep_next h with ⟨_, rfl⟩ | ⟨_, rfl⟩ | ⟨_, _, rfl | rfl⟩
  · exact hnext rfl
  · exact hnext rfl
  · exact ⟨trivial, followsOrder_of_last hlast rfl⟩
  · exact hnext rfl

/-- Every step of LINE follows its order. -/
theorem execLine_followsOrder {s t : State} (hok : placeOk s.latched s.progress) (h : exec .line s = .next t) :
    placeOk t.latched t.progress ∧ FollowsOrder lineOrderLeft s t := by
  simp only [exec, execLine] at h
  split at h
  case h_1 hp =>
    have hn : nextAccess s = none := by simp [nextAccess, hp]
    rcases checkStep_next h with ⟨_, rfl⟩ | ⟨_, _, rfl⟩ | ⟨hc, _, h'⟩
    · exact ⟨trivial, followsOrder_of_none hn rfl⟩
    · exact ⟨trivial, followsOrder_of_none hn rfl⟩
    · cases h'
      have hline := (lineOk_of_check hc).2
      refine ⟨⟨hline.width_pos, hline.channels_pos⟩, followsOrder_of_eq ?_⟩
      rw [hn, hp]
      exact (lineOrderLeft_start hline.width_pos).symm
  case h_2 p hp =>
    rcases abortPoint_next h with ⟨ha, rfl⟩ | ⟨ha, h'⟩
    · exact ⟨trivial, followsOrder_of_none (nextAccess_abort ha) rfl⟩
    · exact linePass_followsOrder hp ha (hp ▸ hok) h'
  case h_3 hp =>
    cases h
    exact ⟨trivial, followsOrder_of_none (by simp [nextAccess, hp]) rfl⟩
  case h_4 hp =>
    cases h
    exact ⟨trivial, followsOrder_of_none (by simp [nextAccess, hp]) rfl⟩
  case h_5 => cases h

/-- Every step of BLUR2D follows its order. -/
theorem execBlur2d_followsOrder {s t : State} (hok : placeOk s.latched s.progress) (h : exec .blur2d s = .next t) :
    placeOk t.latched t.progress ∧ FollowsOrder blurOrderLeft s t := by
  simp only [exec, execBlur2d] at h
  split at h
  case h_1 hp =>
    have hn : nextAccess s = none := by simp [nextAccess, hp]
    rcases checkStep_next h with ⟨_, rfl⟩ | ⟨_, _, rfl⟩ | ⟨hc, _, h'⟩
    · exact ⟨trivial, followsOrder_of_none hn rfl⟩
    · exact ⟨trivial, followsOrder_of_none hn rfl⟩
    · cases h'
      refine ⟨blurOk_of_check hc, followsOrder_of_eq ?_⟩
      rw [hn, hp]
      rfl
  case h_2 hp =>
    have hn : nextAccess s = none := by simp [nextAccess, hp]
    rcases abortPoint_next h with ⟨_, rfl⟩ | ⟨_, h'⟩
    · exact ⟨trivial, followsOrder_of_none hn rfl⟩
    · cases h'
      rw [hp] at hok
      have hblur : BlurOk s.latched := hok
      refine ⟨⟨hblur.height_pos, hblur.width_pos, hblur.channels_pos⟩, followsOrder_of_eq ?_⟩
      rw [hn, hp]
      exact (blurOrderLeft_start hblur.width_pos hblur.height_pos).symm
  case h_3 y p hp =>
    rcases abortPoint_next h with ⟨ha, rfl⟩ | ⟨ha, h'⟩
    · exact ⟨trivial, followsOrder_of_none (nextAccess_abort ha) rfl⟩
    · exact rowPass_followsOrder hp ha (hp ▸ hok) h'
  case h_4 x p hp =>
    rcases abortPoint_next h with ⟨ha, rfl⟩ | ⟨ha, h'⟩
    · exact ⟨trivial, followsOrder_of_none (nextAccess_abort ha) rfl⟩
    · exact columnPass_followsOrder hp ha (hp ▸ hok) h'
  case h_5 hp =>
    cases h
    exact ⟨trivial, followsOrder_of_none (by simp [nextAccess, hp]) rfl⟩
  case h_6 hp =>
    cases h
    exact ⟨trivial, followsOrder_of_none (by simp [nextAccess, hp]) rfl⟩
  case h_7 => cases h

/-- A run whose every step follows the order makes no other access. -/
theorem accessTrace_of_followsOrder {i : Instr} {order : Latched → Progress → List Access}
    (hstep : ∀ s t, placeOk s.latched s.progress → exec i s = .next t →
      placeOk t.latched t.progress ∧ FollowsOrder order s t) (n : Nat) :
    ∀ s, placeOk s.latched s.progress → accessTrace i n s <+: order s.latched s.progress := by
  induction n with
  | zero => exact fun _ _ => List.nil_prefix
  | succ n ih =>
    intro s hs
    cases h : exec i s with
    | next t =>
      obtain ⟨ht, horder⟩ := hstep s t hs h
      simp only [accessTrace, h]
      exact ((List.prefix_append_right_inj _).2 (ih t ht)).trans horder
    | fault r =>
      simp only [accessTrace, h]
      exact List.nil_prefix
    | refused r =>
      simp only [accessTrace, h]
      exact List.nil_prefix

/-! ### The statement -/

/-- Settles O43: every step follows the order of its command, from CHECK on. -/
theorem accessesArePrefixOfTheReferenceOrder : Obligations.AccessesArePrefixOfTheReferenceOrder := by
  intro s n hp
  have hplace : placeOk s.latched s.progress := hp ▸ trivial
  have hline := accessTrace_of_followsOrder (fun _ _ hs h => execLine_followsOrder hs h) n s hplace
  have hblur := accessTrace_of_followsOrder (fun _ _ hs h => execBlur2d_followsOrder hs h) n s hplace
  rw [hp] at hline hblur
  exact ⟨hline, hblur⟩

end Sys2Proof.Machine

namespace Sys2Proof.Machine

/-! PROOFS about whole line passes (41_line_filter.md R85, R88): what the scratch line and the accumulators hold at every
place of a pass, which results are delivered there, and how a run of steps is put together. -/

/-! ### What the stores hold inside a line pass (41_line_filter.md R88) -/

/-- Two places of rows of `m` at the same index are the same place. -/
theorem row_index_inj {i i' c c' m : Nat} (hc : c < m) (hc' : c' < m) (h : i * m + c = i' * m + c') :
    i = i' ∧ c = c' := by
  have hdiv (j : Nat) {d : Nat} (hd : d < m) : (j * m + d) / m = j := by
    rw [mul_comm, Nat.mul_add_div (Nat.zero_lt_of_lt hd), Nat.div_eq_of_lt hd, Nat.add_zero]
  have hi : i = i' := by rw [← hdiv i hc, h, hdiv i' hc']
  subst hi
  exact ⟨rfl, Nat.add_left_cancel h⟩

/-- The scratch words of two places are two words. -/
theorem scratchIndex_ne {channels i i' c c' : Nat} (hc : c < channels) (hc' : c' < channels)
    (h : i' ≠ i ∨ c' ≠ c) : scratchIndex channels i' c' ≠ scratchIndex channels i c := by
  intro he
  obtain ⟨rfl, rfl⟩ := row_index_inj hc' hc he
  simp at h

section Stores

variable (k : Coefs) (n channels : Nat) (x : Nat → Nat → F32)

/-- The stores in the forward loop before channel `c` of position `i`, where channel c' of the line is `x c'`. -/
structure ForwardUpto (i c : Nat) (work acc : List (Nat × Word)) : Prop where
  scratch : ∀ i' c', c' < channels → i' < i ∨ (i' = i ∧ c' < c) →
    readCell work (scratchIndex channels i' c') = forwardAt k (x c') i'
  done : ∀ c', c' < c → readCell acc c' = forwardAt k (x c') i
  rest : ∀ c', c ≤ c' → c' < channels → 0 < i → readCell acc c' = forwardAt k (x c') (i - 1)

/-- The stores in the backward loop before channel `c` of position `i`. -/
structure BackwardFrom (i c : Nat) (work acc : List (Nat × Word)) : Prop where
  scratch : ∀ i' c', c' < channels → i' < i ∨ (i' = i ∧ c ≤ c') →
    readCell work (scratchIndex channels i' c') = forwardAt k (x c') i'
  result : ∀ c', c' < c → readCell work (scratchIndex channels i c') = lineOut k n (x c') i
  done : ∀ c', c' < c → readCell acc c' = backwardAt k n (x c') (n - 1 - i)
  rest : ∀ c', c ≤ c' → c' < channels → i + 1 < n → readCell acc c' = backwardAt k n (x c') (n - 1 - (i + 1))

/-- The stores while the results of position `i` are delivered. -/
structure DeliverFrom (i : Nat) (work acc : List (Nat × Word)) : Prop where
  scratch : ∀ i' c', c' < channels → i' < i → readCell work (scratchIndex channels i' c') = forwardAt k (x c') i'
  result : ∀ c', c' < channels → readCell work (scratchIndex channels i c') = lineOut k n (x c') i
  done : ∀ c', c' < channels → readCell acc c' = backwardAt k n (x c') (n - 1 - i)

/-- The stores at place `p` of a line pass with the coefficients `k`. -/
def PassStores (p : LinePos) (work acc : List (Nat × Word)) : Prop :=
  match p.phase with
  | .forward => ForwardUpto k channels x p.i p.c work acc
  | .backward => BackwardFrom k n channels x p.i p.c work acc
  | .deliver => DeliverFrom k n channels x p.i work acc

variable {k n channels x}

/-- A line pass asks nothing of the stores it starts with. -/
theorem passStores_passStart (work acc : List (Nat × Word)) : PassStores k n channels x passStart work acc :=
  ⟨fun _ _ _ h => by simp [passStart] at h, nofun, fun _ _ _ h => absurd h (Nat.lt_irrefl 0)⟩

/-! The places between the loops. -/

theorem ForwardUpto.nextPosition {i : Nat} {work acc : List (Nat × Word)}
    (h : ForwardUpto k channels x i channels work acc) : ForwardUpto k channels x (i + 1) 0 work acc := by
  refine ⟨fun i' c' hc' hlt => h.scratch i' c' hc' ?_, nofun, fun c' _ hc' _ => h.done c' hc'⟩
  omega

theorem ForwardUpto.startBackward {i : Nat} {work acc : List (Nat × Word)}
    (h : ForwardUpto k channels x i channels work acc) : BackwardFrom k (i + 1) channels x i 0 work acc := by
  refine ⟨fun i' c' hc' hlt => h.scratch i' c' hc' ?_, nofun, nofun, fun _ _ _ hlt => absurd hlt (Nat.lt_irrefl _)⟩
  omega

theorem BackwardFrom.startDeliver {i : Nat} {work acc : List (Nat × Word)}
    (h : BackwardFrom k n channels x i channels work acc) : DeliverFrom k n channels x i work acc :=
  ⟨fun i' c' hc' hlt => h.scratch i' c' hc' (.inl hlt), h.result, h.done⟩

theorem DeliverFrom.nextPosition {i : Nat} {work acc : List (Nat × Word)}
    (h : DeliverFrom k n channels x (i + 1) work acc) : BackwardFrom k n channels x i 0 work acc := by
  refine ⟨fun i' c' hc' hlt => h.scratch i' c' hc' ?_, nofun, nofun, fun c' _ hc' _ => h.done c' hc'⟩
  omega

/-! The recursion steps (41_line_filter.md R85, R86). -/

/-- The forward accumulator is f[i] of R85. -/
theorem forwardAcc_eq {i c : Nat} {s : State} (hc : c < channels)
    (h : ForwardUpto s.coefs channels x i c s.work s.acc) :
    forwardAcc ⟨.forward, i, c⟩ (x c i) s = forwardAt s.coefs (x c) i := by
  cases i with
  | zero => rfl
  | succ i =>
    rw [forwardAcc, forwardPrev, if_neg (Nat.succ_ne_zero i), h.rest c le_rfl hc (Nat.succ_pos i)]
    rfl

/-- The backward accumulator is g of R85. -/
theorem backwardAcc_eq {i c : Nat} {s : State} (hi : i < n) (hc : c < channels)
    (h : BackwardFrom s.coefs n channels x i c s.work s.acc) :
    backwardAcc n ⟨.backward, i, c⟩ (x c i) s = backwardAt s.coefs n (x c) (n - 1 - i) := by
  by_cases hlast : i = n - 1
  · rw [backwardAcc, backwardPrev, if_pos hlast, hlast, Nat.sub_self]
    rfl
  · have hm : n - 1 - i = n - 1 - (i + 1) + 1 := by omega
    have hx : n - 1 - (n - 1 - (i + 1) + 1) = i := by omega
    rw [backwardAcc, backwardPrev, if_neg hlast, h.rest c le_rfl hc (by omega), hm, backwardAt, hx]

theorem ForwardUpto.sample {i c : Nat} {s : State} (hc : c < channels)
    (h : ForwardUpto s.coefs channels x i c s.work s.acc) :
    ForwardUpto s.coefs channels x i (c + 1) (forwardSample channels ⟨.forward, i, c⟩ (x c i) s).work
      (forwardSample channels ⟨.forward, i, c⟩ (x c i) s).acc := by
  rw [forwardSample_work, forwardSample_acc, forwardAcc_eq hc h]
  dsimp only
  refine ⟨fun i' c' hc' hlt => ?_, fun c' hlt => ?_, fun c' hle hc' hi => ?_⟩
  · by_cases heq : i' = i ∧ c' = c
    · obtain ⟨rfl, rfl⟩ := heq
      exact readCell_writeCell_same ..
    · rw [readCell_writeCell_other _ _ (scratchIndex_ne hc hc' (by omega))]
      exact h.scratch i' c' hc' (by omega)
  · by_cases heq : c' = c
    · subst heq
      exact readCell_writeCell_same ..
    · rw [readCell_writeCell_other _ _ heq]
      exact h.done c' (by omega)
  · rw [readCell_writeCell_other _ _ (by omega)]
    exact h.rest c' (by omega) hc' hi

theorem BackwardFrom.sample {i c : Nat} {s : State} (hi : i < n) (hc : c < channels)
    (h : BackwardFrom s.coefs n channels x i c s.work s.acc) :
    BackwardFrom s.coefs n channels x i (c + 1) (backwardSample n channels ⟨.backward, i, c⟩ (x c i) s).work
      (backwardSample n channels ⟨.backward, i, c⟩ (x c i) s).acc := by
  rw [backwardSample_work, backwardSample_acc, backwardAcc_eq hi hc h, h.scratch i c hc (.inr ⟨rfl, le_rfl⟩)]
  dsimp only
  refine ⟨fun i' c' hc' hlt => ?_, fun c' hlt => ?_, fun c' hlt => ?_, fun c' hle hc' hi => ?_⟩
  · rw [readCell_writeCell_other _ _ (scratchIndex_ne hc hc' (by omega))]
    exact h.scratch i' c' hc' (by omega)
  · by_cases heq : c' = c
    · subst heq
      exact readCell_writeCell_same ..
    · rw [readCell_writeCell_other _ _ (scratchIndex_ne hc (by omega) (.inr heq))]
      exact h.result c' (by omega)
  · by_cases heq : c' = c
    · subst heq
      exact readCell_writeCell_same ..
    · rw [readCell_writeCell_other _ _ heq]
      exact h.done c' (by omega)
  · rw [readCell_writeCell_other _ _ (by omega)]
    exact h.rest c' (by omega) hc' hi

/-- What a step makes of the stores before it goes on: the recursion on sample `v`, or nothing where it delivers. -/
def sampleStep (n channels : Nat) (p : LinePos) (v : F32) (s : State) : State :=
  match p.phase with
  | .forward => forwardSample channels p v s
  | .backward => backwardSample n channels p v s
  | .deliver => s

/-- Nothing but the stores changes. -/
theorem sampleStep_eq (n channels : Nat) (p : LinePos) (v : F32) (s : State) :
    sampleStep n channels p v s =
      { s with work := (sampleStep n channels p v s).work, acc := (sampleStep n channels p v s).acc } := by
  unfold sampleStep
  split <;> rfl

theorem sampleStep_deliver {p : LinePos} (hph : p.phase = .deliver) (n channels : Nat) (v : F32) (s : State) :
    sampleStep n channels p v s = s := by
  simp only [sampleStep, hph]

/-- A place of LPASS that reads. -/
theorem linePassStep_of_read {p : LinePos} (hph : p.phase ≠ .deliver) (s : State) :
    linePassStep p s = portRead (lineSrcAddress s.latched p.i p.c) s fun v =>
      lineNext p (sampleStep (opWidth s.latched) (opChannels s.latched) p v s) := by
  cases hp : p.phase with
  | forward => simp only [linePassStep, sampleStep, hp]
  | backward => simp only [linePassStep, sampleStep, hp]
  | deliver => exact absurd hp hph

/-- A place of HPASS that reads. -/
theorem rowPassStep_of_read {y : Nat} {p : LinePos} (hph : p.phase ≠ .deliver) (s : State) :
    rowPassStep y p s = portRead (blurSrcAddress s.latched y p.i p.c) s fun v =>
      rowNext y p (sampleStep (opWidth s.latched) (opChannels s.latched) p v s) := by
  cases hp : p.phase with
  | forward => simp only [rowPassStep, sampleStep, hp]
  | backward => simp only [rowPassStep, sampleStep, hp]
  | deliver => exact absurd hp hph

/-- A place of LPASS that reads an answering sample. -/
theorem linePassStep_read {p : LinePos} {s : State} (hph : p.phase ≠ .deliver)
    (hok : portAddressOk (lineSrcAddress s.latched p.i p.c) = true)
    (h : readAnswers s.platform (lineSrcAddress s.latched p.i p.c)) :
    linePassStep p s = .next (lineNext p (sampleStep (opWidth s.latched) (opChannels s.latched) p
      (readWord s.mem (lineSrcAddress s.latched p.i p.c)) s)) := by
  rw [linePassStep_of_read hph]
  exact portRead_answers _ hok h

/-- A place of HPASS that reads an answering sample. -/
theorem rowPassStep_read {y : Nat} {p : LinePos} {s : State} (hph : p.phase ≠ .deliver)
    (hok : portAddressOk (blurSrcAddress s.latched y p.i p.c) = true)
    (h : readAnswers s.platform (blurSrcAddress s.latched y p.i p.c)) :
    rowPassStep y p s = .next (rowNext y p (sampleStep (opWidth s.latched) (opChannels s.latched) p
      (readWord s.mem (blurSrcAddress s.latched y p.i p.c)) s)) := by
  rw [rowPassStep_of_read hph]
  exact portRead_answers _ hok h

/-- A place of VPASS that reads the transpose cache. -/
theorem columnPassStep_read {x : Nat} {p : LinePos} {s : State} (hph : p.phase ≠ .deliver) :
    columnPassStep x p s = .next (columnNext x p (sampleStep (opHeight s.latched) (opChannels s.latched) p
      (cacheLoad x p s) s)) := by
  cases hp : p.phase with
  | forward => simpa only [sampleStep, hp] using columnPassStep_forward hp
  | backward => simpa only [sampleStep, hp] using columnPassStep_backward hp
  | deliver => exact absurd hp hph

/-- A step on the line's own sample takes the stores to the next place. -/
theorem PassStores.step {p q : LinePos} {s : State} (hp : linePosOk n channels p)
    (h : PassStores s.coefs n channels x p s.work s.acc) (hq : nextPos n channels p = some q) :
    PassStores s.coefs n channels x q (sampleStep n channels p (x p.c p.i) s).work
      (sampleStep n channels p (x p.c p.i) s).acc := by
  obtain ⟨ph, i, c⟩ := p
  obtain ⟨hi, hc⟩ : i < n ∧ c < channels := hp
  cases ph with
  | forward =>
    rw [nextPos_forward, Option.some_inj] at hq
    have hs := ForwardUpto.sample hc h
    subst hq
    by_cases hc' : c + 1 < channels
    · rw [if_pos hc']
      exact hs
    · obtain rfl : channels = c + 1 := by omega
      rw [if_neg hc']
      by_cases hi' : i + 1 < n
      · rw [if_pos hi']
        exact hs.nextPosition
      · obtain rfl : n = i + 1 := by omega
        rw [if_neg hi']
        exact hs.startBackward
  | backward =>
    rw [nextPos_backward, Option.some_inj] at hq
    have hs := BackwardFrom.sample hi hc h
    subst hq
    by_cases hc' : c + 1 < channels
    · rw [if_pos hc']
      exact hs
    · obtain rfl : channels = c + 1 := by omega
      rw [if_neg hc']
      exact hs.startDeliver
  | deliver =>
    have hs : DeliverFrom s.coefs n channels x i s.work s.acc := h
    rw [nextPos_deliver] at hq
    by_cases hc' : c + 1 < channels
    · rw [if_pos hc', Option.some_inj] at hq
      subst hq
      exact hs
    · rw [if_neg hc'] at hq
      cases i with
      | zero => cases hq
      | succ i =>
        rw [if_neg (Nat.succ_ne_zero i), Option.some_inj] at hq
        subst hq
        exact hs.nextPosition

/-- A deliver step hands on y[i] of R85. -/
theorem PassStores.passResult_eq {p : LinePos} {s : State} (hp : linePosOk n channels p) (hph : p.phase = .deliver)
    (h : PassStores k n channels x p s.work s.acc) : passResult channels p s = lineOut k n (x p.c) p.i := by
  obtain ⟨ph, i, c⟩ := p
  subst hph
  exact DeliverFrom.result h c hp.2

/-- Words outside the scratch line do not matter. -/
theorem PassStores.congr_work {p : LinePos} {work work' acc : List (Nat × Word)} (hp : linePosOk n channels p)
    (h : PassStores k n channels x p work acc)
    (hw : ∀ j, j < n * channels → readCell work' j = readCell work j) : PassStores k n channels x p work' acc := by
  obtain ⟨ph, i, c⟩ := p
  obtain ⟨hi, hc⟩ : i < n ∧ c < channels := hp
  have hsame {i' c' : Nat} (hi' : i' < n) (hc' : c' < channels) :
      readCell work' (scratchIndex channels i' c') = readCell work (scratchIndex channels i' c') :=
    hw _ (scratchIndex_lt hi' hc')
  cases ph with
  | forward =>
    obtain ⟨hscratch, hdone, hrest⟩ := h
    exact ⟨fun i' c' hc' hlt => (hsame (by simp only at hlt; omega) hc').trans (hscratch i' c' hc' hlt), hdone, hrest⟩
  | backward =>
    obtain ⟨hscratch, hresult, hdone, hrest⟩ := h
    exact ⟨fun i' c' hc' hlt => (hsame (by simp only at hlt; omega) hc').trans (hscratch i' c' hc' hlt),
      fun c' hlt => (hsame hi (lt_trans hlt hc)).trans (hresult c' hlt), hdone, hrest⟩
  | deliver =>
    obtain ⟨hscratch, hresult, hdone⟩ := h
    exact ⟨fun i' c' hc' hlt => (hsame (lt_trans hlt hi) hc').trans (hscratch i' c' hc' hlt),
      fun c' hc' => (hsame hi hc').trans (hresult c' hc'), hdone⟩

end Stores

/-! ### Which results are delivered at a place -/

/-- Result (i, c) has been delivered before place `p`. -/
def delivered (p : LinePos) (i c : Nat) : Prop :=
  match p.phase with
  | .forward => False
  | .backward => p.i < i
  | .deliver => p.i < i ∨ (i = p.i ∧ c < p.c)

/-- The result that a deliver step at `p` hands on. -/
def deliversNow (p : LinePos) (i c : Nat) : Prop := p.phase = .deliver ∧ i = p.i ∧ c = p.c

theorem not_delivered_passStart (i c : Nat) : ¬ delivered passStart i c := id

/-- The next place has one more result delivered, where this one delivers. -/
theorem delivered_next {n channels : Nat} {p q : LinePos} (hq : nextPos n channels p = some q)
    {i c : Nat} (hi : i < n) (hc : c < channels) : delivered q i c ↔ delivered p i c ∨ deliversNow p i c := by
  obtain ⟨ph, i0, c0⟩ := p
  cases ph with
  | forward =>
    rw [nextPos_forward, Option.some_inj] at hq
    subst hq
    by_cases hc' : c0 + 1 < channels
    · simp [hc', delivered, deliversNow]
    · by_cases hi' : i0 + 1 < n
      · simp [hc', hi', delivered, deliversNow]
      · simp [hc', hi', delivered, deliversNow]
        omega
  | backward =>
    rw [nextPos_backward, Option.some_inj] at hq
    subst hq
    by_cases hc' : c0 + 1 < channels <;> simp [hc', delivered, deliversNow]
  | deliver =>
    rw [nextPos_deliver] at hq
    by_cases hc' : c0 + 1 < channels
    · rw [if_pos hc', Option.some_inj] at hq
      subst hq
      simp only [delivered, deliversNow, true_and]
      omega
    · rw [if_neg hc'] at hq
      cases i0 with
      | zero => cases hq
      | succ i0 =>
        rw [if_neg (Nat.succ_ne_zero i0), Option.some_inj] at hq
        subst hq
        simp only [delivered, deliversNow, true_and, Nat.add_sub_cancel]
        omega

/-- After the last place every result is delivered. -/
theorem delivered_last {n channels : Nat} {p : LinePos} (hq : nextPos n channels p = none) {i c : Nat}
    (hc : c < channels) : delivered p i c ∨ deliversNow p i c := by
  obtain ⟨ph, i0, c0⟩ := p
  obtain ⟨rfl, hlast, rfl⟩ := (nextPos_eq_none_iff n channels ⟨ph, i0, c0⟩).1 hq
  simp only at hlast
  simp only [delivered, deliversNow, true_and]
  omega

/-! ### Memory with some words written (20_memory.md R49) -/

/-- `m` is `m0` with the words at `addr j` written with `val j`, for the `j` of `D`. -/
structure Written {ι : Type} (addr : ι → Nat) (val : ι → Word) (D : ι → Prop) (m0 m : List Host.Cell) : Prop where
  value : ∀ j, D j → readWord m (addr j) = val j
  frame : ∀ b, (∀ j, D j → b < addr j ∨ addr j + 4 ≤ b) → readByte m b = readByte m0 b

section Written

variable {ι : Type} {addr : ι → Nat} {val : ι → Word} {D D' : ι → Prop} {m0 m : List Host.Cell}

theorem written_none (h : ∀ j, ¬ D j) : Written addr val D m m :=
  ⟨fun j hj => absurd hj (h j), fun _ _ => rfl⟩

theorem Written.congr (h : Written addr val D m0 m) (hD : ∀ j, D' j ↔ D j) : Written addr val D' m0 m :=
  ⟨fun j hj => h.value j ((hD j).1 hj), fun b hb => h.frame b fun j hj => hb j ((hD j).2 hj)⟩

/-- One more word, apart from those written. -/
theorem Written.store (h : Written addr val D m0 m) (j : ι)
    (hapart : ∀ j', D j' → addr j' + 4 ≤ addr j ∨ addr j + 4 ≤ addr j') :
    Written addr val (fun j' => D j' ∨ j' = j) m0 (writeWord m (addr j) (val j)) := by
  refine ⟨fun j' hj' => ?_, fun b hb => ?_⟩
  · rcases hj' with hj' | rfl
    · rw [readWord_writeWord_other m _ (hapart j' hj')]
      exact h.value j' hj'
    · exact readWord_writeWord_same ..
  · rw [sameBytesOutside_writeWord m _ _ b (hb j (.inr rfl))]
    exact h.frame b fun j' hj' => hb j' (.inl hj')

/-- A word apart from those written reads as before. -/
theorem Written.readWord_of_apart (h : Written addr val D m0 m) {a : Nat}
    (hapart : ∀ j, D j → a + 4 ≤ addr j ∨ addr j + 4 ≤ a) : readWord m a = readWord m0 a := by
  have hbyte {d : Nat} (hd : d < 4) : readByte m (a + d) = readByte m0 (a + d) :=
    h.frame _ fun j hj => by
      have := hapart j hj
      omega
  rw [readWord, readWord, show readByte m a = readByte m0 a from hbyte (d := 0) (by decide),
    hbyte (d := 1) (by decide), hbyte (d := 2) (by decide), hbyte (d := 3) (by decide)]

end Written

/-- Samples of one run at two sample offsets are two words. -/
theorem sampleAddress_apart {base k k' : Nat} (h : k ≠ k') :
    sampleAddress base k + 4 ≤ sampleAddress base k' ∨ sampleAddress base k' + 4 ≤ sampleAddress base k := by
  simp only [sampleAddress]
  omega

/-- Two places of rows at least `m` apart are two offsets. -/
theorem row_offset_ne {i i' c c' m step : Nat} (hstep : m ≤ step) (hc : c < m) (hc' : c' < m)
    (h : i ≠ i' ∨ c ≠ c') : i * step + c ≠ i' * step + c' := by
  intro he
  obtain ⟨rfl, rfl⟩ := row_index_inj (lt_of_lt_of_le hc hstep) (lt_of_lt_of_le hc' hstep) he
  simp at h

/-! ### A run that nothing stops -/

theorem execN_succ {i : Instr} {s t : State} (h : exec i s = .next t) (n : Nat) :
    execN i (n + 1) s = execN i n t := by
  simp only [execN, h]

theorem accessTrace_succ {i : Instr} {s t : State} (h : exec i s = .next t) (n : Nat) :
    accessTrace i (n + 1) s = (nextAccess s).toList ++ accessTrace i n t := by
  simp only [accessTrace, h]

/-- If every step of command `i` keeps `Inv`, makes the first access left and leaves one step fewer, then the run of the
steps left is the whole of it. -/
theorem execN_of_steps {i : Instr} {Inv : State → Prop} {order : Latched → Progress → List Access}
    (hidle : ∀ l, order l .idle = [])
    (hstep : ∀ s, Inv s → s.progress ≠ .idle → ∃ t, exec i s = .next t ∧ Inv t ∧
      stepsLeft s.latched s.progress = stepsLeft t.latched t.progress + 1 ∧
      order s.latched s.progress = (nextAccess s).toList ++ order t.latched t.progress) (n : Nat) :
    ∀ s, Inv s → stepsLeft s.latched s.progress = n →
      ∃ t, execN i n s = .next t ∧ Inv t ∧ t.progress = .idle ∧
        accessTrace i n s = order s.latched s.progress := by
  induction n with
  | zero =>
    intro s hs hn
    have hp : s.progress = .idle := by
      by_contra hp
      obtain ⟨t, _, _, hleft, _⟩ := hstep s hs hp
      omega
    exact ⟨s, rfl, hs, hp, by rw [hp, hidle]; rfl⟩
  | succ n ih =>
    intro s hs hn
    have hp : s.progress ≠ .idle := by
      intro hp
      rw [hp] at hn
      cases hn
    obtain ⟨t, he, ht, hleft, horder⟩ := hstep s hs hp
    obtain ⟨u, hrun, hu, hend, htrace⟩ := ih t ht (by omega)
    exact ⟨u, (execN_succ he n).trans hrun, hu, hend, by rw [accessTrace_succ he, htrace, horder]⟩

end Sys2Proof.Machine

namespace Sys2Proof.Machine

/-! PROOFS about a whole LINE (41_line_filter.md R89, 20_memory.md R62): the state at every place of a run that nothing
stops, then the statements. -/

/-! ### Samples of a LINE apart from each other (20_memory.md R59) -/

theorem LineOk.dst_apart {l : Latched} (h : LineOk l) {i c i' c' : Nat} (hc : c < opChannels l)
    (hc' : c' < opChannels l) (hne : i ≠ i' ∨ c ≠ c') :
    lineDstAddress l i c + 4 ≤ lineDstAddress l i' c' ∨ lineDstAddress l i' c' + 4 ≤ lineDstAddress l i c :=
  sampleAddress_apart (row_offset_ne h.dstStep_ge hc hc' hne)

/-- A source sample is apart from every destination sample of another place: the lines are the same, or disjoint. -/
theorem LineOk.src_dst_apart {l : Latched} (h : LineOk l) {i c i' c' : Nat} (hi : i < opWidth l)
    (hc : c < opChannels l) (hi' : i' < opWidth l) (hc' : c' < opChannels l) (hne : i ≠ i' ∨ c ≠ c') :
    lineSrcAddress l i c + 4 ≤ lineDstAddress l i' c' ∨ lineDstAddress l i' c' + 4 ≤ lineSrcAddress l i c := by
  by_cases hmeet : opSrc l < lineDstEnd l ∧ opDst l < lineSrcEnd l
  · obtain ⟨hbase, hstep⟩ := h.apart_or_same hmeet
    rw [lineSrcAddress, lineDstAddress, hbase, hstep]
    exact sampleAddress_apart (row_offset_ne h.dstStep_ge hc hc' hne)
  · have hs := row_offset_lt (step := opSrcStep l) hi hc
    have hd := row_offset_lt (step := opDstStep l) hi' hc'
    simp only [lineSrcEnd, lineDstEnd, lineEnd] at hmeet
    simp only [lineSrcAddress, lineDstAddress, sampleAddress]
    omega

/-! ### The state at every place of the run -/

section Run

variable (s0 : State)

/-- The value that destination sample j = (i, c) takes: y[i][c] of R85 for the source as it was at the start. -/
def lineValue (j : Nat × Nat) : Word :=
  lineOut s0.coefs (opWidth s0.latched) (lineInput s0.latched s0.mem j.2) j.1

/-- Memory after the results `D` of the line have been written. -/
def LineMemory (D : Nat → Nat → Prop) (m : List Host.Cell) : Prop :=
  Written (fun j : Nat × Nat => lineDstAddress s0.latched j.1 j.2) (lineValue s0)
    (fun j => j.1 < opWidth s0.latched ∧ j.2 < opChannels s0.latched ∧ D j.1 j.2) s0.mem m

/-- Everything but the stores and the progress is as it was at the start. -/
def lineFrame (s : State) (p : Progress) : State :=
  { s0 with work := s.work, acc := s.acc, mem := s.mem, progress := p }

/-- The state of the run of a LINE that started in `s0`, at each of its progresses. -/
def LineRun (s : State) : Prop :=
  match s.progress with
  | .lpass p =>
    s = lineFrame s0 s (.lpass p) ∧ linePosOk (opWidth s0.latched) (opChannels s0.latched) p ∧
      PassStores s0.coefs (opWidth s0.latched) (opChannels s0.latched) (lineInput s0.latched s0.mem) p s.work s.acc ∧
      LineMemory s0 (delivered p) s.mem
  | .finish => s = countLine (lineFrame s0 s .finish) ∧ LineMemory s0 (fun _ _ => True) s.mem
  | .idle => s = endedClean (countLine (lineFrame s0 s .finish)) ∧ LineMemory s0 (fun _ _ => True) s.mem
  | _ => False

variable {s0}

/-- The line pass starts with nothing written. -/
theorem lineRun_start (hok : LineOk s0.latched) : LineRun s0 (goTo (.lpass passStart) s0) :=
  ⟨rfl, ⟨hok.width_pos, hok.channels_pos⟩, passStores_passStart .., written_none fun _ hj => hj.2.2⟩

/-- A change of the stores and of memory keeps the frame. -/
theorem lineFrame_stores {s : State} {p : Progress} (h : s = lineFrame s0 s p) (work acc : List (Nat × Word))
    (m : List Host.Cell) :
    { s with work := work, acc := acc, mem := m } =
      lineFrame s0 { s with work := work, acc := acc, mem := m } p := by
  rw [h]
  rfl

/-- Going on from place `p`, the stores and memory being those after its step. -/
theorem lineRun_next {p : LinePos} {u : State} (hu : u = lineFrame s0 u (.lpass p))
    (hp : linePosOk (opWidth s0.latched) (opChannels s0.latched) p)
    (hstores : ∀ q, nextPos (opWidth s0.latched) (opChannels s0.latched) p = some q →
      PassStores s0.coefs (opWidth s0.latched) (opChannels s0.latched) (lineInput s0.latched s0.mem) q u.work u.acc)
    (hmem : LineMemory s0 (fun i c => delivered p i c ∨ deliversNow p i c) u.mem) : LineRun s0 (lineNext p u) := by
  have hl : u.latched = s0.latched := by rw [hu]; rfl
  rw [lineNext, hl]
  cases hq : nextPos (opWidth s0.latched) (opChannels s0.latched) p with
  | some q =>
    rw [passOn_some hq]
    refine ⟨?_, nextPos_inside hp.1 hp.2 hq, hstores q hq, hmem.congr fun j => ?_⟩
    · rw [hu]
      rfl
    · exact and_congr_right fun hi => and_congr_right fun hc => delivered_next hq hi hc
  | none =>
    rw [passOn_none hq]
    refine ⟨?_, hmem.congr fun _ => ?_⟩
    · rw [hu]
      rfl
    · exact and_congr_right fun _ => and_congr_right fun hc => iff_of_true trivial (delivered_last hq hc)

/-- The source sample of a place that reads is as it was at the start. -/
theorem lineRun_source {p : LinePos} {m : List Host.Cell} (hok : LineOk s0.latched)
    (hp : linePosOk (opWidth s0.latched) (opChannels s0.latched) p) (hph : p.phase ≠ .deliver)
    (hm : LineMemory s0 (delivered p) m) :
    readWord m (lineSrcAddress s0.latched p.i p.c) = lineInput s0.latched s0.mem p.c p.i := by
  refine hm.readWord_of_apart ?_
  rintro ⟨i, c⟩ ⟨hi, hc, hd⟩
  refine hok.src_dst_apart hp.1 hp.2 hi hc (.inl ?_)
  obtain ⟨ph, i0, c0⟩ := p
  cases ph with
  | forward => exact absurd hd id
  | backward => exact Nat.ne_of_lt hd
  | deliver => exact absurd rfl hph

/-- A place that reads writes nothing to memory. -/
theorem lineMemory_read {p : LinePos} {m : List Host.Cell} (hph : p.phase ≠ .deliver)
    (hm : LineMemory s0 (delivered p) m) : LineMemory s0 (fun i c => delivered p i c ∨ deliversNow p i c) m :=
  hm.congr fun _ => and_congr_right fun _ => and_congr_right fun _ => or_iff_left fun h => hph h.1

/-- A place that delivers writes its result. -/
theorem lineMemory_deliver {p : LinePos} {m : List Host.Cell} (hok : LineOk s0.latched)
    (hp : linePosOk (opWidth s0.latched) (opChannels s0.latched) p) (hph : p.phase = .deliver)
    (hm : LineMemory s0 (delivered p) m) :
    LineMemory s0 (fun i c => delivered p i c ∨ deliversNow p i c)
      (writeWord m (lineDstAddress s0.latched p.i p.c) (lineValue s0 (p.i, p.c))) := by
  have hfresh : ¬ delivered p p.i p.c := by
    simp only [delivered, hph]
    omega
  refine (hm.store (p.i, p.c) ?_).congr fun j => ?_
  · rintro ⟨i, c⟩ ⟨hi, hc, hd⟩
    refine hok.dst_apart hc hp.2 ?_
    by_contra hne
    simp only [not_or, not_not] at hne
    obtain ⟨rfl, rfl⟩ := hne
    exact hfresh hd
  · obtain ⟨i, c⟩ := j
    obtain ⟨hi, hc⟩ := hp
    simp only [deliversNow, hph, true_and, Prod.mk.injEq]
    constructor
    · rintro ⟨hi', hc', hd | he⟩
      · exact .inl ⟨hi', hc', hd⟩
      · exact .inr he
    · rintro (⟨hi', hc', hd⟩ | ⟨rfl, rfl⟩)
      · exact ⟨hi', hc', .inl hd⟩
      · exact ⟨hi, hc, .inr ⟨rfl, rfl⟩⟩

/-- A step of the line pass goes on in the run. -/
theorem lineRun_passStep {p : LinePos} {s : State} (hok : LineOk s0.latched)
    (hans : lineAnswers s0.platform s0.latched) (hp : s.progress = .lpass p) (hs : LineRun s0 s) :
    ∃ u, u.latched = s0.latched ∧ linePassStep p s = .next (lineNext p u) ∧ LineRun s0 (lineNext p u) := by
  unfold LineRun at hs
  rw [hp] at hs
  obtain ⟨hframe, hin, hstores, hmem⟩ := hs
  have hl : s.latched = s0.latched := by rw [hframe]; rfl
  have hk : s.coefs = s0.coefs := by rw [hframe]; rfl
  have hpf : s.platform = s0.platform := by rw [hframe]; rfl
  obtain ⟨hread, hwrite⟩ := hans p.i p.c hin.1 hin.2
  have hsrc := hok.src_port hin.1 hin.2
  rw [← hpf, ← hl] at hread hwrite
  rw [← hl] at hsrc
  have hstep {q : LinePos} (hq : nextPos (opWidth s0.latched) (opChannels s0.latched) p = some q) :=
    (hk ▸ hstores).step hin hq
  rw [hk] at hstep
  by_cases hph : p.phase = .deliver
  · refine ⟨storeWord (lineDstAddress s.latched p.i p.c) (passResult (opChannels s.latched) p s) s, hl,
      linePassStep_deliver hph (hl ▸ hok.dst_port hin.1 hin.2) hwrite, lineRun_next ?_ hin (fun q hq => ?_) ?_⟩
    · exact lineFrame_stores hframe s.work s.acc _
    · rw [sampleStep_deliver hph] at hstep
      exact hstep hq
    · have hval : passResult (opChannels s.latched) p s = lineValue s0 (p.i, p.c) := by
        rw [hl]
        exact hstores.passResult_eq hin hph
      rw [storeWord_mem, hval, hl]
      exact lineMemory_deliver hok hin hph hmem
  · have hv := lineRun_source hok hin hph hmem
    have hu := sampleStep_eq (opWidth s0.latched) (opChannels s0.latched) p
      (lineInput s0.latched s0.mem p.c p.i) s
    have hread' := linePassStep_read hph hsrc hread
    rw [hl, hv] at hread'
    refine ⟨_, ?_, hread', lineRun_next ?_ hin (fun q => hstep) ?_⟩
    · rw [hu]
      exact hl
    · rw [hu]
      exact lineFrame_stores hframe _ _ s.mem
    · rw [hu]
      exact lineMemory_read hph hmem

/-- Every step of the run but the last leaves the run, with its first access made and one step fewer. -/
theorem lineRun_step (hok : LineOk s0.latched) (hans : lineAnswers s0.platform s0.latched)
    (hab : s0.abortReq = false) (s : State) (hs : LineRun s0 s) (hidle : s.progress ≠ .idle) :
    ∃ t, exec .line s = .next t ∧ LineRun s0 t ∧
      stepsLeft s.latched s.progress = stepsLeft t.latched t.progress + 1 ∧
      lineOrderLeft s.latched s.progress = (nextAccess s).toList ++ lineOrderLeft t.latched t.progress := by
  have hrun := hs
  unfold LineRun at hs
  split at hs
  case h_1 p hp =>
    obtain ⟨hframe, hin, _⟩ := hs
    have hl : s.latched = s0.latched := by rw [hframe]; rfl
    have ha : s.abortReq = false := by rw [hframe]; exact hab
    obtain ⟨u, hul, hstep, hnext⟩ := lineRun_passStep hok hans hp hrun
    refine ⟨lineNext p u, (exec_line_lpass hp ha).trans hstep, hnext, ?_, ?_⟩
    · rw [hp, hl, lineNext_latched, ← hul]
      exact stepsLeft_lineNext (hul ▸ hin)
    · rw [nextAccess_lpass hp ha, hp, hl, lineNext_latched, ← hul]
      exact lineOrderLeft_next (hul ▸ hin)
  case h_2 hp =>
    obtain ⟨hframe, hmem⟩ := hs
    refine ⟨endedClean s, exec_line_finish hp, ⟨congrArg endedClean hframe, hmem⟩, ?_, ?_⟩
    · rw [hp]
      rfl
    · rw [hp]
      simp [nextAccess, hp, lineOrderLeft, endedClean]
  case h_3 hp => exact absurd hp hidle
  case h_4 => exact hs.elim

/-- The whole run of a LINE: its end, and its accesses. -/
theorem exists_lineRun (hp : s0.progress = .check) (hab : s0.abortReq = false) (hcheck : lineCheck s0 = .noError)
    (hans : lineAnswers s0.platform s0.latched) :
    ∃ t, execN .line (lineSteps s0.latched) s0 = .next t ∧ LineRun s0 t ∧ t.progress = .idle ∧
      accessTrace .line (lineSteps s0.latched) s0 = lineOrder s0.latched := by
  have hok := (lineOk_of_check hcheck).2
  have hstart : exec .line s0 = .next (goTo (.lpass passStart) s0) := by
    rw [exec_line_check hp, hcheck, checkStep_noError, if_neg (by simp [hab])]
  obtain ⟨t, hrun, ht, hend, htrace⟩ := execN_of_steps (i := .line) (order := lineOrderLeft) (fun _ => rfl)
    (lineRun_step hok hans hab) _ _ (lineRun_start hok) (stepsLeft_lpass_start s0.latched)
  have hn : nextAccess s0 = none := by simp [nextAccess, hp]
  refine ⟨t, (execN_succ hstart _).trans hrun, ht, hend, ?_⟩
  rw [lineSteps, accessTrace_succ hstart, htrace, hn]
  exact lineOrderLeft_start hok.width_pos

end Run

/-! ### How many accesses the order has (70_reset_and_hazards.md R127) -/

/-- A loop of n positions with the same count at each. -/
theorem countP_flatMap_const {α β : Type} (P : β → Bool) (f : α → List β) (l : List α) (m : Nat)
    (h : ∀ a ∈ l, (f a).countP P = m) : (l.flatMap f).countP P = l.length * m := by
  induction l with
  | nil => simp
  | cons a l ih =>
    rw [List.flatMap_cons, List.countP_append, h a (List.mem_cons_self ..),
      ih fun b hb => h b (List.mem_cons_of_mem _ hb), List.length_cons, Nat.succ_mul, Nat.add_comm]

/-- A loop over the channels that reads, or writes, once for each. -/
theorem countP_map_const {α β : Type} (P : β → Bool) (f : α → β) (l : List α) (b : Bool) (h : ∀ a, P (f a) = b) :
    (l.map f).countP P = if b then l.length else 0 := by
  rw [List.countP_map, show P ∘ f = fun _ => b from funext h]
  cases b <;> simp

theorem lineOrder_countP (l : Latched) (P : Access → Bool) (r w : Bool) (hr : ∀ a, P (.read a) = r)
    (hw : ∀ a, P (.write a) = w) :
    (lineOrder l).countP P = opWidth l * (if r then opChannels l else 0) +
      opWidth l * ((if r then opChannels l else 0) + if w then opChannels l else 0) := by
  rw [lineOrder, List.countP_append, countP_flatMap_const P _ _ (if r then opChannels l else 0),
    countP_flatMap_const P _ _ ((if r then opChannels l else 0) + if w then opChannels l else 0), List.length_reverse,
    List.length_range]
  · intro i _
    rw [List.countP_append, countP_map_const P _ _ r fun _ => hr _, countP_map_const P _ _ w fun _ => hw _,
      List.length_range]
  · intro i _
    rw [countP_map_const P _ _ r fun _ => hr _, List.length_range]

/-! ### The statements -/

/-- Settles O38: the run ends idle with every result written. -/
theorem lineRunWritesTheFilteredLine : Obligations.LineRunWritesTheFilteredLine := by
  intro s hp hab hcheck hans
  obtain ⟨t, hrun, ht, hend, _⟩ := exists_lineRun hp hab hcheck hans
  unfold LineRun at ht
  rw [hend] at ht
  obtain ⟨hframe, hmem⟩ := ht
  refine ⟨t, hrun, fun i c hi hc => hmem.value (i, c) ⟨hi, hc, trivial⟩,
    fun a ha => hmem.frame a fun j hj => ha j.1 j.2 hj.1 hj.2.1, ?_⟩
  simpa only [endedClean, countLine, lineFrame, hab] using hframe

/-- Settles O41. -/
theorem lineRunFollowsTheReferenceOrder : Obligations.LineRunFollowsTheReferenceOrder := by
  intro s hp hab hcheck hans
  obtain ⟨_, _, _, _, htrace⟩ := exists_lineRun hp hab hcheck hans
  refine ⟨htrace, ?_, ?_⟩
  · rw [lineOrder_countP s.latched isRead true false (fun _ => rfl) fun _ => rfl]
    simp only [if_true, Bool.false_eq_true, if_false]
    ring
  · rw [lineOrder_countP s.latched (fun a => !isRead a) false true (fun _ => rfl) fun _ => rfl]
    simp

end Sys2Proof.Machine

namespace Sys2Proof.Machine

/-! PROOFS about a whole BLUR2D (42_separable_blur.md R93, R94, R96, 20_memory.md R62): the state at every place of a run
that nothing stops, rows and columns, then the statements. -/

/-! ### Samples and cache words apart from each other -/

theorem BlurOk.dst_apart {l : Latched} (h : BlurOk l) {y x c y' x' c' : Nat} (hx : x < opWidth l)
    (hc : c < opChannels l) (hx' : x' < opWidth l) (hc' : c' < opChannels l) (hne : y ≠ y' ∨ x ≠ x' ∨ c ≠ c') :
    blurDstAddress l y x c + 4 ≤ blurDstAddress l y' x' c' ∨
      blurDstAddress l y' x' c' + 4 ≤ blurDstAddress l y x c := by
  rw [blurDstAddress, blurDstAddress, add_assoc, add_assoc]
  refine sampleAddress_apart (row_offset_ne h.stride_ge (row_index_lt hx hc) (row_index_lt hx' hc') ?_)
  by_contra hsame
  simp only [not_or, not_not] at hsame
  obtain ⟨rfl, hrow⟩ := hsame
  obtain ⟨rfl, rfl⟩ := row_index_inj hc hc' hrow
  simp at hne

theorem cacheIndex_inj {l : Latched} {x y c x' y' c' : Nat} (hy : y < opHeight l) (hc : c < opChannels l)
    (hy' : y' < opHeight l) (hc' : c' < opChannels l) (h : cacheIndex l x y c = cacheIndex l x' y' c') :
    x = x' ∧ y = y' ∧ c = c' := by
  rw [cacheIndex_eq, cacheIndex_eq] at h
  obtain ⟨hxy, rfl⟩ := row_index_inj hc hc' (Nat.add_left_cancel h)
  obtain ⟨rfl, rfl⟩ := row_index_inj hy hy' hxy
  exact ⟨rfl, rfl, rfl⟩

/-! ### The state at every place of the run -/

section Run

variable (s0 : State)

/-- The coefficients of the run: Coef(L.SIGMA) (R93). -/
def runCoefs : Coefs := coef s0.latched.params.sigma

/-- The value that the cache takes for pixel (x, y), channel c: the filtered row (R93, R94). -/
def rowValue (x y c : Nat) : Word :=
  lineOut (runCoefs s0) (opWidth s0.latched) (blurInput s0.latched s0.mem c y) x

/-- The value that destination sample j = (y, x, c) takes: out[y][x][c] of R94 for the source as it was at the start. -/
def blurValue (j : Nat × Nat × Nat) : Word :=
  blurOut (runCoefs s0) (opWidth s0.latched) (opHeight s0.latched) (blurInput s0.latched s0.mem j.2.2) j.1 j.2.1

/-- The cache holds the filtered rows for the pixels of `D`. -/
def Cached (D : Nat → Nat → Nat → Prop) (work : List (Nat × Word)) : Prop :=
  ∀ x y c, x < opWidth s0.latched → y < opHeight s0.latched → c < opChannels s0.latched → D x y c →
    readCell work (cacheIndex s0.latched x y c) = rowValue s0 x y c

/-- Memory after the results `D` of the plane have been written. -/
def BlurMemory (D : Nat → Nat → Nat → Prop) (m : List Host.Cell) : Prop :=
  Written (fun j : Nat × Nat × Nat => blurDstAddress s0.latched j.1 j.2.1 j.2.2) (blurValue s0)
    (fun j => (j.1 < opHeight s0.latched ∧ j.2.1 < opWidth s0.latched ∧ j.2.2 < opChannels s0.latched) ∧
      D j.1 j.2.1 j.2.2) s0.mem m

/-- Everything but the stores, the progress and LINE_COUNT is as step SOLVE left it; `lines` passes have finished. -/
def blurFrame (s : State) (lines : Nat) (p : Progress) : State :=
  { s0 with
    coefs := runCoefs s0
    status := { s0.status with coefValid := true }
    lineCount := s0.lineCount + BitVec.ofNat 32 lines
    work := s.work
    acc := s.acc
    mem := s.mem
    progress := p }

/-- What the horizontal pass has cached before place `p` of row y. -/
def cachedBefore (y : Nat) (p : LinePos) (x y' c : Nat) : Prop := y' < y ∨ (y' = y ∧ delivered p x c)

/-- The next place of row y has one more pixel cached, where this one delivers. -/
theorem cachedBefore_next {n channels y : Nat} {p q : LinePos} (hq : nextPos n channels p = some q) {x y' c : Nat}
    (hx : x < n) (hc : c < channels) :
    cachedBefore y q x y' c ↔ cachedBefore y p x y' c ∨ (y' = y ∧ deliversNow p x c) := by
  simp only [cachedBefore, delivered_next hq hx hc]
  tauto

/-- After the last place of row y its pixels are cached. -/
theorem cachedBefore_last {n channels y : Nat} {p : LinePos} (hq : nextPos n channels p = none) {x y' c : Nat}
    (hc : c < channels) (h : y' < y + 1) : cachedBefore y p x y' c ∨ (y' = y ∧ deliversNow p x c) := by
  have hlast := delivered_last hq (i := x) hc
  have hle := Nat.lt_succ_iff_lt_or_eq.1 h
  unfold cachedBefore
  tauto

theorem cachedBefore_passStart {y x y' c : Nat} : cachedBefore y passStart x y' c ↔ y' < y := by
  simp only [cachedBefore, not_delivered_passStart, and_false, or_false]

/-- What the vertical pass has written before place `p` of column x. -/
def writtenBefore (x : Nat) (p : LinePos) (y x' c : Nat) : Prop := x' < x ∨ (x' = x ∧ delivered p y c)

/-- The state of the run of a BLUR2D that started in `s0`, at each of its progresses. -/
def BlurRun (s : State) : Prop :=
  match s.progress with
  | .solve => s = goTo .solve s0
  | .hpass y p =>
    s = blurFrame s0 s y (.hpass y p) ∧ s.mem = s0.mem ∧ y < opHeight s0.latched ∧
      linePosOk (opWidth s0.latched) (opChannels s0.latched) p ∧
      PassStores (runCoefs s0) (opWidth s0.latched) (opChannels s0.latched)
        (fun c i => blurInput s0.latched s0.mem c y i) p s.work s.acc ∧
      Cached s0 (cachedBefore y p) s.work
  | .vpass x p =>
    s = blurFrame s0 s (opHeight s0.latched + x) (.vpass x p) ∧ x < opWidth s0.latched ∧
      linePosOk (opHeight s0.latched) (opChannels s0.latched) p ∧
      PassStores (runCoefs s0) (opHeight s0.latched) (opChannels s0.latched) (fun c i => rowValue s0 x i c) p
        s.work s.acc ∧
      Cached s0 (fun _ _ _ => True) s.work ∧ BlurMemory s0 (writtenBefore x p) s.mem
  | .finish =>
    s = blurFrame s0 s (opHeight s0.latched + opWidth s0.latched) .finish ∧ BlurMemory s0 (fun _ _ _ => True) s.mem
  | .idle =>
    s = endedClean (blurFrame s0 s (opHeight s0.latched + opWidth s0.latched) .finish) ∧
      BlurMemory s0 (fun _ _ _ => True) s.mem
  | _ => False

variable {s0}

/-- A change of the stores and of memory keeps the frame. -/
theorem blurFrame_stores {s : State} {lines : Nat} {p : Progress} (h : s = blurFrame s0 s lines p)
    (work acc : List (Nat × Word)) (m : List Host.Cell) :
    { s with work := work, acc := acc, mem := m } =
      blurFrame s0 { s with work := work, acc := acc, mem := m } lines p := by
  rw [h]
  rfl

/-- Going on inside a pass. -/
theorem blurFrame_goTo {s : State} {lines : Nat} {p : Progress} (h : s = blurFrame s0 s lines p) (q : Progress) :
    goTo q s = blurFrame s0 (goTo q s) lines q := by
  rw [h]
  rfl

/-- Going on after a pass, which is counted. -/
theorem blurFrame_count {s : State} {lines : Nat} {p : Progress} (h : s = blurFrame s0 s lines p) (q : Progress) :
    goTo q (countLine s) = blurFrame s0 (goTo q (countLine s)) (lines + 1) q := by
  have hcount : goTo q (countLine s) =
      { blurFrame s0 s lines q with lineCount := s0.lineCount + BitVec.ofNat 32 lines + 1#32 } := by
    rw [h]
    rfl
  rw [hcount, BitVec.add_assoc, ofNat_succ]
  rfl

/-- The horizontal pass starts with nothing cached, the memory as it was. -/
theorem blurRun_hpass_start (hok : BlurOk s0.latched) :
    BlurRun s0 (goTo (.hpass 0 passStart) (solveUpdate (goTo .solve s0))) := by
  refine ⟨?_, rfl, hok.height_pos, ⟨hok.width_pos, hok.channels_pos⟩, passStores_passStart .., ?_⟩
  · simp [blurFrame, goTo, solveUpdate, updateCoefs, runCoefs]
  · exact fun _ y _ _ _ _ hd => absurd (cachedBefore_passStart.1 hd) (Nat.not_lt_zero y)

/-- Going on from place `p` of row y, the stores being those after its step. -/
theorem blurRun_rowNext {y : Nat} {p : LinePos} {u : State} (hok : BlurOk s0.latched)
    (hu : u = blurFrame s0 u y (.hpass y p)) (hmem : u.mem = s0.mem) (hy : y < opHeight s0.latched)
    (hp : linePosOk (opWidth s0.latched) (opChannels s0.latched) p)
    (hstores : ∀ q, nextPos (opWidth s0.latched) (opChannels s0.latched) p = some q →
      PassStores (runCoefs s0) (opWidth s0.latched) (opChannels s0.latched)
        (fun c i => blurInput s0.latched s0.mem c y i) q u.work u.acc)
    (hcache : Cached s0 (fun x y' c => cachedBefore y p x y' c ∨ (y' = y ∧ deliversNow p x c)) u.work) :
    BlurRun s0 (rowNext y p u) := by
  have hl : u.latched = s0.latched := by rw [hu]; rfl
  rw [rowNext, hl]
  cases hq : nextPos (opWidth s0.latched) (opChannels s0.latched) p with
  | some q =>
    rw [passOn_some hq]
    exact ⟨blurFrame_goTo hu _, hmem, hy, nextPos_inside hp.1 hp.2 hq, hstores q hq,
      fun x y' c hx hy' hc hd => hcache x y' c hx hy' hc ((cachedBefore_next hq hx hc).1 hd)⟩
  | none =>
    rw [passOn_none hq, afterRow]
    have hrow : Cached s0 (fun _ y' _ => y' < y + 1) u.work :=
      fun x y' c hx hy' hc hlt => hcache x y' c hx hy' hc (cachedBefore_last hq hc hlt)
    split
    next hlt =>
      exact ⟨blurFrame_count hu _, hmem, hlt, ⟨hok.width_pos, hok.channels_pos⟩, passStores_passStart ..,
        fun x y' c hx hy' hc hd => hrow x y' c hx hy' hc (cachedBefore_passStart.1 hd)⟩
    next hge =>
      have hcount := blurFrame_count hu (.vpass 0 passStart)
      rw [show y + 1 = opHeight s0.latched + 0 by omega] at hcount
      refine ⟨hcount, hok.width_pos, ⟨hok.height_pos, hok.channels_pos⟩, passStores_passStart ..,
        fun x y' c hx hy' hc _ => hrow x y' c hx hy' hc (by omega), ?_⟩
      have hnone : BlurMemory s0 (writtenBefore 0 passStart) s0.mem := by
        refine written_none ?_
        rintro ⟨y', x', c⟩ ⟨_, hlt | ⟨_, hd⟩⟩
        · exact Nat.not_lt_zero x' hlt
        · exact not_delivered_passStart y' c hd
      exact hmem ▸ hnone

/-- Going on from place `p` of column x, the stores and memory being those after its step. -/
theorem blurRun_columnNext {x : Nat} {p : LinePos} {u : State} (hok : BlurOk s0.latched)
    (hu : u = blurFrame s0 u (opHeight s0.latched + x) (.vpass x p)) (hx : x < opWidth s0.latched)
    (hp : linePosOk (opHeight s0.latched) (opChannels s0.latched) p)
    (hstores : ∀ q, nextPos (opHeight s0.latched) (opChannels s0.latched) p = some q →
      PassStores (runCoefs s0) (opHeight s0.latched) (opChannels s0.latched) (fun c i => rowValue s0 x i c) q
        u.work u.acc)
    (hcache : Cached s0 (fun _ _ _ => True) u.work)
    (hmem : BlurMemory s0 (fun y x' c => writtenBefore x p y x' c ∨ (x' = x ∧ deliversNow p y c)) u.mem) :
    BlurRun s0 (columnNext x p u) := by
  have hl : u.latched = s0.latched := by rw [hu]; rfl
  rw [columnNext, hl]
  cases hq : nextPos (opHeight s0.latched) (opChannels s0.latched) p with
  | some q =>
    rw [passOn_some hq]
    refine ⟨blurFrame_goTo hu _, hx, nextPos_inside hp.1 hp.2 hq, hstores q hq, hcache, hmem.congr ?_⟩
    rintro ⟨y, x', c⟩
    refine and_congr_right fun hin => ?_
    simp only [writtenBefore, delivered_next hq hin.1 hin.2.2]
    tauto
  | none =>
    have hcolumn : BlurMemory s0 (fun _ x' _ => x' < x + 1) u.mem := by
      refine hmem.congr ?_
      rintro ⟨y, x', c⟩
      refine and_congr_right fun hin => ?_
      have hlast := delivered_last hq (i := y) hin.2.2
      simp only [writtenBefore, Nat.lt_succ_iff_lt_or_eq]
      tauto
    rw [passOn_none hq, afterColumn]
    split
    next hlt =>
      refine ⟨blurFrame_count hu _, hlt, ⟨hok.height_pos, hok.channels_pos⟩, passStores_passStart .., hcache,
        hcolumn.congr ?_⟩
      rintro ⟨y, x', c⟩
      refine and_congr_right fun _ => ?_
      simp only [writtenBefore, not_delivered_passStart, and_false, or_false]
    next hge =>
      have hcount := blurFrame_count hu .finish
      rw [show opHeight s0.latched + x + 1 = opHeight s0.latched + opWidth s0.latched by omega] at hcount
      refine ⟨hcount, hcolumn.congr ?_⟩
      rintro ⟨y, x', c⟩
      exact and_congr_right fun hin => iff_of_true trivial (lt_of_lt_of_le hin.2.1 (by omega))

/-- The scratch line and the cache share no word. -/
theorem cacheIndex_ne_scratch {l : Latched} {x y c j n : Nat} (hx : x < opWidth l) (hy : y < opHeight l)
    (hc : c < opChannels l) (hj : j < n) (hn : n ≤ scratchWords l) : cacheIndex l x y c ≠ j := by
  have := (cacheIndex_bounds hx hy hc).1
  omega

/-- A write below the scratch buffer's size keeps the cache. -/
theorem Cached.writeScratch {D : Nat → Nat → Nat → Prop} {work : List (Nat × Word)} (h : Cached s0 D work) {j : Nat}
    (hj : j < scratchWords s0.latched) (v : Word) : Cached s0 D (writeCell work j v) := by
  intro x y c hx hy hc hD
  rw [readCell_writeCell_other _ _ (cacheIndex_ne_scratch hx hy hc hj le_rfl)]
  exact h x y c hx hy hc hD

/-- A recursion step keeps the cache. -/
theorem Cached.sampleStep {D : Nat → Nat → Nat → Prop} {s : State} (h : Cached s0 D s.work) {n : Nat} {p : LinePos}
    (hp : linePosOk n (opChannels s0.latched) p) (hn : n * opChannels s0.latched ≤ scratchWords s0.latched) (v : F32) :
    Cached s0 D (sampleStep n (opChannels s0.latched) p v s).work := by
  have hj := lt_of_lt_of_le (scratchIndex_lt hp.1 hp.2) hn
  unfold Machine.sampleStep
  split
  · exact h.writeScratch hj _
  · exact h.writeScratch hj _
  · exact h

/-- A delivery into the cache caches one more pixel. -/
theorem Cached.store {y : Nat} {p : LinePos} {work : List (Nat × Word)} (hy : y < opHeight s0.latched)
    (hp : linePosOk (opWidth s0.latched) (opChannels s0.latched) p) (h : Cached s0 (cachedBefore y p) work) :
    Cached s0 (fun x y' c => cachedBefore y p x y' c ∨ (y' = y ∧ deliversNow p x c))
      (writeCell work (cacheIndex s0.latched p.i y p.c) (rowValue s0 p.i y p.c)) := by
  intro x y' c hx hy' hc hD
  rw [readCell_writeCell]
  split
  next heq =>
    obtain ⟨rfl, rfl, rfl⟩ := cacheIndex_inj hy' hc hy hp.2 heq
    rfl
  next hne =>
    rcases hD with hD | ⟨rfl, -, rfl, rfl⟩
    · exact h x y' c hx hy' hc hD
    · exact absurd rfl hne

/-- A column's delivery writes one more sample. -/
theorem BlurMemory.store {x : Nat} {p : LinePos} {m : List Host.Cell} (hok : BlurOk s0.latched)
    (hx : x < opWidth s0.latched) (hp : linePosOk (opHeight s0.latched) (opChannels s0.latched) p)
    (hph : p.phase = .deliver) (h : BlurMemory s0 (writtenBefore x p) m) :
    BlurMemory s0 (fun y x' c => writtenBefore x p y x' c ∨ (x' = x ∧ deliversNow p y c))
      (writeWord m (blurDstAddress s0.latched p.i x p.c) (blurValue s0 (p.i, x, p.c))) := by
  have hfresh : ¬ writtenBefore x p p.i x p.c := by
    simp only [writtenBefore, delivered, hph]
    omega
  refine (Written.store h (p.i, x, p.c) ?_).congr fun j => ?_
  · rintro ⟨y, x', c⟩ ⟨⟨hy, hx', hc⟩, hd⟩
    refine hok.dst_apart hx' hc hx hp.2 ?_
    by_contra hne
    simp only [not_or, not_not] at hne
    obtain ⟨rfl, rfl, rfl⟩ := hne
    exact hfresh hd
  · obtain ⟨y, x', c⟩ := j
    obtain ⟨hi, hc⟩ := hp
    simp only [deliversNow, hph, true_and, Prod.mk.injEq]
    constructor
    · rintro ⟨hin, hd | ⟨rfl, rfl, rfl⟩⟩
      · exact .inl ⟨hin, hd⟩
      · exact .inr ⟨rfl, rfl, rfl⟩
    · rintro (⟨hin, hd⟩ | ⟨rfl, rfl, rfl⟩)
      · exact ⟨hin, .inl hd⟩
      · exact ⟨⟨hi, hx, hc⟩, .inr ⟨rfl, rfl, rfl⟩⟩

/-- A place that does not deliver writes nothing to memory. -/
theorem BlurMemory.read {x : Nat} {p : LinePos} {m : List Host.Cell} (hph : p.phase ≠ .deliver)
    (h : BlurMemory s0 (writtenBefore x p) m) :
    BlurMemory s0 (fun y x' c => writtenBefore x p y x' c ∨ (x' = x ∧ deliversNow p y c)) m :=
  h.congr fun _ => and_congr_right fun _ => or_iff_left fun hd => hph hd.2.1

/-- A step of the horizontal pass goes on in the run. -/
theorem blurRun_rowStep {y : Nat} {p : LinePos} {s : State} (hok : BlurOk s0.latched)
    (hans : blurAnswers s0.platform s0.latched) (hp : s.progress = .hpass y p) (hs : BlurRun s0 s) :
    ∃ u, u.latched = s0.latched ∧ rowPassStep y p s = .next (rowNext y p u) ∧ BlurRun s0 (rowNext y p u) := by
  unfold BlurRun at hs
  rw [hp] at hs
  obtain ⟨hframe, hmem, hy, hin, hstores, hcache⟩ := hs
  have hl : s.latched = s0.latched := by rw [hframe]; rfl
  have hk : s.coefs = runCoefs s0 := by rw [hframe]; rfl
  have hpf : s.platform = s0.platform := by rw [hframe]; rfl
  have hstep {q : LinePos} (hq : nextPos (opWidth s0.latched) (opChannels s0.latched) p = some q) :=
    (hk ▸ hstores).step hin hq
  rw [hk] at hstep
  by_cases hph : p.phase = .deliver
  · have hres := hstores.passResult_eq (s := s) hin hph
    have hval : passResult (opChannels s.latched) p s = rowValue s0 p.i y p.c := by
      rw [hl, hres]
      rfl
    have hu : cacheStore y p s =
        { s with work := writeCell s.work (cacheIndex s0.latched p.i y p.c) (rowValue s0 p.i y p.c) } := by
      rw [cacheStore, hval, hl]
    refine ⟨cacheStore y p s, hl, rowPassStep_deliver hph,
      blurRun_rowNext hok ?_ hmem hy hin (fun q hq => ?_) ?_⟩ <;> rw [hu]
    · exact blurFrame_stores hframe _ s.acc s.mem
    · rw [sampleStep_deliver hph] at hstep
      refine (hstep hq).congr_work (nextPos_inside hin.1 hin.2 hq) fun j hj => ?_
      exact readCell_writeCell_other _ _
        (cacheIndex_ne_scratch hin.1 hy hin.2 hj (width_le_scratchWords s0.latched)).symm
    · exact hcache.store hy hin
  · have hsrc := hok.src_port hy hin.1 hin.2
    obtain ⟨hread, _⟩ := hans y p.i p.c hy hin.1 hin.2
    rw [← hpf, ← hl] at hread
    have hread' := rowPassStep_read hph (hl ▸ hsrc) hread
    rw [hl, hmem, ← blurInput] at hread'
    have hu := sampleStep_eq (opWidth s0.latched) (opChannels s0.latched) p
      (blurInput s0.latched s0.mem p.c y p.i) s
    refine ⟨_, ?_, hread', blurRun_rowNext hok ?_ ?_ hy hin (fun q => hstep) ?_⟩
    · rw [hu]
      exact hl
    · rw [hu]
      exact blurFrame_stores hframe _ _ s.mem
    · rw [hu]
      exact hmem
    · intro x y' c hx hy' hc hD
      exact hcache.sampleStep hin (width_le_scratchWords s0.latched) _ x y' c hx hy' hc
        (hD.resolve_right fun hd => hph hd.2.1)

/-- A step of the vertical pass goes on in the run. -/
theorem blurRun_columnStep {x : Nat} {p : LinePos} {s : State} (hok : BlurOk s0.latched)
    (hans : blurAnswers s0.platform s0.latched) (hp : s.progress = .vpass x p) (hs : BlurRun s0 s) :
    ∃ u, u.latched = s0.latched ∧ columnPassStep x p s = .next (columnNext x p u) ∧
      BlurRun s0 (columnNext x p u) := by
  unfold BlurRun at hs
  rw [hp] at hs
  obtain ⟨hframe, hx, hin, hstores, hcache, hmem⟩ := hs
  have hl : s.latched = s0.latched := by rw [hframe]; rfl
  have hk : s.coefs = runCoefs s0 := by rw [hframe]; rfl
  have hpf : s.platform = s0.platform := by rw [hframe]; rfl
  have hstep {q : LinePos} (hq : nextPos (opHeight s0.latched) (opChannels s0.latched) p = some q) :=
    (hk ▸ hstores).step hin hq
  rw [hk] at hstep
  by_cases hph : p.phase = .deliver
  · obtain ⟨_, hwrite⟩ := hans p.i x p.c hin.1 hx hin.2
    rw [← hpf, ← hl] at hwrite
    have hres := hstores.passResult_eq (s := s) hin hph
    have hval : passResult (opChannels s.latched) p s = blurValue s0 (p.i, x, p.c) := by
      rw [hl, hres]
      rfl
    refine ⟨storeWord (blurDstAddress s.latched p.i x p.c) (passResult (opChannels s.latched) p s) s, hl,
      columnPassStep_deliver hph (hl ▸ hok.dst_port hin.1 hx hin.2) hwrite,
      blurRun_columnNext hok ?_ hx hin (fun q hq => ?_) hcache ?_⟩
    · exact blurFrame_stores hframe s.work s.acc _
    · rw [sampleStep_deliver hph] at hstep
      exact hstep hq
    · rw [storeWord_mem, hval, hl]
      exact hmem.store hok hx hin hph
  · have hload : cacheLoad x p s = rowValue s0 x p.i p.c := by
      rw [cacheLoad, hl]
      exact hcache x p.i p.c hx hin.1 hin.2 trivial
    have hread := columnPassStep_read (x := x) (s := s) hph
    rw [hload, hl] at hread
    have hu := sampleStep_eq (opHeight s0.latched) (opChannels s0.latched) p (rowValue s0 x p.i p.c) s
    refine ⟨_, ?_, hread, blurRun_columnNext hok ?_ hx hin (fun q => hstep)
      (hcache.sampleStep hin (height_le_scratchWords s0.latched) _) ?_⟩
    · rw [hu]
      exact hl
    · rw [hu]
      exact blurFrame_stores hframe _ _ s.mem
    · rw [hu]
      exact hmem.read hph

/-- Every step of the run but the last leaves the run, with its first access made and one step fewer. -/
theorem blurRun_step (hok : BlurOk s0.latched) (hans : blurAnswers s0.platform s0.latched)
    (hab : s0.abortReq = false) (s : State) (hs : BlurRun s0 s) (hidle : s.progress ≠ .idle) :
    ∃ t, exec .blur2d s = .next t ∧ BlurRun s0 t ∧
      stepsLeft s.latched s.progress = stepsLeft t.latched t.progress + 1 ∧
      blurOrderLeft s.latched s.progress = (nextAccess s).toList ++ blurOrderLeft t.latched t.progress := by
  have hrun := hs
  unfold BlurRun at hs
  split at hs
  case h_1 hp =>
    subst hs
    refine ⟨_, exec_blur_solve rfl hab, blurRun_hpass_start hok, ?_, ?_⟩
    · exact congrArg (· + 1) (stepsLeft_hpass_start hok.height_pos).symm
    · have hn : nextAccess (goTo .solve s0) = none := by simp [nextAccess, hab]
      rw [hn]
      exact (blurOrderLeft_start hok.width_pos hok.height_pos).symm
  case h_2 y p hp =>
    obtain ⟨hframe, _, hy, hin, _⟩ := hs
    have hl : s.latched = s0.latched := by rw [hframe]; rfl
    have ha : s.abortReq = false := by rw [hframe]; exact hab
    obtain ⟨u, hul, hstep, hnext⟩ := blurRun_rowStep hok hans hp hrun
    refine ⟨rowNext y p u, (exec_blur_hpass hp ha).trans hstep, hnext, ?_, ?_⟩
    · rw [hp, hl, rowNext_latched, ← hul]
      exact stepsLeft_rowNext (hul ▸ hy) (hul ▸ hok.width_pos) (hul ▸ hin)
    · rw [nextAccess_hpass hp ha, hp, hl, rowNext_latched, ← hul]
      exact blurOrderLeft_rowNext (hul ▸ hok.width_pos) (hul ▸ hin)
  case h_3 x p hp =>
    obtain ⟨hframe, hx, hin, _⟩ := hs
    have hl : s.latched = s0.latched := by rw [hframe]; rfl
    have ha : s.abortReq = false := by rw [hframe]; exact hab
    obtain ⟨u, hul, hstep, hnext⟩ := blurRun_columnStep hok hans hp hrun
    refine ⟨columnNext x p u, (exec_blur_vpass hp ha).trans hstep, hnext, ?_, ?_⟩
    · rw [hp, hl, columnNext_latched, ← hul]
      exact stepsLeft_columnNext (hul ▸ hx) (hul ▸ hin)
    · rw [nextAccess_vpass hp ha, hp, hl, columnNext_latched, ← hul]
      exact blurOrderLeft_columnNext (hul ▸ hin)
  case h_4 hp =>
    obtain ⟨hframe, hmem⟩ := hs
    refine ⟨endedClean s, exec_blur_finish hp, ⟨congrArg endedClean hframe, hmem⟩, ?_, ?_⟩
    · rw [hp]
      rfl
    · rw [hp]
      simp [nextAccess, hp, blurOrderLeft, endedClean]
  case h_5 hp => exact absurd hp hidle
  case h_6 => exact hs.elim

/-- The whole run of a BLUR2D: its end, and its accesses. -/
theorem exists_blurRun (hp : s0.progress = .check) (hab : s0.abortReq = false) (hcheck : blurCheck s0 = .noError)
    (hans : blurAnswers s0.platform s0.latched) :
    ∃ t, execN .blur2d (blurSteps s0.latched) s0 = .next t ∧ BlurRun s0 t ∧ t.progress = .idle ∧
      accessTrace .blur2d (blurSteps s0.latched) s0 = blurOrder s0.latched := by
  have hok := blurOk_of_check hcheck
  have hstart : exec .blur2d s0 = .next (goTo .solve s0) := by
    rw [exec_blur_check hp, hcheck, checkStep_noError, if_neg (by simp [hab])]
  have hrun0 : BlurRun s0 (goTo .solve s0) := rfl
  obtain ⟨t, hrun, ht, hend, htrace⟩ := execN_of_steps (i := .blur2d) (order := blurOrderLeft) (fun _ => rfl)
    (blurRun_step hok hans hab) (6 * (opWidth s0.latched * opHeight s0.latched * opChannels s0.latched) + 2) _ hrun0 rfl
  have hn : nextAccess s0 = none := by simp [nextAccess, hp]
  refine ⟨t, (execN_succ hstart _).trans hrun, ht, hend, ?_⟩
  rw [blurSteps, accessTrace_succ hstart, htrace, hn]
  rfl

end Run

/-! ### How many accesses the order has (70_reset_and_hazards.md R127) -/

theorem blurOrder_countP (l : Latched) (P : Access → Bool) (r w : Bool) (hr : ∀ a, P (.read a) = r)
    (hw : ∀ a, P (.write a) = w) :
    (blurOrder l).countP P =
      opHeight l * (opWidth l * (if r then opChannels l else 0) + opWidth l * (if r then opChannels l else 0)) +
      opWidth l * (opHeight l * if w then opChannels l else 0) := by
  have hread (f : Nat → Nat) : ((List.range (opChannels l)).map fun c => Access.read (f c)).countP P =
      if r then opChannels l else 0 := by
    rw [countP_map_const P _ _ r fun _ => hr _, List.length_range]
  have hwrite (f : Nat → Nat) : ((List.range (opChannels l)).map fun c => Access.write (f c)).countP P =
      if w then opChannels l else 0 := by
    rw [countP_map_const P _ _ w fun _ => hw _, List.length_range]
  have hrow (f : Nat → Nat → Nat) (xs : List Nat) :
      (xs.flatMap fun x => (List.range (opChannels l)).map fun c => Access.read (f x c)).countP P =
        xs.length * if r then opChannels l else 0 := countP_flatMap_const P _ xs _ fun x _ => hread (f x)
  have hcolumn (f : Nat → Nat → Nat) (ys : List Nat) :
      (ys.flatMap fun y => (List.range (opChannels l)).map fun c => Access.write (f y c)).countP P =
        ys.length * if w then opChannels l else 0 := countP_flatMap_const P _ ys _ fun y _ => hwrite (f y)
  rw [blurOrder, List.countP_append,
    countP_flatMap_const P _ _ _ fun y _ => by
      rw [List.countP_append, hrow, hrow, List.length_reverse, List.length_range],
    countP_flatMap_const P _ _ _ fun x _ => by rw [hcolumn, List.length_reverse, List.length_range],
    List.length_range, List.length_range]

/-! ### The statements -/

/-- The end of a run whose every step went through. -/
theorem blurRun_end {s t : State} (hab : s.abortReq = false) (ht : BlurRun s t) (hend : t.progress = .idle) :
    BlurMemory s (fun _ _ _ => True) t.mem ∧
      t = { s with
        status := { s.status with busy := false, done := true, coefValid := true }
        coefs := coef s.latched.params.sigma
        lineCount := s.lineCount + BitVec.ofNat 32 (opHeight s.latched + opWidth s.latched)
        work := t.work
        acc := t.acc
        mem := t.mem
        progress := .idle } := by
  unfold BlurRun at ht
  rw [hend] at ht
  obtain ⟨hframe, hmem⟩ := ht
  refine ⟨hmem, ?_⟩
  simpa only [endedClean, blurFrame, runCoefs, hab] using hframe

/-- Settles O39: the run ends idle with every result written. -/
theorem blurRunWritesTheBlurredPlane : Obligations.BlurRunWritesTheBlurredPlane := by
  intro s hp hab hcheck hans
  obtain ⟨t, hrun, ht, hend, _⟩ := exists_blurRun hp hab hcheck hans
  obtain ⟨hmem, hframe⟩ := blurRun_end hab ht hend
  exact ⟨t, hrun, fun y x c hy hx hc => hmem.value (y, x, c) ⟨⟨hy, hx, hc⟩, trivial⟩,
    fun a ha => hmem.frame a fun j hj => ha j.1 j.2.1 j.2.2 hj.1.1 hj.1.2.1 hj.1.2.2, hframe⟩

/-- Settles O40: both runs write the blur of the same source plane as it was at the start (O39), which does not speak of
DST. -/
theorem blurInPlaceEqualsOutOfPlace : Obligations.BlurInPlaceEqualsOutOfPlace := by
  intro s dst l' s' hp hab hcheck hcheck' hans hans'
  obtain ⟨t, hrun, hval, _⟩ := blurRunWritesTheBlurredPlane s hp hab hcheck hans
  obtain ⟨t', hrun', hval', _⟩ := blurRunWritesTheBlurredPlane s' hp hab hcheck' hans'
  exact ⟨t, t', hrun, hrun', fun y x c hy hx hc => (hval y x c hy hx hc).trans (hval' y x c hy hx hc).symm⟩

/-- Settles O42. -/
theorem blurRunFollowsTheReferenceOrder : Obligations.BlurRunFollowsTheReferenceOrder := by
  intro s hp hab hcheck hans
  obtain ⟨_, _, _, _, htrace⟩ := exists_blurRun hp hab hcheck hans
  refine ⟨htrace, ?_, ?_⟩
  · rw [blurOrder_countP s.latched isRead true false (fun _ => rfl) fun _ => rfl]
    simp only [if_true, Bool.false_eq_true, if_false]
    ring
  · rw [blurOrder_countP s.latched (fun a => !isRead a) false true (fun _ => rfl) fun _ => rfl]
    simp only [if_true, Bool.false_eq_true, if_false]
    ring

end Sys2Proof.Machine

namespace Sys2Proof.Machine

/-! PROOFS about what no agent can observe (10_state.md R42, R43, R44): two states that differ in the work memory, the
accumulators and the latched set only, and agree on them as far as the running command has written them itself. -/

/-! ### Stores that agree on what a line pass has written -/

/-- The scratch words that a line pass has written before place `p` are those below this one. -/
def scratchKnown (n channels : Nat) (p : LinePos) : Nat :=
  match p.phase with
  | .forward => scratchIndex channels p.i p.c
  | .backward | .deliver => n * channels

/-- A line pass has written accumulator `c` before place `p`. -/
def accKnown (p : LinePos) (c : Nat) : Prop := p.phase = .forward → c < p.c ∨ 0 < p.i

/-- The stores agree on what a line pass has written before place `p`. -/
structure PassAgree (n channels : Nat) (p : LinePos) (work acc work' acc' : List (Nat × Word)) : Prop where
  scratch : ∀ j, j < scratchKnown n channels p → readCell work' j = readCell work j
  acc : ∀ c, c < channels → accKnown p c → readCell acc' c = readCell acc c

/-- A line pass has written nothing where it starts. -/
theorem passAgree_passStart (n channels : Nat) (work acc work' acc' : List (Nat × Word)) :
    PassAgree n channels passStart work acc work' acc' := by
  refine ⟨fun j hj => ?_, fun c _ hc => ?_⟩
  · simp [scratchKnown, passStart, scratchIndex] at hj
  · simp [accKnown, passStart] at hc

/-- The same value written to both keeps the agreement, and adds the word. -/
theorem readCell_writeCell_agree {w w' : List (Nat × Word)} {j k : Nat} {v v' : Word} (hv : v' = v)
    (h : j ≠ k → readCell w' j = readCell w j) : readCell (writeCell w' k v') j = readCell (writeCell w k v) j := by
  subst hv
  rw [readCell_writeCell, readCell_writeCell]
  split
  next => rfl
  next hne => exact h hne

/-- The state `s` with other unobservable state. -/
def withInternal (work acc : List (Nat × Word)) (l : Latched) (s : State) : State :=
  { s with work := work, acc := acc, latched := l }

section Pass

variable {n channels : Nat} {p q : LinePos} {s : State} {work acc : List (Nat × Word)}

/-- What the stores must agree on after the step at `p`. -/
theorem scratchKnown_next (hp : linePosOk n channels p) (hq : nextPos n channels p = some q) {j : Nat}
    (hj : j < scratchKnown n channels q) : j < scratchKnown n channels p ∨
      (p.phase = .forward ∧ j = scratchIndex channels p.i p.c) := by
  obtain ⟨ph, i, c⟩ := p
  obtain ⟨hi, hc⟩ : i < n ∧ c < channels := hp
  cases ph with
  | forward =>
    rw [nextPos_forward, Option.some_inj] at hq
    subst hq
    refine Or.imp_right (And.intro rfl) ?_
    by_cases hc' : c + 1 < channels
    · simp only [hc', if_true, scratchKnown, scratchIndex] at hj ⊢
      omega
    · obtain rfl : channels = c + 1 := by omega
      by_cases hi' : i + 1 < n
      · simp only [hc', hi', if_true, if_false, scratchKnown, scratchIndex, Nat.succ_mul] at hj ⊢
        omega
      · obtain rfl : n = i + 1 := by omega
        simp only [hc', hi', if_false, scratchKnown, scratchIndex, Nat.succ_mul] at hj ⊢
        omega
  | backward =>
    rw [nextPos_backward, Option.some_inj] at hq
    subst hq
    refine .inl ?_
    split at hj <;> exact hj
  | deliver =>
    rw [nextPos_deliver] at hq
    refine .inl ?_
    split at hq
    · cases hq
      exact hj
    · split at hq
      · cases hq
      · cases hq
        exact hj

/-- The accumulators that the stores must agree on after the step at `p`. -/
theorem accKnown_next (hp : linePosOk n channels p) (hq : nextPos n channels p = some q) {c : Nat}
    (hc : c < channels) (h : accKnown q c) : accKnown p c ∨ (p.phase = .forward ∧ c = p.c) := by
  obtain ⟨ph, i, c0⟩ := p
  cases ph with
  | forward =>
    rw [nextPos_forward, Option.some_inj] at hq
    subst hq
    by_cases hc' : c0 + 1 < channels
    · have hlt := h (by rw [if_pos hc'])
      simp only [hc', if_true] at hlt
      simp only [accKnown, true_implies, true_and]
      omega
    · simp only [accKnown, true_implies, true_and]
      omega
  | backward => exact .inl nofun
  | deliver => exact .inl nofun

/-- The recursion reads only what the pass has written. -/
theorem PassAgree.forwardAcc_eq {i c : Nat} (hc : c < channels) (l : Latched)
    (h : PassAgree n channels ⟨.forward, i, c⟩ s.work s.acc work acc) (v : F32) :
    forwardAcc ⟨.forward, i, c⟩ v (withInternal work acc l s) = forwardAcc ⟨.forward, i, c⟩ v s := by
  have hprev : forwardPrev ⟨.forward, i, c⟩ v (withInternal work acc l s) = forwardPrev ⟨.forward, i, c⟩ v s := by
    unfold forwardPrev
    split
    next => rfl
    next hi => exact h.acc c hc fun _ => .inr (Nat.pos_of_ne_zero hi)
  rw [forwardAcc, forwardAcc, hprev]
  rfl

theorem PassAgree.backwardAcc_eq {i c : Nat} (hc : c < channels) (l : Latched)
    (h : PassAgree n channels ⟨.backward, i, c⟩ s.work s.acc work acc) (v : F32) :
    backwardAcc n ⟨.backward, i, c⟩ v (withInternal work acc l s) = backwardAcc n ⟨.backward, i, c⟩ v s := by
  have hprev : backwardPrev n ⟨.backward, i, c⟩ v (withInternal work acc l s) =
      backwardPrev n ⟨.backward, i, c⟩ v s := by
    unfold backwardPrev
    split
    next => rfl
    next => exact h.acc c hc nofun
  rw [backwardAcc, backwardAcc, hprev]
  rfl

/-- A recursion step on the same sample keeps the agreement. -/
theorem PassAgree.step (hp : linePosOk n channels p) (hq : nextPos n channels p = some q) (l : Latched)
    (h : PassAgree n channels p s.work s.acc work acc) (v : F32) :
    PassAgree n channels q (sampleStep n channels p v s).work (sampleStep n channels p v s).acc
      (sampleStep n channels p v (withInternal work acc l s)).work
      (sampleStep n channels p v (withInternal work acc l s)).acc := by
  have hscratch (j : Nat) := scratchKnown_next hp hq (j := j)
  have hacc (c : Nat) := accKnown_next hp hq (c := c)
  obtain ⟨ph, i, c⟩ := p
  obtain ⟨hi, hc⟩ : i < n ∧ c < channels := hp
  cases ph with
  | forward =>
    have hv := h.forwardAcc_eq hc l v
    refine ⟨fun j hj => readCell_writeCell_agree hv fun hne => h.scratch j ?_,
      fun c' hc' hk => readCell_writeCell_agree hv fun hne => h.acc c' hc' ?_⟩
    · exact (hscratch j hj).resolve_right fun he => hne he.2
    · exact (hacc c' hc' hk).resolve_right fun he => hne he.2
  | backward =>
    have hv := h.backwardAcc_eq hc l v
    have hj : scratchIndex channels i c < n * channels := scratchIndex_lt hi hc
    have hsum : fadd (readCell work (scratchIndex channels i c))
        (backwardAcc n ⟨.backward, i, c⟩ v (withInternal work acc l s)) =
        fadd (readCell s.work (scratchIndex channels i c)) (backwardAcc n ⟨.backward, i, c⟩ v s) := by
      rw [h.scratch _ hj, hv]
    refine ⟨fun j hj => readCell_writeCell_agree hsum fun _ => h.scratch j ?_,
      fun c' hc' hk => readCell_writeCell_agree hv fun _ => h.acc c' hc' nofun⟩
    exact (hscratch j hj).resolve_right nofun
  | deliver =>
    exact ⟨fun j hj => h.scratch j ((hscratch j hj).resolve_right nofun), fun c' hc' hk => h.acc c' hc' nofun⟩

/-- A deliver step hands on the same result. -/
theorem PassAgree.passResult_eq (hp : linePosOk n channels p) (hph : p.phase = .deliver) (l : Latched)
    (h : PassAgree n channels p s.work s.acc work acc) :
    passResult channels p (withInternal work acc l s) = passResult channels p s := by
  obtain ⟨ph, i, c⟩ := p
  subst hph
  exact h.scratch _ (scratchIndex_lt hp.1 hp.2)

/-- A step changes nothing but the stores, whatever they held. -/
theorem sampleStep_withInternal (n channels : Nat) (p : LinePos) (v : F32) (s : State)
    (work acc : List (Nat × Word)) (l : Latched) :
    sampleStep n channels p v (withInternal work acc l s) =
      withInternal (sampleStep n channels p v (withInternal work acc l s)).work
        (sampleStep n channels p v (withInternal work acc l s)).acc l (sampleStep n channels p v s) := by
  unfold sampleStep
  split <;> rfl

/-- A place that delivers changes nothing that the agreement speaks of. -/
theorem PassAgree.step_deliver (hp : linePosOk n channels p) (hph : p.phase = .deliver)
    (hq : nextPos n channels p = some q) (h : PassAgree n channels p s.work s.acc work acc) :
    PassAgree n channels q s.work s.acc work acc := by
  have hstep := h.step hp hq s.latched 0#32
  rwa [sampleStep_deliver hph, sampleStep_deliver hph] at hstep

theorem sampleStep_latched (n channels : Nat) (p : LinePos) (v : F32) (s : State) :
    (sampleStep n channels p v s).latched = s.latched := by rw [sampleStep_eq]

/-- A recursion step writes no scratch word but its own. -/
theorem readCell_sampleStep {j : Nat} (hj : j ≠ scratchIndex channels p.i p.c) (v : F32) (s : State) :
    readCell (sampleStep n channels p v s).work j = readCell s.work j := by
  unfold sampleStep
  split
  · exact readCell_writeCell_other _ _ hj
  · exact readCell_writeCell_other _ _ hj
  · rfl

end Pass

/-! ### States that agree on what the running command has written -/

/-- The caches agree on the pixels of `D`. -/
def CacheAgree (l : Latched) (D : Nat → Nat → Nat → Prop) (work work' : List (Nat × Word)) : Prop :=
  ∀ x y c, x < opWidth l → y < opHeight l → c < opChannels l → D x y c →
    readCell work' (cacheIndex l x y c) = readCell work (cacheIndex l x y c)

/-- A recursion step keeps the agreement of the caches. -/
theorem CacheAgree.sampleStep {s : State} {D : Nat → Nat → Nat → Prop} {work : List (Nat × Word)}
    (h : CacheAgree s.latched D s.work work) {n : Nat} {p : LinePos} (hp : linePosOk n (opChannels s.latched) p)
    (hn : n * opChannels s.latched ≤ scratchWords s.latched) (v : F32) {acc : List (Nat × Word)} :
    CacheAgree s.latched D (sampleStep n (opChannels s.latched) p v s).work
      (sampleStep n (opChannels s.latched) p v (withInternal work acc s.latched s)).work := by
  intro x y c hx hy hc hD
  have hj := cacheIndex_ne_scratch hx hy hc (lt_of_lt_of_le (scratchIndex_lt hp.1 hp.2) hn) le_rfl
  rw [readCell_sampleStep hj, readCell_sampleStep hj]
  exact h x y c hx hy hc hD

/-- The same result delivered into both caches. -/
theorem CacheAgree.store {l : Latched} {y : Nat} {p : LinePos} {work work' : List (Nat × Word)} {v v' : Word}
    (h : CacheAgree l (cachedBefore y p) work work') (hv : v' = v) :
    CacheAgree l (fun x y' c => cachedBefore y p x y' c ∨ (y' = y ∧ deliversNow p x c))
      (writeCell work (cacheIndex l p.i y p.c) v) (writeCell work' (cacheIndex l p.i y p.c) v') := by
  intro x y' c hx hy' hc hD
  refine readCell_writeCell_agree hv fun hne => ?_
  rcases hD with hD | ⟨rfl, -, rfl, rfl⟩
  · exact h x y' c hx hy' hc hD
  · exact absurd rfl hne

/-- A word written to both stores keeps the agreement of a line pass. -/
theorem PassAgree.writeCell {n channels : Nat} {p : LinePos} {work acc work' acc' : List (Nat × Word)}
    (h : PassAgree n channels p work acc work' acc') (k : Nat) {v v' : Word} (hv : v' = v) :
    PassAgree n channels p (writeCell work k v) acc (writeCell work' k v') acc' :=
  ⟨fun j hj => readCell_writeCell_agree hv fun _ => h.scratch j hj, h.acc⟩

/-- The stores agree on what the command with the operands `l` has written before progress `p`. -/
def PlaceAgree (l : Latched) (p : Progress) (work acc work' acc' : List (Nat × Word)) : Prop :=
  match p with
  | .solve => decode (latchedWord l) = .ok .blur2d → BlurOk l
  | .lpass q => linePosOk (opWidth l) (opChannels l) q ∧
      PassAgree (opWidth l) (opChannels l) q work acc work' acc'
  | .hpass y q => y < opHeight l ∧ linePosOk (opWidth l) (opChannels l) q ∧
      PassAgree (opWidth l) (opChannels l) q work acc work' acc' ∧ CacheAgree l (cachedBefore y q) work work'
  | .vpass x q => x < opWidth l ∧ linePosOk (opHeight l) (opChannels l) q ∧
      PassAgree (opHeight l) (opChannels l) q work acc work' acc' ∧ CacheAgree l (fun _ _ _ => True) work work'
  | _ => True

/-- The states differ in unobservable state only, and agree on what a running command has latched and written. -/
def Twin (s t : State) : Prop :=
  ∃ work acc l, t = withInternal work acc l s ∧
    (s.status.busy = true → l = s.latched ∧ PlaceAgree s.latched s.progress s.work s.acc work acc)

/-- The answers are the same, with twin next states. -/
inductive TwinResults : Result → Result → Prop
  | next {s t : State} (h : Twin s t) : TwinResults (.next s) (.next t)
  | fault (f : Fault) : TwinResults (.fault f) (.fault f)
  | refused (r : Refusal) : TwinResults (.refused r) (.refused r)

theorem TwinResults.observe_eq {r r' : Result} (h : TwinResults r r') : observe r' = observe r := by
  cases h with
  | next h =>
    obtain ⟨_, _, _, rfl, _⟩ := h
    rfl
  | fault => rfl
  | refused => rfl

/-- While idle nothing need agree. -/
theorem twin_of_idle {s : State} (h : s.status.busy = false) (work acc : List (Nat × Word)) (l : Latched) :
    Twin s (withInternal work acc l s) :=
  ⟨work, acc, l, rfl, fun hb => absurd (h.symm.trans hb) Bool.false_ne_true⟩

/-- A state of a running command that agrees on what it has written. -/
theorem twin_of_place {s : State} {work acc : List (Nat × Word)}
    (h : PlaceAgree s.latched s.progress s.work s.acc work acc) : Twin s (withInternal work acc s.latched s) :=
  ⟨work, acc, s.latched, rfl, fun _ => ⟨rfl, h⟩⟩

/-! ### The engine's steps on twins -/

section Engine

variable {s : State} {work acc : List (Nat × Word)}

theorem twinResults_complete (code : ErrCode) (info : Word) :
    TwinResults (.next (complete code info s))
      (.next (complete code info (withInternal work acc s.latched s))) :=
  .next (twin_of_idle (s := complete code info s) rfl work acc s.latched)

theorem twinResults_goTo {p : Progress} (h : PlaceAgree s.latched p s.work s.acc work acc) :
    TwinResults (.next (goTo p s)) (.next (goTo p (withInternal work acc s.latched s))) :=
  .next (twin_of_place (s := goTo p s) h)

theorem twinResults_checkStep {code : ErrCode} {g g' : Result} (h : code = .noError → TwinResults g g') :
    TwinResults (checkStep code s g) (checkStep code (withInternal work acc s.latched s) g') := by
  unfold checkStep
  split
  next hcode =>
    change TwinResults (if s.abortReq then _ else g) (if s.abortReq then _ else g')
    split
    · exact twinResults_complete ..
    · exact h hcode
  next => exact twinResults_complete ..

theorem twinResults_abortPoint {g g' : Result} (h : TwinResults g g') :
    TwinResults (abortPoint s g) (abortPoint (withInternal work acc s.latched s) g') := by
  unfold abortPoint
  change TwinResults (if s.abortReq then _ else g) (if s.abortReq then _ else g')
  split
  · exact twinResults_complete ..
  · exact h

theorem twinResults_portRead {a : Nat} {k k' : Word → State} (h : ∀ v, Twin (k v) (k' v)) :
    TwinResults (portRead a s k) (portRead a (withInternal work acc s.latched s) k') := by
  unfold portRead
  split
  · exact .fault _
  · change TwinResults (if readFails s.platform a then _ else _) (if readFails s.platform a then _ else _)
    split
    · exact twinResults_goTo trivial
    · change TwinResults (if hasSideEffects s.platform a 4 then _ else _)
        (if hasSideEffects s.platform a 4 then _ else _)
      split
      · exact .refused _
      · exact .next (h _)

theorem twinResults_portWrite {a : Nat} {v : Word} {k k' : State → State}
    (h : Twin (k (storeWord a v s)) (k' (withInternal work acc s.latched (storeWord a v s)))) :
    TwinResults (portWrite a v s k) (portWrite a v (withInternal work acc s.latched s) k') := by
  unfold portWrite
  split
  · exact .fault _
  · change TwinResults (if writeFails s.platform a then _ else _) (if writeFails s.platform a then _ else _)
    split
    · exact twinResults_goTo (s := failedWrite a s) trivial
    · change TwinResults (if hasSideEffects s.platform a 4 then _ else _)
        (if hasSideEffects s.platform a 4 then _ else _)
      split
      · exact .refused _
      · exact .next h

/-- Going on in a line pass. -/
theorem twin_passOn {n channels : Nat} {p : LinePos} {inPass : LinePos → Progress} {after : Progress}
    (hin : ∀ q, nextPos n channels p = some q → PlaceAgree s.latched (inPass q) s.work s.acc work acc)
    (hafter : nextPos n channels p = none → PlaceAgree s.latched after s.work s.acc work acc) :
    Twin (passOn n channels p inPass after s)
      (passOn n channels p inPass after (withInternal work acc s.latched s)) := by
  cases hq : nextPos n channels p with
  | some q =>
    rw [passOn_some hq, passOn_some hq]
    exact twin_of_place (s := goTo (inPass q) s) (hin q hq)
  | none =>
    rw [passOn_none hq, passOn_none hq]
    exact twin_of_place (s := goTo after (countLine s)) (hafter hq)

/-- Going on in a line pass after a recursion step. -/
theorem twin_passOn_sample {n channels : Nat} {p : LinePos} {v : F32} {inPass : LinePos → Progress} {after : Progress}
    (hph : p.phase ≠ .deliver)
    (hin : ∀ q, nextPos n channels p = some q → PlaceAgree s.latched (inPass q) (sampleStep n channels p v s).work
      (sampleStep n channels p v s).acc (sampleStep n channels p v (withInternal work acc s.latched s)).work
      (sampleStep n channels p v (withInternal work acc s.latched s)).acc) :
    Twin (passOn n channels p inPass after (sampleStep n channels p v s))
      (passOn n channels p inPass after (sampleStep n channels p v (withInternal work acc s.latched s))) := by
  have hl : (sampleStep n channels p v s).latched = s.latched := by rw [sampleStep_eq]
  rw [sampleStep_withInternal n channels p v s work acc s.latched, ← hl]
  rw [← hl] at hin
  exact twin_passOn hin fun hq => absurd ((nextPos_eq_none_iff ..).1 hq).1 hph

/-- One step of LPASS. -/
theorem twinResults_linePassStep {p : LinePos} (h : PlaceAgree s.latched (.lpass p) s.work s.acc work acc) :
    TwinResults (linePassStep p s) (linePassStep p (withInternal work acc s.latched s)) := by
  obtain ⟨hin, hagree⟩ := h
  by_cases hph : p.phase = .deliver
  · have hres := hagree.passResult_eq hin hph s.latched
    simp only [linePassStep, hph]
    refine hres ▸ twinResults_portWrite (twin_passOn (fun q hq => ⟨nextPos_inside hin.1 hin.2 hq, ?_⟩) fun _ => trivial)
    exact hagree.step_deliver hin hph hq
  · rw [linePassStep_of_read hph, linePassStep_of_read hph]
    refine twinResults_portRead fun v => ?_
    have hnext : Twin (lineNext p (sampleStep (opWidth s.latched) (opChannels s.latched) p v s))
        (lineNext p (sampleStep (opWidth s.latched) (opChannels s.latched) p v (withInternal work acc s.latched s))) := by
      rw [lineNext, lineNext, sampleStep_latched, sampleStep_latched]
      exact twin_passOn_sample hph fun q hq => ⟨nextPos_inside hin.1 hin.2 hq, hagree.step hin hq s.latched v⟩
    exact hnext

/-- One step of HPASS. -/
theorem twinResults_rowPassStep {y : Nat} {p : LinePos}
    (h : PlaceAgree s.latched (.hpass y p) s.work s.acc work acc) :
    TwinResults (rowPassStep y p s) (rowPassStep y p (withInternal work acc s.latched s)) := by
  obtain ⟨hy, hin, hagree, hcache⟩ := h
  by_cases hph : p.phase = .deliver
  · have hres := hagree.passResult_eq hin hph s.latched
    have hcache' := hcache.store hres
    rw [rowPassStep_deliver hph, rowPassStep_deliver hph]
    refine .next (twin_passOn (s := cacheStore y p s)
      (work := writeCell work (cacheIndex s.latched p.i y p.c) _) (fun q hq => ?_) fun hq => ?_)
    · refine ⟨hy, nextPos_inside hin.1 hin.2 hq,
        (hagree.step_deliver hin hph hq).writeCell _ hres,
        fun x y' c hx hy' hc hd => hcache' x y' c hx hy' hc ((cachedBefore_next hq hx hc).1 hd)⟩
    · have hrow : CacheAgree s.latched (fun _ y' _ => y' < y + 1) _ _ :=
        fun x y' c hx hy' hc hlt => hcache' x y' c hx hy' hc (cachedBefore_last hq hc hlt)
      change PlaceAgree s.latched (afterRow s.latched y) _ _ _ _
      unfold afterRow
      split
      next hlt =>
        exact ⟨hlt, ⟨Nat.zero_lt_of_lt hin.1, Nat.zero_lt_of_lt hin.2⟩, passAgree_passStart _ _ _ _ _ _,
          fun x y' c hx hy' hc hd => hrow x y' c hx hy' hc (cachedBefore_passStart.1 hd)⟩
      next hge =>
        exact ⟨Nat.zero_lt_of_lt hin.1, ⟨Nat.zero_lt_of_lt hy, Nat.zero_lt_of_lt hin.2⟩,
          passAgree_passStart _ _ _ _ _ _, fun x y' c hx hy' hc _ => hrow x y' c hx hy' hc (by omega)⟩
  · rw [rowPassStep_of_read hph, rowPassStep_of_read hph]
    refine twinResults_portRead fun v => ?_
    have hnext : Twin (rowNext y p (sampleStep (opWidth s.latched) (opChannels s.latched) p v s))
        (rowNext y p
          (sampleStep (opWidth s.latched) (opChannels s.latched) p v (withInternal work acc s.latched s))) := by
      rw [rowNext, rowNext, sampleStep_latched, sampleStep_latched]
      refine twin_passOn_sample hph fun q hq => ⟨hy, nextPos_inside hin.1 hin.2 hq, hagree.step hin hq s.latched v,
        fun x y' c hx hy' hc hd => hcache.sampleStep hin (width_le_scratchWords s.latched) v x y' c hx hy' hc ?_⟩
      exact ((cachedBefore_next hq hx hc).1 hd).resolve_right fun hd => hph hd.2.1
    exact hnext

/-- One step of VPASS. -/
theorem twinResults_columnPassStep {x : Nat} {p : LinePos}
    (h : PlaceAgree s.latched (.vpass x p) s.work s.acc work acc) :
    TwinResults (columnPassStep x p s) (columnPassStep x p (withInternal work acc s.latched s)) := by
  obtain ⟨hx, hin, hagree, hcache⟩ := h
  by_cases hph : p.phase = .deliver
  · have hres := hagree.passResult_eq hin hph s.latched
    simp only [columnPassStep, hph]
    refine hres ▸ twinResults_portWrite (twin_passOn (fun q hq => ⟨hx, nextPos_inside hin.1 hin.2 hq,
      hagree.step_deliver hin hph hq, hcache⟩) fun _ => ?_)
    change PlaceAgree s.latched (afterColumn s.latched x) _ _ _ _
    unfold afterColumn
    split
    next hlt =>
      exact ⟨hlt, ⟨Nat.zero_lt_of_lt hin.1, Nat.zero_lt_of_lt hin.2⟩, passAgree_passStart _ _ _ _ _ _, hcache⟩
    next => trivial
  · have hload : cacheLoad x p (withInternal work acc s.latched s) = cacheLoad x p s :=
      hcache x p.i p.c hx hin.1 hin.2 trivial
    rw [columnPassStep_read hph, columnPassStep_read hph, hload]
    have hnext (v : F32) : Twin (columnNext x p (sampleStep (opHeight s.latched) (opChannels s.latched) p v s))
        (columnNext x p
          (sampleStep (opHeight s.latched) (opChannels s.latched) p v (withInternal work acc s.latched s))) := by
      rw [columnNext, columnNext, sampleStep_latched, sampleStep_latched]
      exact twin_passOn_sample hph fun q hq => ⟨hx, nextPos_inside hin.1 hin.2 hq, hagree.step hin hq s.latched v,
        hcache.sampleStep hin (height_le_scratchWords s.latched) v⟩
    exact .next (hnext _)

/-- One step of a command. -/
theorem twinResults_exec (i : Instr) (hi : latchedIs i s)
    (h : PlaceAgree s.latched s.progress s.work s.acc work acc) :
    TwinResults (exec i s) (exec i (withInternal work acc s.latched s)) := by
  have hp' : (withInternal work acc s.latched s).progress = s.progress := rfl
  cases i with
  | nop =>
    cases hp : s.progress <;> simp only [exec, execNop, hp', hp]
    case check => exact twinResults_checkStep fun _ => twinResults_complete ..
    all_goals exact .fault _
  | solve =>
    cases hp : s.progress <;> simp only [exec, execSolve, hp', hp]
    case check => exact twinResults_checkStep fun _ => twinResults_goTo fun hd => by cases hi.symm.trans hd
    case solve => exact twinResults_abortPoint (twinResults_complete (s := solveUpdate s) ..)
    all_goals exact .fault _
  | line =>
    cases hp : s.progress <;> rw [hp] at h <;> simp only [exec, execLine, hp', hp]
    case check =>
      refine twinResults_checkStep fun hc => twinResults_goTo ?_
      have hok := (lineOk_of_check hc).2
      exact ⟨⟨hok.width_pos, hok.channels_pos⟩, passAgree_passStart _ _ _ _ _ _⟩
    case lpass p => exact twinResults_abortPoint (twinResults_linePassStep h)
    case finish => exact twinResults_complete ..
    case busError a => exact twinResults_complete ..
    all_goals exact .fault _
  | blur2d =>
    cases hp : s.progress <;> rw [hp] at h <;> simp only [exec, execBlur2d, hp', hp]
    case check => exact twinResults_checkStep fun hc => twinResults_goTo fun _ => blurOk_of_check hc
    case solve =>
      have hok := h hi
      refine twinResults_abortPoint (twinResults_goTo (s := solveUpdate s) ?_)
      exact ⟨hok.height_pos, ⟨hok.width_pos, hok.channels_pos⟩, passAgree_passStart _ _ _ _ _ _,
        fun _ y _ _ _ _ hd => absurd (cachedBefore_passStart.1 hd) (Nat.not_lt_zero y)⟩
    case hpass y p => exact twinResults_abortPoint (twinResults_rowPassStep h)
    case vpass x p => exact twinResults_abortPoint (twinResults_columnPassStep h)
    case finish => exact twinResults_complete ..
    case busError a => exact twinResults_complete ..
    all_goals exact .fault _

theorem twinResults_illegalStep :
    TwinResults (illegalStep s) (illegalStep (withInternal work acc s.latched s)) := by
  have hp' : (withInternal work acc s.latched s).progress = s.progress := rfl
  cases hp : s.progress <;> simp only [illegalStep, hp', hp]
  case check => exact twinResults_complete ..
  all_goals exact .fault _

end Engine

/-- The engine's step on twins. -/
theorem twinResults_engineStep {s t : State} (h : Twin s t) : TwinResults (engineStep s) (engineStep t) := by
  have htwin := h
  obtain ⟨work, acc, l, rfl, hagree⟩ := h
  cases hb : s.status.busy with
  | false =>
    have hb' : (withInternal work acc l s).status.busy = false := hb
    rw [engineStep_idle hb, engineStep_idle hb']
    exact .next htwin
  | true =>
    obtain ⟨rfl, hplace⟩ := hagree hb
    have hb' : (withInternal work acc s.latched s).status.busy = true := hb
    cases hf : fetchCommand s with
    | ok i =>
      have hf' : fetchCommand (withInternal work acc s.latched s) = .ok i := hf
      rw [engineStep_of_latched hb hf, engineStep_of_latched hb' hf']
      exact twinResults_exec i hf hplace
    | error e =>
      have hf' : fetchCommand (withInternal work acc s.latched s) = .error e := hf
      simp only [engineStep, hb, hb', hf, hf', if_true]
      exact twinResults_illegalStep

/-! ### The host's steps on twins -/

section Host

variable {s t : State}

/-- A state with the same control and the same unobservable state keeps the agreement. -/
theorem Twin.of_fields {u : State} (h : Twin s t) (hb : u.status.busy = s.status.busy)
    (hp : u.progress = s.progress) (hl : u.latched = s.latched) (hw : u.work = s.work) (ha : u.acc = s.acc) :
    Twin u (withInternal t.work t.acc t.latched u) := by
  obtain ⟨work, acc, l, rfl, hagree⟩ := h
  refine ⟨work, acc, l, rfl, fun hbusy => ?_⟩
  rw [hl, hp, hw, ha]
  exact hagree (hb ▸ hbusy)

/-- A register write on twins: an accepted command is latched, and has written nothing. -/
theorem twin_writeReg (h : Twin s t) (r : Reg) (w : Word) : Twin (writeReg r w s) (writeReg r w t) := by
  have heq := h
  obtain ⟨work, acc, l, rfl, _⟩ := heq
  have hkeep (u : State) := h.of_fields (u := u)
  cases r
  case cmd =>
    have hw (u : State) : writeReg .cmd w u =
      if u.status.busy then { u with status := statusOverrun u.status } else accept w u := rfl
    rw [hw, hw]
    change Twin (if s.status.busy then _ else _) (if s.status.busy then _ else _)
    split
    · exact hkeep { s with status := statusOverrun s.status } rfl rfl rfl rfl rfl
    · exact ⟨work, acc, latch w s.params, rfl, fun _ => ⟨rfl, trivial⟩⟩
  all_goals exact hkeep (writeReg _ w s) rfl rfl rfl rfl rfl

theorem twin_deliverRead (h : Twin s t) (v : Word) : Twin (deliverRead v s) (deliverRead v t) := by
  have heq := h
  obtain ⟨work, acc, l, rfl, _⟩ := heq
  exact h.of_fields (u := deliverRead v s) rfl rfl rfl rfl rfl

/-- No register reads what is not observable. -/
theorem Twin.readReg_eq (h : Twin s t) (r : Reg) : readReg r t = readReg r s := by
  obtain ⟨_, _, _, rfl, _⟩ := h
  cases r <;> rfl

theorem twinResults_registerAccess {offset size : Nat} {f g : Reg → State} (h : ∀ r, Twin (f r) (g r)) :
    TwinResults (registerAccess offset size f) (registerAccess offset size g) := by
  unfold registerAccess
  split
  · exact .fault _
  · split
    · exact .refused _
    · split
      · exact .fault _
      · exact .next (h _)

/-- A store on twins: which samples the command has is asked of a running command only. -/
theorem twinResults_hostStore (h : Twin s t) (a : Nat) (width : Width) (v : Word) :
    TwinResults (hostStore a width v s) (hostStore a width v t) := by
  have heq := h
  obtain ⟨work, acc, l, rfl, hagree⟩ := heq
  have htouch : ((withInternal work acc l s).status.busy &&
      touchesSample (withInternal work acc l s).latched a (widthBytes width)) =
      (s.status.busy && touchesSample s.latched a (widthBytes width)) := by
    change (s.status.busy && touchesSample l a (widthBytes width)) = _
    cases hb : s.status.busy
    · rfl
    · rw [(hagree hb).1]
  have hplatform : (withInternal work acc l s).platform = s.platform := rfl
  unfold hostStore
  rw [htouch, hplatform]
  split
  · exact .fault _
  · split
    · exact .refused _
    · split
      · exact .refused _
      · exact .next (h.of_fields (u := { s with mem := writeBytes s.mem a v (widthBytes width) }) rfl rfl rfl rfl rfl)

theorem twinResults_hostLoad (h : Twin s t) (a : Nat) (width : Width) :
    TwinResults (hostLoad a width s) (hostLoad a width t) := by
  have hmem : t.mem = s.mem ∧ t.platform = s.platform := by
    obtain ⟨_, _, _, rfl, _⟩ := h
    exact ⟨rfl, rfl⟩
  unfold hostLoad
  rw [hmem.1, hmem.2]
  split
  · exact .fault _
  · split
    · exact .refused _
    · exact .next (twin_deliverRead h _)

theorem twinResults_hostWait (h : Twin s t) : TwinResults (hostWait s) (hostWait t) := by
  have heq := h
  obtain ⟨work, acc, l, rfl, _⟩ := heq
  unfold hostWait
  rw [h.readReg_eq]
  change TwinResults (if s.status.busy then _ else _) (if s.status.busy then _ else _)
  split
  · exact .next (h.of_fields (u := { deliverRead (readReg .status s) s with
      agenda := .engine :: .host .wait :: s.agenda }) rfl rfl rfl rfl rfl)
  · exact .next (twin_deliverRead h _)

/-- A step of the host on twins. -/
theorem twinResults_hostStep (h : Twin s t) (e : HostStep) : TwinResults (hostStep e s) (hostStep e t) := by
  cases e with
  | wr offset size w => exact twinResults_registerAccess fun r => twin_writeReg h r w
  | rd offset size => exact twinResults_registerAccess fun r => h.readReg_eq r ▸ twin_deliverRead h _
  | mem a width v => exact twinResults_hostStore h a width v
  | ld a width => exact twinResults_hostLoad h a width
  | wait => exact twinResults_hostWait h

end Host

/-! ### Whole runs -/

/-- A step of the machine on twins, whosever it is. -/
theorem twinResults_step {s t : State} (h : Twin s t) : TwinResults (step s) (step t) := by
  have hagenda : t.agenda = s.agenda := by
    obtain ⟨_, _, _, rfl, _⟩ := h
    rfl
  cases hs : s.agenda with
  | nil =>
    rw [step_nil hs, step_nil (hagenda.trans hs)]
    exact twinResults_engineStep h
  | cons e rest =>
    have hrest : Twin { s with agenda := rest } { t with agenda := rest } := by
      have heq := h
      obtain ⟨_, _, _, rfl, _⟩ := heq
      exact h.of_fields (u := { s with agenda := rest }) rfl rfl rfl rfl rfl
    rw [step_cons hs, step_cons (hagenda.trans hs)]
    cases e with
    | engine => exact twinResults_engineStep hrest
    | host e => exact twinResults_hostStep hrest e
    | reset =>
      obtain ⟨work, acc, l, rfl, _⟩ := h
      exact .next (twin_of_idle (s := resetBlock { s with agenda := rest }) rfl _ _ _)

theorem runN_of_fault {s : State} {f : Fault} (h : step s = .fault f) (n : Nat) : runN (n + 1) s = .fault f := by
  have hstep : Sys2Proof.core.step s = .fault f := h
  simp only [runN, Host.Core.run, hstep]
  rfl

theorem runN_of_refused {s : State} {r : Refusal} (h : step s = .refused r) (n : Nat) :
    runN (n + 1) s = .refused r := by
  have hstep : Sys2Proof.core.step s = .refused r := h
  simp only [runN, Host.Core.run, hstep]
  rfl

/-- A run of any length on twins. -/
theorem twinResults_runN {s t : State} (h : Twin s t) (n : Nat) : TwinResults (runN n s) (runN n t) := by
  induction n generalizing s t with
  | zero => exact .next h
  | succ n ih =>
    have hstep := twinResults_step h
    generalize hr : step s = r, hr' : step t = r' at hstep
    cases hstep with
    | next h =>
      rw [runN_succ hr, runN_succ hr']
      exact ih h
    | fault f =>
      rw [runN_of_fault hr, runN_of_fault hr']
      exact .fault f
    | refused r =>
      rw [runN_of_refused hr, runN_of_refused hr']
      exact .refused r

/-- Settles O49: states of an idle block that differ in unobservable state only are twins, and stay so. -/
theorem leftoverInternalStateIsUnobservable : Obligations.LeftoverInternalStateIsUnobservable :=
  fun n _ work acc l hb _ => (twinResults_runN (twin_of_idle hb work acc l) n).observe_eq

end Sys2Proof.Machine

namespace Sys2Proof.Machine

/-! PROOFS about the arithmetic (00_scope.md R9 to R11): the classes of words, what the primitives give by class, then the
statements about rounding, NaNs, infinities and zeros. -/

/-! ### The classes of words (00_scope.md R9) -/

/-- Every word is a NaN, an infinity or a number. -/
theorem nan_or_inf_or_finite (a : F32) : fIsNaN a = true ∨ fIsInf a = true ∨ fIsFinite a = true := by
  simp only [fIsNaN, fIsInf, fIsFinite, Bool.and_eq_true, beq_iff_eq, bne_iff_ne]
  tauto

/-- An infinity is no NaN and no number. -/
theorem fIsInf_excludes {a : F32} (h : fIsInf a = true) : fIsNaN a = false ∧ fIsZero a = false := by
  simp only [fIsInf, Bool.and_eq_true, beq_iff_eq] at h
  simp [fIsNaN, fIsZero, h.1, h.2]

/-- A packed word is no NaN. -/
theorem fIsNaN_fPack (neg : Bool) (code : Nat) : fIsNaN (fPack neg code) = false := by
  have hle : min code fInfCode ≤ fInfCode := min_le_right _ _
  simp only [fIsNaN, fExp_fPack, fFrac_fPack, Bool.and_eq_false_iff, beq_eq_false_iff_ne, bne_eq_false_iff_eq]
  simp only [fInfCode] at hle ⊢
  omega

theorem fIsInf_fInf (neg : Bool) : fIsInf (fInf neg) = true := by cases neg <;> rfl

theorem fSign_fInf (neg : Bool) : fSign (fInf neg) = neg := fSign_fPack ..

theorem fSign_fZero (neg : Bool) : fSign (fZero neg) = neg := fSign_fPack ..

theorem fIsZero_fZero (neg : Bool) : fIsZero (fZero neg) = true := by cases neg <;> rfl

theorem fIsFinite_fZero (neg : Bool) : fIsFinite (fZero neg) = true := by cases neg <;> rfl

/-- The two infinities are the only ones. -/
theorem eq_fInf {a : F32} (h : fIsInf a = true) : a = fInf (fSign a) := by
  simp only [fIsInf, Bool.and_eq_true, beq_iff_eq, fExp_eq, fFrac_eq] at h
  apply BitVec.eq_of_toNat_eq
  rw [fInf, fPack_toNat, fSign_eq, min_self, fInfCode]
  have := a.isLt
  simp only [decide_eq_true_eq]
  split <;> omega

/-! ### fneg (00_scope.md R10, R11) -/

theorem fneg_of_nan {a : F32} (h : fIsNaN a = true) : fneg a = fNaN := if_pos h

theorem fneg_of_not_nan {a : F32} (h : fIsNaN a = false) : fneg a = fFlip a := if_neg (by simp [h])

/-- Flipping bit 31 keeps the class. -/
theorem fFlip_class (a : F32) : fIsNaN (fFlip a) = fIsNaN a ∧ fIsInf (fFlip a) = fIsInf a ∧
    fIsFinite (fFlip a) = fIsFinite a ∧ fIsZero (fFlip a) = fIsZero a := by
  obtain ⟨he, hf, _⟩ := fFlip_fields a
  simp only [fIsNaN, fIsInf, fIsFinite, fIsZero, he, hf, and_self]

theorem fneg_class {a : F32} (h : fIsNaN a = false) : fIsNaN (fneg a) = false ∧ fIsInf (fneg a) = fIsInf a ∧
    fIsFinite (fneg a) = fIsFinite a ∧ fSign (fneg a) = !fSign a := by
  obtain ⟨hn, hi, hf, _⟩ := fFlip_class a
  rw [fneg_of_not_nan h]
  exact ⟨hn.trans h, hi, hf, (fFlip_fields a).2.2⟩

/-- Negation of a number. -/
theorem fInt_fneg {a : F32} (h : fIsNaN a = false) : fInt (fneg a) = -fInt a := by
  obtain ⟨he, hf, hs⟩ := fFlip_fields a
  rw [fneg_of_not_nan h, fInt, fInt, fMag, fMag, he, hf, hs]
  cases fSign a <;> simp

theorem fRat_fneg {a : F32} (h : fIsNaN a = false) : fRat (fneg a) = -fRat a := by
  rw [fRat, fRat, fInt_fneg h]
  push_cast
  ring

theorem fneg_fInf {a : F32} (h : fIsInf a = true) : fneg a = fInf (!fSign a) := by
  obtain ⟨_, hi, _, hs⟩ := fneg_class (fIsInf_excludes h).1
  rw [eq_fInf (hi.trans h), hs]

/-! ### The primitives by class -/

theorem fadd_of_nan {a b : F32} (h : fIsNaN a = true ∨ fIsNaN b = true) : fadd a b = fNaN :=
  if_pos (by simpa using h)

theorem fmul_of_nan {a b : F32} (h : fIsNaN a = true ∨ fIsNaN b = true) : fmul a b = fNaN :=
  if_pos (by simpa using h)

theorem fdiv_of_nan {a b : F32} (h : fIsNaN a = true ∨ fIsNaN b = true) : fdiv a b = fNaN :=
  if_pos (by simpa using h)

theorem fsub_of_nan {a b : F32} (h : fIsNaN a = true ∨ fIsNaN b = true) : fsub a b = fNaN :=
  fadd_of_nan (h.imp_right fun hb => by rw [fneg_of_nan hb]; rfl)

section Classes

variable {a b : F32}

theorem fadd_of_finite (ha : fIsFinite a = true) (hb : fIsFinite b = true) : fadd a b = fAddFinite a b := by
  obtain ⟨han, hai⟩ := fIsFinite_excludes ha
  obtain ⟨hbn, hbi⟩ := fIsFinite_excludes hb
  simp [fadd, han, hai, hbn, hbi]

theorem fadd_of_inf_finite (ha : fIsInf a = true) (hb : fIsFinite b = true) : fadd a b = a := by
  obtain ⟨hbn, hbi⟩ := fIsFinite_excludes hb
  simp [fadd, (fIsInf_excludes ha).1, ha, hbn, hbi]

theorem fadd_of_finite_inf (ha : fIsFinite a = true) (hb : fIsInf b = true) : fadd a b = b := by
  obtain ⟨han, hai⟩ := fIsFinite_excludes ha
  simp [fadd, (fIsInf_excludes hb).1, hb, han, hai]

theorem fadd_of_inf (ha : fIsInf a = true) (hb : fIsInf b = true) :
    fadd a b = if fSign a = fSign b then a else fNaN := by
  simp only [fadd, (fIsInf_excludes ha).1, (fIsInf_excludes hb).1, ha, hb, Bool.or_self, Bool.false_eq_true, if_false,
    if_true, Bool.true_and, bne_iff_ne, ne_eq, ite_not]

theorem fmul_of_finite (ha : fIsFinite a = true) (hb : fIsFinite b = true) :
    fmul a b = fRound (fSign a != fSign b) (fMag a * fMag b) (2 ^ 149) := by
  obtain ⟨han, hai⟩ := fIsFinite_excludes ha
  obtain ⟨hbn, hbi⟩ := fIsFinite_excludes hb
  simp [fmul, han, hai, hbn, hbi]

theorem fmul_of_inf (hn : fIsNaN a = false ∧ fIsNaN b = false) (hi : fIsInf a = true ∨ fIsInf b = true) :
    fmul a b = if fIsZero a = true ∨ fIsZero b = true then fNaN else fInf (fSign a != fSign b) := by
  have hi' : (fIsInf a || fIsInf b) = true := by simpa using hi
  simp only [fmul, hn.1, hn.2, hi', Bool.or_self, Bool.false_eq_true, if_false, if_true, Bool.or_eq_true]

theorem fdiv_of_finite (ha : fIsFinite a = true) (hb : fIsFinite b = true) (h0 : fIsZero b = false) :
    fdiv a b = fRound (fSign a != fSign b) (fMag a * 2 ^ 149) (fMag b) := by
  obtain ⟨han, hai⟩ := fIsFinite_excludes ha
  obtain ⟨hbn, hbi⟩ := fIsFinite_excludes hb
  simp [fdiv, han, hai, hbn, hbi, h0]

theorem fdiv_of_zero (ha : fIsFinite a = true) (hb : fIsFinite b = true) (h0 : fIsZero b = true) :
    fdiv a b = if fIsZero a = true then fNaN else fInf (fSign a != fSign b) := by
  obtain ⟨han, hai⟩ := fIsFinite_excludes ha
  obtain ⟨hbn, hbi⟩ := fIsFinite_excludes hb
  simp [fdiv, han, hai, hbn, hbi, h0]

theorem fdiv_of_inf_finite (ha : fIsInf a = true) (hb : fIsFinite b = true) :
    fdiv a b = fInf (fSign a != fSign b) := by
  obtain ⟨hbn, hbi⟩ := fIsFinite_excludes hb
  simp [fdiv, (fIsInf_excludes ha).1, ha, hbn, hbi]

theorem fdiv_of_finite_inf (ha : fIsFinite a = true) (hb : fIsInf b = true) :
    fdiv a b = fZero (fSign a != fSign b) := by
  obtain ⟨han, hai⟩ := fIsFinite_excludes ha
  simp [fdiv, (fIsInf_excludes hb).1, hb, han, hai]

theorem fdiv_of_inf (ha : fIsInf a = true) (hb : fIsInf b = true) : fdiv a b = fNaN := by
  simp [fdiv, (fIsInf_excludes ha).1, (fIsInf_excludes hb).1, ha, hb]

end Classes

/-! ### Rounding once (00_scope.md R10) -/

/-- The value of a word by sign and magnitude. -/
theorem fRat_eq (a : F32) : fRat a = (if fSign a then -1 else 1) * ((fMag a : ℚ) / 2 ^ 149) := by
  rw [fRat, fInt]
  split <;> push_cast <;> ring

theorem fIsZero_eq_false_iff (a : F32) : fIsZero a = false ↔ fRat a ≠ 0 := by
  rw [ne_eq, fRat_eq_zero_iff, ← fIsZero_iff_mag, Bool.not_eq_true]

/-- The sign of a product or a quotient. -/
theorem sign_xor (p q : Bool) :
    (if (p != q) then -1 else 1 : ℚ) = (if p then -1 else 1) * (if q then -1 else 1) := by
  cases p <;> cases q <;> norm_num

/-- A zero of either sign is what 0 rounds to. -/
theorem fRound_zero (neg : Bool) : fRound neg 0 1 = fZero neg := by cases neg <;> rfl

theorem roundsTo_fZero (neg : Bool) : RoundsTo 0 (fZero neg) := by
  have h := fRound_roundsTo neg 0 1 one_pos
  rwa [fRound_zero, Nat.cast_zero, zero_div, zero_div, mul_zero] at h

/-- An integer is its sign and its absolute value. -/
theorem sign_mul_natAbs (k : ℤ) : (if decide (k < 0) then -1 else 1 : ℚ) * (k.natAbs : ℚ) = k := by
  rw [Nat.cast_natAbs]
  by_cases h : k < 0
  · rw [decide_eq_true h, if_pos rfl, abs_of_neg h]
    push_cast
    ring
  · rw [decide_eq_false h, if_neg Bool.false_ne_true, abs_of_nonneg (not_lt.1 h), one_mul]

section Rounding

variable {a b : F32}

theorem fRat_add_eq (a b : F32) : fRat a + fRat b = ((fInt a + fInt b : ℤ) : ℚ) / 2 ^ 149 := by
  rw [fRat, fRat]
  push_cast
  ring

theorem fRat_add_eq_zero_iff (a b : F32) : fRat a + fRat b = 0 ↔ fInt a + fInt b = 0 := by
  rw [fRat_add_eq, div_eq_zero_iff, Int.cast_eq_zero]
  simp

theorem fadd_roundsTo (ha : fIsFinite a = true) (hb : fIsFinite b = true) : RoundsTo (fRat a + fRat b) (fadd a b) := by
  rw [fadd_of_finite ha hb, fAddFinite]
  split
  next h0 =>
    rw [(fRat_add_eq_zero_iff a b).2 h0]
    exact roundsTo_fZero _
  next =>
    have h := fRound_roundsTo (decide (fInt a + fInt b < 0)) (fInt a + fInt b).natAbs 1 one_pos
    rwa [Nat.cast_one, div_one, ← mul_div_assoc, sign_mul_natAbs, ← fRat_add_eq] at h

theorem fadd_sign_of_zero (ha : fIsFinite a = true) (hb : fIsFinite b = true) (h : fRat a + fRat b = 0) :
    fSign (fadd a b) = (fSign a && fSign b) := by
  rw [fadd_of_finite ha hb, fAddFinite, if_pos ((fRat_add_eq_zero_iff a b).1 h), fSign_fZero]

theorem fmul_roundsTo (ha : fIsFinite a = true) (hb : fIsFinite b = true) : RoundsTo (fRat a * fRat b) (fmul a b) := by
  have h := fRound_roundsTo (fSign a != fSign b) (fMag a * fMag b) (2 ^ 149) (by positivity)
  have hval : (if (fSign a != fSign b) then -1 else 1 : ℚ) *
      (((fMag a * fMag b : ℕ) : ℚ) / ((2 ^ 149 : ℕ) : ℚ) / 2 ^ 149) = fRat a * fRat b := by
    rw [sign_xor, fRat_eq a, fRat_eq b]
    push_cast
    ring
  rwa [hval, ← fmul_of_finite ha hb] at h

theorem fdiv_roundsTo (ha : fIsFinite a = true) (hb : fIsFinite b = true) (h0 : fRat b ≠ 0) :
    RoundsTo (fRat a / fRat b) (fdiv a b) := by
  have hmag : fMag b ≠ 0 := fun h => h0 ((fRat_eq_zero_iff b).2 h)
  have h := fRound_roundsTo (fSign a != fSign b) (fMag a * 2 ^ 149) (fMag b) (Nat.pos_of_ne_zero hmag)
  have hval : (if (fSign a != fSign b) then -1 else 1 : ℚ) *
      (((fMag a * 2 ^ 149 : ℕ) : ℚ) / (fMag b : ℚ) / 2 ^ 149) = fRat a / fRat b := by
    have hb0 : (fMag b : ℚ) ≠ 0 := Nat.cast_ne_zero.2 hmag
    rw [sign_xor, fRat_eq a, fRat_eq b, Nat.cast_mul, Nat.cast_pow, Nat.cast_ofNat]
    cases fSign b <;> simp only [Bool.false_eq_true, if_true, if_false] <;> field_simp
  rwa [hval, ← fdiv_of_finite ha hb ((fIsZero_eq_false_iff b).2 h0)] at h

end Rounding

/-- Settles O56: a difference is the sum with the negated word. -/
theorem arithmeticIsCorrectlyRounded : Obligations.ArithmeticIsCorrectlyRounded := by
  intro a b ha hb
  have han := (fIsFinite_excludes ha).1
  have hbn := (fIsFinite_excludes hb).1
  obtain ⟨_, _, hfin, hsign⟩ := fneg_class hbn
  have hnb : fIsFinite (fneg b) = true := hfin.trans hb
  have hsub : fRat a - fRat b = fRat a + fRat (fneg b) := by rw [fRat_fneg hbn, sub_eq_add_neg]
  refine ⟨fadd_roundsTo ha hb, ?_, fmul_roundsTo ha hb, fdiv_roundsTo ha hb, fadd_sign_of_zero ha hb, fun h => ?_, ?_,
    fun h => ?_, fneg_of_not_nan han, fRat_fneg han⟩
  · rw [hsub]
    exact fadd_roundsTo ha hnb
  · rw [← hsign]
    exact fadd_sign_of_zero ha hnb (hsub ▸ h)
  · rw [fmul_of_finite ha hb]
    exact fSign_fPack ..
  · rw [fdiv_of_finite ha hb ((fIsZero_eq_false_iff b).2 h)]
    exact fSign_fPack ..

/-! ### NaN results (00_scope.md R11) -/

/-- The word is no NaN but the canonical one. -/
def CanonicalNaN (a : F32) : Prop := fIsNaN a = true → a = fNaN

theorem canonicalNaN_fNaN : CanonicalNaN fNaN := fun _ => rfl

theorem canonicalNaN_of_not_nan {a : F32} (h : fIsNaN a = false) : CanonicalNaN a :=
  fun hn => absurd (h.symm.trans hn) Bool.false_ne_true

theorem canonicalNaN_fPack (neg : Bool) (code : Nat) : CanonicalNaN (fPack neg code) :=
  canonicalNaN_of_not_nan (fIsNaN_fPack ..)

theorem canonicalNaN_ite {P : Prop} [Decidable P] {a b : F32} (ha : CanonicalNaN a) (hb : CanonicalNaN b) :
    CanonicalNaN (if P then a else b) := by
  split
  · exact ha
  · exact hb

theorem canonicalNaN_fneg (a : F32) : CanonicalNaN (fneg a) := by
  by_cases h : fIsNaN a = true
  · exact fneg_of_nan h ▸ canonicalNaN_fNaN
  · exact canonicalNaN_of_not_nan (fneg_class (Bool.eq_false_iff.2 h)).1

theorem canonicalNaN_fadd (a b : F32) : CanonicalNaN (fadd a b) := by
  by_cases h : fIsNaN a = true ∨ fIsNaN b = true
  · exact fadd_of_nan h ▸ canonicalNaN_fNaN
  · simp only [not_or, Bool.not_eq_true] at h
    have hna := canonicalNaN_of_not_nan h.1
    have hnb := canonicalNaN_of_not_nan h.2
    exact canonicalNaN_ite canonicalNaN_fNaN (canonicalNaN_ite (canonicalNaN_ite canonicalNaN_fNaN hna)
      (canonicalNaN_ite hnb (canonicalNaN_ite (canonicalNaN_fPack _ _) (canonicalNaN_fPack _ _))))

theorem canonicalNaN_fmul (a b : F32) : CanonicalNaN (fmul a b) :=
  canonicalNaN_ite canonicalNaN_fNaN (canonicalNaN_ite (canonicalNaN_ite canonicalNaN_fNaN (canonicalNaN_fPack _ _))
    (canonicalNaN_fPack _ _))

theorem canonicalNaN_fdiv (a b : F32) : CanonicalNaN (fdiv a b) :=
  canonicalNaN_ite canonicalNaN_fNaN (canonicalNaN_ite (canonicalNaN_ite canonicalNaN_fNaN (canonicalNaN_fPack _ _))
    (canonicalNaN_ite (canonicalNaN_fPack _ _) (canonicalNaN_ite (canonicalNaN_ite canonicalNaN_fNaN
      (canonicalNaN_fPack _ _)) (canonicalNaN_fPack _ _))))

theorem canonicalNaN_fexp (a : F32) : CanonicalNaN (fexp a) := by
  refine canonicalNaN_ite (canonicalNaN_of_not_nan rfl) fun h => ?_
  unfold fCanon at *
  split at h
  next hn => exact if_pos hn
  next hn => exact absurd h hn

/-- Settles O57. -/
theorem naNResultsAreCanonical : Obligations.NaNResultsAreCanonical :=
  ⟨fun _ _ h => ⟨fadd_of_nan h, fsub_of_nan h, fmul_of_nan h, fdiv_of_nan h⟩, fun _ => fneg_of_nan,
    fun a b => ⟨canonicalNaN_fadd a b, canonicalNaN_fadd a (fneg b), canonicalNaN_fmul a b, canonicalNaN_fdiv a b,
      canonicalNaN_fneg a, canonicalNaN_fexp a⟩⟩

/-! ### Infinities and zeros (00_scope.md R10) -/

section Infinities

variable {a b : F32}

/-- An infinity and a number. -/
theorem inf_finite_cases (ha : fIsInf a = true) (hb : fIsFinite b = true) :
    fadd a b = a ∧ fadd b a = a ∧ fsub a b = a ∧ fsub b a = fInf (!fSign a) ∧ fdiv a b = fInf (fSign a != fSign b) ∧
      fdiv b a = fZero (fSign a != fSign b) := by
  have hbn := (fIsFinite_excludes hb).1
  have hnb : fIsFinite (fneg b) = true := (fneg_class hbn).2.2.1.trans hb
  refine ⟨fadd_of_inf_finite ha hb, fadd_of_finite_inf hb ha, fadd_of_inf_finite ha hnb, ?_, fdiv_of_inf_finite ha hb,
    ?_⟩
  · rw [fsub, fneg_fInf ha]
    exact fadd_of_finite_inf hb (fIsInf_fInf _)
  · rw [fdiv_of_finite_inf hb ha, bne_comm]

/-- An infinity times a number. -/
theorem inf_mul_finite (ha : fIsInf a = true) (hb : fIsFinite b = true) :
    fmul a b = (if fIsZero b = true then fNaN else fInf (fSign a != fSign b)) ∧
      fmul b a = if fIsZero b = true then fNaN else fInf (fSign a != fSign b) := by
  obtain ⟨han, ha0⟩ := fIsInf_excludes ha
  have hbn := (fIsFinite_excludes hb).1
  rw [fmul_of_inf ⟨han, hbn⟩ (.inl ha), fmul_of_inf ⟨hbn, han⟩ (.inr ha), bne_comm (a := fSign b), ha0]
  simp

/-- Two infinities. -/
theorem inf_inf_cases (ha : fIsInf a = true) (hb : fIsInf b = true) :
    fdiv a b = fNaN ∧ fmul a b = fInf (fSign a != fSign b) ∧
      (fSign a = fSign b → fadd a b = a ∧ fsub a b = fNaN) ∧
      (fSign a ≠ fSign b → fadd a b = fNaN ∧ fsub a b = a) := by
  obtain ⟨han, ha0⟩ := fIsInf_excludes ha
  obtain ⟨hbn, hb0⟩ := fIsInf_excludes hb
  have hsub : fsub a b = if fSign a = !fSign b then a else fNaN := by
    rw [fsub, fneg_fInf hb, fadd_of_inf ha (fIsInf_fInf _), fSign_fInf]
  rw [hsub, fadd_of_inf ha hb]
  refine ⟨fdiv_of_inf ha hb, ?_, fun h => ⟨if_pos h, if_neg ?_⟩, fun h => ⟨if_neg h, if_pos ?_⟩⟩
  · rw [fmul_of_inf ⟨han, hbn⟩ (.inl ha), if_neg (by simp [ha0, hb0])]
  · rw [h]
    simp
  · exact Bool.eq_not.2 h

end Infinities

/-- Settles O58: an infinity with a number, with an infinity, and the zeros. -/
theorem infinitiesAndZeros : Obligations.InfinitiesAndZeros := by
  intro a b ha
  refine ⟨fun hb => ?_, inf_inf_cases ha, fneg_fInf ha, eq_fInf ha, fun p q => ?_⟩
  · obtain ⟨hab, hba, hsub, hsub', hdiv, hdiv'⟩ := inf_finite_cases ha hb
    obtain ⟨hmul, hmul'⟩ := inf_mul_finite ha hb
    refine ⟨hab, hba, hsub, hsub', hdiv, hdiv', fun h0 => ?_, fun h0 => ?_⟩
    · have hz : fIsZero b = true := (fIsZero_iff_mag b).2 ((fRat_eq_zero_iff b).1 h0)
      exact ⟨hmul.trans (if_pos hz), hmul'.trans (if_pos hz)⟩
    · have hz : fIsZero b ≠ true := Bool.eq_false_iff.1 ((fIsZero_eq_false_iff b).2 h0)
      refine ⟨hmul.trans (if_neg hz), hmul'.trans (if_neg hz), ?_⟩
      rw [fdiv_of_zero hb (fIsFinite_fZero _) (fIsZero_fZero _), if_neg hz, fSign_fZero, bne_comm]
  · cases p <;> cases q <;> rfl

/-! ### A NaN sample (41_line_filter.md R90) -/

/-- The recursion on a NaN, as the sample or as the previous value. -/
theorem recurse_of_nan {sample prev : F32} (gain feedback : F32) (h : fIsNaN sample = true ∨ prev = fNaN) :
    recurse gain feedback sample prev = fNaN := by
  refine fsub_of_nan ?_
  rcases h with h | rfl
  · exact .inl (by rw [fmul_of_nan (.inl h)]; rfl)
  · exact .inr (by rw [fmul_of_nan (.inl rfl)]; rfl)

/-- From a NaN sample on the forward recursion is the canonical NaN. -/
theorem forwardAt_of_nan {k : Coefs} {x : Nat → F32} {j i : Nat} (hx : fIsNaN (x j) = true) (h : j ≤ i) :
    forwardAt k x i = fNaN := by
  induction i with
  | zero =>
    obtain rfl : j = 0 := Nat.le_zero.1 h
    exact recurse_of_nan _ _ (.inl hx)
  | succ i ih =>
    rcases Nat.le_succ_iff.1 h with hle | rfl
    · exact recurse_of_nan _ _ (.inr (ih hle))
    · exact recurse_of_nan _ _ (.inl hx)

/-- From a NaN sample back the backward recursion is the canonical NaN. -/
theorem backwardAt_of_nan {k : Coefs} {n : Nat} {x : Nat → F32} {m m' : Nat} (hx : fIsNaN (x (n - 1 - m')) = true)
    (h : m' ≤ m) : backwardAt k n x m = fNaN := by
  induction m with
  | zero =>
    obtain rfl : m' = 0 := Nat.le_zero.1 h
    exact recurse_of_nan _ _ (.inl hx)
  | succ m ih =>
    rcases Nat.le_succ_iff.1 h with hle | rfl
    · exact recurse_of_nan _ _ (.inr (ih hle))
    · exact recurse_of_nan _ _ (.inl hx)

/-- Settles O59: positions from the sample on by the forward recursion, those before it by the backward one. -/
theorem naNSampleFillsTheLine : Obligations.NaNSampleFillsTheLine := by
  intro k n x j i hj hi hx
  refine fadd_of_nan ?_
  rcases Nat.le_total j i with h | h
  · exact .inl (by rw [forwardAt_of_nan hx h]; rfl)
  · have hback : n - 1 - (n - 1 - j) = j := by omega
    exact .inr (by rw [backwardAt_of_nan (m' := n - 1 - j) (by rwa [hback]) (by omega)]; rfl)

end Sys2Proof.Machine

namespace Sys2Proof.Machine

/-! PROOFS about the coefficient solver and its exponential (40_coefficient_solver.md R77, R78, R81). -/

/-! ### Sigma = +inf (40_coefficient_solver.md R81) -/

theorem fdiv_e0_posInf : fdiv Config.e0 0x7F800000#32 = 0x00000000#32 := by decide +kernel

theorem fmul_fTwo_zero : fmul fTwo 0x00000000#32 = 0x00000000#32 := by decide +kernel

theorem fneg_zero : fneg 0x00000000#32 = 0x80000000#32 := by decide

/-- Settles O23: alpha is 0 there, both exponentials are 1.0, and the rest is arithmetic on these words. -/
theorem coefficientsAtInfinity : Obligations.CoefficientsAtInfinity := by
  refine ⟨fun f h => ?_, by decide, by decide⟩
  simp only [coefWith, clampSigma_posInf, fdiv_e0_posInf, fmul_fTwo_zero, fneg_zero, h]
  decide +kernel

/-! ### The arguments of the exponential (40_coefficient_solver.md R77) -/

/-- A number rounded between two numbers of the format stays between them. -/
theorem roundsTo_between {q : ℚ} {w lo hi : F32} (h : RoundsTo q w) (hq : |q| < overflowBound)
    (hlo : fIsFinite lo = true) (hhi : fIsFinite hi = true) (hqlo : fRat lo ≤ q) (hqhi : q ≤ fRat hi) :
    fIsFinite w = true ∧ fRat lo ≤ fRat w ∧ fRat w ≤ fRat hi := by
  obtain ⟨hfin, hnear⟩ := h.1 hq
  refine ⟨hfin, ?_, ?_⟩
  · by_contra hlt
    have hle := (hnear lo hlo).1
    rw [abs_of_nonpos (by linarith), abs_of_nonpos (by linarith)] at hle
    linarith
  · by_contra hlt
    have hle := (hnear hi hhi).1
    rw [abs_of_nonneg (by linarith), abs_of_nonneg (by linarith)] at hle
    linarith

theorem fRat_zero : fRat 0x00000000#32 = 0 := by
  have h : fInt 0x00000000#32 = 0 := by decide
  rw [fRat, h]
  norm_num

theorem fRat_fTwo : fRat fTwo = 2 := by
  have h : fInt fTwo = 2 ^ 150 := by decide +kernel
  rw [fRat, h]
  norm_num

/-- E0 is a positive number no greater than 2. -/
theorem fRat_e0_bounds : 0 < fRat Config.e0 ∧ fRat Config.e0 ≤ 2 := by
  have h : 0 < fInt Config.e0 ∧ fInt Config.e0 ≤ 2 ^ 150 := by decide +kernel
  have hq : (0 : ℚ) < fInt Config.e0 ∧ (fInt Config.e0 : ℚ) ≤ 2 ^ 150 := by exact_mod_cast h
  rw [fRat]
  refine ⟨div_pos hq.1 (by positivity), ?_⟩
  rw [div_le_iff₀ (by positivity)]
  linarith

/-- The words of 2*E0 and of 4*E0, which doubling makes exact. -/
theorem fRat_twoE0 : fRat 0x4058D412#32 = 2 * fRat Config.e0 := by
  have h : fInt 0x4058D412#32 = 2 * fInt Config.e0 := by decide +kernel
  rw [fRat, fRat, h]
  push_cast
  ring

theorem fRat_fourE0 : fRat 0x40D8D412#32 = 4 * fRat Config.e0 := by
  have h : fInt 0x40D8D412#32 = 4 * fInt Config.e0 := by decide +kernel
  rw [fRat, fRat, h]
  push_cast
  ring

/-- What the floor leaves: +inf, or a number no less than 0.5. -/
theorem clampSigma_cases (sigma : F32) :
    clampSigma sigma = 0x7F800000#32 ∨ (fIsFinite (clampSigma sigma) = true ∧ 1 / 2 ≤ fRat (clampSigma sigma)) := by
  have hhalf : fIsFinite fHalf = true ∧ 1 / 2 ≤ fRat fHalf := ⟨rfl, fRat_fHalf.ge⟩
  rcases nan_or_inf_or_finite sigma with h | h | h
  · exact .inr (clampSigma_of_nan h ▸ hhalf)
  · rw [eq_fInf h]
    cases fSign sigma
    · exact .inl clampSigma_posInf
    · exact .inr (clampSigma_negInf ▸ hhalf)
  · rw [clampSigma_of_finite h]
    split
    next hle => exact .inr ⟨h, hle⟩
    next => exact .inr hhalf

/-- Alpha of R78 is a number from 0 to 2*E0. -/
theorem alpha_bounds (sigma : F32) :
    fIsFinite (fdiv Config.e0 (clampSigma sigma)) = true ∧ 0 ≤ fRat (fdiv Config.e0 (clampSigma sigma)) ∧
      fRat (fdiv Config.e0 (clampSigma sigma)) ≤ 2 * fRat Config.e0 := by
  obtain ⟨hpos, hle2⟩ := fRat_e0_bounds
  rcases clampSigma_cases sigma with h | ⟨hfin, hhalf⟩
  · rw [h, fdiv_e0_posInf, fRat_zero]
    exact ⟨rfl, le_rfl, by linarith⟩
  · have hs : 0 < fRat (clampSigma sigma) := by linarith
    have hq0 : 0 ≤ fRat Config.e0 / fRat (clampSigma sigma) := (div_pos hpos hs).le
    have hq2 : fRat Config.e0 / fRat (clampSigma sigma) ≤ 2 * fRat Config.e0 := by
      rw [div_le_iff₀ hs]
      nlinarith
    have hround := roundsTo_between (fdiv_roundsTo rfl hfin hs.ne') (lo := 0x00000000#32) (hi := 0x4058D412#32)
      (by rw [abs_of_nonneg hq0, overflowBound]; linarith) rfl rfl (by rwa [fRat_zero]) (by rwa [fRat_twoE0])
    rwa [fRat_zero, fRat_twoE0] at hround

/-- 2*alpha of R78 is a number from 0 to 4*E0. -/
theorem twoAlpha_bounds (sigma : F32) :
    fIsFinite (fmul fTwo (fdiv Config.e0 (clampSigma sigma))) = true ∧
      0 ≤ fRat (fmul fTwo (fdiv Config.e0 (clampSigma sigma))) ∧
      fRat (fmul fTwo (fdiv Config.e0 (clampSigma sigma))) ≤ 4 * fRat Config.e0 := by
  obtain ⟨-, hle2⟩ := fRat_e0_bounds
  obtain ⟨hfin, h0, h2⟩ := alpha_bounds sigma
  have hmul := fmul_roundsTo (a := fTwo) rfl hfin
  rw [fRat_fTwo] at hmul
  have hround := roundsTo_between hmul (lo := 0x00000000#32) (hi := 0x40D8D412#32)
    (by rw [abs_of_nonneg (by linarith), overflowBound]; linarith) rfl rfl (by rw [fRat_zero]; linarith)
    (by rw [fRat_fourE0]; linarith)
  rwa [fRat_zero, fRat_fourE0] at hround

/-- A number from 0 to 4*E0, negated, is an argument of the laws. -/
theorem fexpArgument_fneg {x : F32} (hfin : fIsFinite x = true) (h0 : 0 ≤ fRat x) (h4 : fRat x ≤ 4 * fRat Config.e0) :
    fexpArgument (fneg x) := by
  have hn := (fIsFinite_excludes hfin).1
  rw [← fRat_zero, fRat_le_fRat_iff, ← fInt_le_fInt_iff] at h0
  rw [← fRat_fourE0, fRat_le_fRat_iff, ← fInt_le_fInt_iff] at h4
  have hzero : fInt 0x00000000#32 = 0 := by decide
  have hbound : fInt 0xC0D8D412#32 = -fInt 0x40D8D412#32 := by decide +kernel
  refine ⟨(fneg_class hn).2.2.1.trans hfin, ?_, ?_⟩
  · rw [fInt_fneg hn, hbound]
    omega
  · rw [fInt_fneg hn]
    omega

/-- The hardware's FEXP meets the laws: on their interval it is the configuration's exponential. -/
theorem fexp_laws : FexpLaws fexp := by
  obtain ⟨_, positive, near, monotone⟩ := Config.exponential.laws
  refine ⟨⟨rfl, rfl⟩, fun x hx => ?_, fun x hx => ?_, fun x y hx hy hxy => ?_⟩
  · rw [fexp_eq_exponential hx]
    exact positive x hx
  · rw [fexp_eq_exponential hx]
    exact near x hx
  · rw [fexp_eq_exponential hx, fexp_eq_exponential hy]
    exact monotone x y hx hy hxy

/-- Settles O24: B2 is positive by law L2, and at most FEXP(0) = 1.0 by L3 and L1. -/
theorem lawfulExponentialBoundsB2 : Obligations.LawfulExponentialBoundsB2 := by
  refine ⟨fexp_laws, fun f sigma hf => ?_⟩
  obtain ⟨hfin, h0, h2⟩ := alpha_bounds sigma
  obtain ⟨hfin', h0', h4⟩ := twoAlpha_bounds sigma
  have harg := fexpArgument_fneg hfin h0 (by linarith [fRat_e0_bounds.1])
  have harg' := fexpArgument_fneg hfin' h0' h4
  obtain ⟨hb2, hpos⟩ := hf.positive _ harg'
  have hzero : fexpArgument 0x00000000#32 := ⟨rfl, by decide +kernel, by decide⟩
  have hmono := hf.monotone _ _ harg' hzero (harg'.2.2.trans (by decide))
  rw [hf.atZero.1] at hmono
  exact ⟨harg, harg', hb2, hpos, hmono⟩

end Sys2Proof.Machine
